-- ==== Sys2Proof/Word.lean ====
section
/-! DEFINITION. The widths of the Jpeg-process CORE: a DMEM word, a host register and a command word are all 64 bits
(spec rule R9, WORD); a byte lane of the host bus is 8 bits (R210). -/

namespace Sys2Proof

/-- A DMEM word, a register or a command word (R9: WORD = 64 bits). -/
abbrev Word := BitVec 64

/-- One byte lane of the host bus (R210). -/
abbrev Byte := BitVec 8

/-- A channel 0..2, the index of a predictor register (R103, R104). -/
abbrev Channel := Fin 3

end Sys2Proof
end

