-- ==== Sys2Proof/Config.lean ====
section
/-! DEFINITION. What an implementation fixes and what the spec leaves open: the record of the model arguments of R9
(their default values stand in Machine/Tables.lean), the one free value of the
model, and the base address of the fixed core. -/

namespace Sys2Proof

/-- An exact rational number num / den, kept as written (R12: the pseudocode computes in ℚ). A legal one has den > 0. -/
structure Frac where
  num : Int
  den : Nat
  deriving DecidableEq, Repr

/-- The model arguments: those of R9 and R10, DMEM_WORDS, QTAB (R440), COLOR_M, COLOR_OFF, RECENTER (R400) and CUM (R500), and
REG_BASE, the address of the register block on the host's bus (R110, R202, I11). -/
structure Params where
  dmemWords : Nat
  qtab : List Nat
  colorM : List (List Frac)
  colorOff : List Frac
  recenter : List Frac
  cum : List Nat
  regBase : Nat
  deriving DecidableEq, Repr

/-- FREE VALUE. What the n-th unconstrained read hands the host: a host read of a DMEM word that nothing has written since
reset (R141, I2) or a read that was stalled when reset was asserted (R701, I5). It has no body, so nothing can be proved of
its value; log 3. -/
opaque Config.freeWord : Nat → Word

/-- REG_BASE of the fixed core: the platform's choice, for which the spec gives no default (R202, I11). It has no body, so nothing
can be proved of its value, and what is proved of the fixed core holds wherever the platform puts it; log 6. -/
opaque Config.regBase : Nat

end Sys2Proof
end

