-- ==== Sys2Proof/Machine/State.lean ====
section
/-! DEFINITION. The state of the core (R102) and of its host port, the reasons a run of the model stops, and the state right
after reset (R140, R700). -/

namespace Sys2Proof.Machine

/-- DMEM as byte cells (R200, R210; log 1): byte lane j of DMEM word a has the key 8·a + j. An unlisted key holds NO VALUE: a
word that nothing has written since reset (R141; log 2). Canonical form: `Memory.wfIn` in Machine/Ops.lean. -/
abbrev Memory := List Host.Cell

/-- One access of the host over its bus: a byte address, a size in bytes and, for a write, the data. The register block lies at
REG_BASE (R110, R202); in it only size 8 at an offset that is a multiple of 8 is a legal access (R221). -/
inductive HostAccess where
  | read (address size : Nat)
  | write (address size : Nat) (data : Word)
  deriving DecidableEq, Repr

/-- What comes from outside the core: a host access, or the reset input going to the given level (R700). -/
inductive HostInput where
  | access (a : HostAccess)
  | reset (asserted : Bool)
  deriving DecidableEq, Repr

/-- One thing that arrives at the core. `after` counts the commands that complete before it comes, of those that run without a
pause before it: the one in flight, then those issued from held CMD writes. So 0 is an arrival that comes while the command in
flight is still running; at a free core it says nothing. How long a command runs is open (R230, R720, I8), and so is the count,
for a command issued from a held CMD write as for any other (log 8). -/
structure Arrival where
  after : Nat
  input : HostInput
  deriving DecidableEq, Repr

/-- The host port. `held` and `inReset` are implied by R230, R700 and R701; `arrivals`, `replies` and `draws` are the model's
own (log 3, log 8, log 14). -/
structure HostBus where
  /-- what the outside does next, in bus arrival order (R231) -/
  arrivals : List Arrival
  /-- accesses that wait while BUSY = 1, oldest first (R230) -/
  held : List HostAccess
  /-- the words handed back to the host by its reads, oldest first -/
  replies : List Word
  /-- how many free values have been drawn (`Config.freeWord`) -/
  draws : Nat
  /-- the reset input is asserted -/
  inReset : Bool
  deriving DecidableEq, Repr

/-- The fault codes of the core (R601). They are NOT stops of the model: a command that raises one ends in a next state that
holds the record (R610). -/
inductive CoreFault where
  | illegalOpcode
  | reservedField
  | badChannel
  | addrRange
  | streamLength
  | missingTerminator
  | negativeRun
  | seqOverflow
  | decOverrun
  deriving DecidableEq, Repr

/-- The state of one core (R102) and its host port. -/
structure State where
  /-- DMEM (R200) -/
  mem : Memory
  /-- PRED[0] (R103) -/
  pred0 : Word
  /-- PRED[1] (R103) -/
  pred1 : Word
  /-- PRED[2] (R103) -/
  pred2 : Word
  /-- STATUS.BUSY (R122) -/
  busy : Bool
  /-- INFLIGHT, the command word being executed; meaningful only while BUSY = 1 (R130) -/
  inflight : Word
  /-- STATUS.DONE (R122) -/
  done : Bool
  /-- STATUS.FAULT (R122) -/
  fault : Bool
  /-- STATUS.LOST (R122) -/
  lost : Bool
  /-- STATUS.FCODE (R122) -/
  fcode : BitVec 8
  /-- FCMD (R125) -/
  fcmd : Word
  /-- FINFO (R126) -/
  finfo : Word
  /-- CTRL.IE_DONE (R124) -/
  ieDone : Bool
  /-- CTRL.IE_FAULT (R124) -/
  ieFault : Bool
  /-- the host port -/
  bus : HostBus
  deriving DecidableEq, Repr

/-- Why a run of the model stops with a fault. -/
inductive Fault where
  /-- Raised by a command whose read phase reads DMEM word `addr`, the first word of its read set that nothing has written
  since reset (R141, R311, R603, I1). The hardware goes on with some value; the model does not guess it: safe (log 2). -/
  | unwrittenDmem (addr : Nat)
  deriving DecidableEq, Repr

/-- Why the model has no move. -/
inductive Refusal where
  /-- Raised by exec for an instruction that has no meaning yet. Safe: the model stops where the hardware goes on. -/
  | notModelled (mnemonic : String)
  /-- Raised by step for a host access to the register block that is not one aligned 64-bit access. The hardware answers with a
  bus error and changes no state; R221 and I6 tell a model to refuse it: safe (log 12). -/
  | busError (offset size : Nat)
  /-- Raised by step for a host access to an address outside the register block (R201, R202): it is no access to this core, and
  the spec says nothing of it: safe (log 12). -/
  | outsideBlock (address : Nat)
  /-- Raised by step for a host access while the reset input is asserted (R713, I7): safe (log 13). -/
  | accessDuringReset
  deriving DecidableEq, Repr

/-- The host port right after reset: nothing held, nothing arriving, the reset input released (log 3, log 11, log 13). -/
def HostBus.reset : HostBus where
  arrivals := []
  held := []
  replies := []
  draws := 0
  inReset := false

/-- The core right after reset (R140, R700): every DMEM word unwritten, PRED = (0, 0, 0), STATUS, CTRL, FCMD, FINFO = 0.
INFLIGHT has no reset value in the spec; 0 is the model's choice (log 4). -/
def State.reset : State where
  mem := []
  pred0 := 0
  pred1 := 0
  pred2 := 0
  busy := false
  inflight := 0
  done := false
  fault := false
  lost := false
  fcode := 0
  fcmd := 0
  finfo := 0
  ieDone := false
  ieFault := false
  bus := HostBus.reset

end Sys2Proof.Machine
end

