-- ==== Sys2Proof/Machine/Arith.lean ====
section
/-! DEFINITION. The arithmetic primitives of R12 and R20: readings of a word, clamp, round-half-to-even, and exact fractions. -/

namespace Sys2Proof.Machine

/-- s64(w): the two's-complement reading of a stored word (R12). -/
def s64 (w : Word) : Int := w.toInt

/-- u64(v): the integer v mod 2^64 as a word (R12). -/
def u64 (v : Int) : Word := BitVec.ofInt 64 v

/-- s64(u64(v)): the 64-bit two's-complement wrap (R20, decision D5). -/
def wrap64 (v : Int) : Int := s64 (u64 v)

/-- clamp(v, lo, hi) (R12). -/
def clamp (v lo hi : Int) : Int := if v < lo then lo else if hi < v then hi else v

/-- rne(n / d) for d > 0: the nearest integer, an exact half to the even one (R12, decision D8). -/
def rneDiv (n : Int) (d : Nat) : Int :=
  let q := n / (d : Int)
  let r := n % (d : Int)
  if 2 * r < d then q
  else if (d : Int) < 2 * r then q + 1
  else if q % 2 = 0 then q else q + 1

end Sys2Proof.Machine

namespace Sys2Proof

/-- The fraction of an integer. -/
def Frac.ofInt (n : Int) : Frac := ⟨n, 1⟩

/-- Exact sum. -/
def Frac.add (a b : Frac) : Frac := ⟨a.num * b.den + b.num * a.den, a.den * b.den⟩

/-- Exact difference. -/
def Frac.sub (a b : Frac) : Frac := ⟨a.num * b.den - b.num * a.den, a.den * b.den⟩

/-- Exact product. -/
def Frac.mul (a b : Frac) : Frac := ⟨a.num * b.num, a.den * b.den⟩

/-- Exact quotient, for a divisor that is not 0. -/
def Frac.div (a b : Frac) : Frac := ⟨a.num * b.num.sign * b.den, a.den * b.num.natAbs⟩

/-- The same number in lowest terms. -/
def Frac.reduce (a : Frac) : Frac :=
  let g := Nat.gcd a.num.natAbs a.den
  ⟨a.num / (g : Int), a.den / g⟩

/-- rne of a fraction (R12). -/
def Frac.rne (a : Frac) : Int := Machine.rneDiv a.num a.den

end Sys2Proof

namespace Sys2Proof.Machine

/-- Σ a_i · b_i over two lists, exact in ℤ. -/
def dot : List Int → List Int → Int
  | a :: as, b :: bs => a * b + dot as bs
  | _, _ => 0

end Sys2Proof.Machine
end

