-- ==== Sys2Proof/Machine/Tables.lean ====
section
/-! DEFINITION. The constants of the core (R9, R102): scalar parameters, the transform matrix KD (R420), the zigzag table ZZ
(R460), and the spec's default values of the model arguments QTAB (R440), COLOR_M, COLOR_OFF, RECENTER (R400), CUM (R500) and
DMEM_WORDS (R9), with the legality conditions of R10. -/

namespace Sys2Proof.Machine

/-- ID_VALUE, the identity register (R3, R120). -/
def idValue : Word := 0x000000074A504331

/-- SYM_MIN (R9). -/
def symMin : Int := -32

/-- SYM_MAX (R9). -/
def symMax : Int := 31

/-- SAMPLE_MAX (R9). -/
def sampleMax : Int := 255

/-- FRAC_BITS (R9). -/
def fracBits : Nat := 32

/-- DCT_COEF_BITS (R9). -/
def dctCoefBits : Nat := 40

/-- DCT_IN_LIMIT (R9). -/
def dctInLimit : Int := 2 ^ 15

/-- COEF_LIMIT (R9). -/
def coefLimit : Int := 2 ^ 20

/-- Q_MIN (R9, R442). -/
def qMin : Int := -128

/-- Q_MAX (R9, R442). -/
def qMax : Int := 127

/-- P_BITS (R9). -/
def pBits : Nat := 16

/-- MAX_SYMBOLS, the longest symbol stream (R483). -/
def maxSymbols : Nat := 129

/-- CW_WORDS (R9). -/
def cwWords : Nat := 33

/-- CW_FRAC = 64 · CW_WORDS (R9). -/
def cwFrac : Nat := 2112

/-- KD, row u, column x: the nearest integer to C(u, x) · 2^40 (R420; the table is normative). -/
def kd : List (List Int) :=
  [[388736063997, 388736063997, 388736063997, 388736063997, 388736063997, 388736063997, 388736063997, 388736063997],
   [539192410077, 457105253435, 305427965626, 107252038762, -107252038762, -305427965626, -457105253435, -539192410077],
   [507908144330, 210382441821, -210382441821, -507908144330, -507908144330, -210382441821, 210382441821, 507908144330],
   [457105253435, -107252038762, -539192410077, -305427965626, 305427965626, 539192410077, 107252038762, -457105253435],
   [388736063997, -388736063997, -388736063997, 388736063997, 388736063997, -388736063997, -388736063997, 388736063997],
   [305427965626, -539192410077, 107252038762, 457105253435, -457105253435, -107252038762, 539192410077, -305427965626],
   [210382441821, -507908144330, 507908144330, -210382441821, -210382441821, 507908144330, -507908144330, 210382441821],
   [107252038762, -305427965626, 457105253435, -539192410077, 539192410077, -457105253435, 305427965626, -107252038762]]

/-- ZZ: sequence index i holds plane offset ZZ[i] (R460). -/
def zz : List Nat :=
  [0, 1, 8, 16, 9, 2, 3, 10, 17, 24, 32, 25, 18, 11, 4, 5,
   12, 19, 26, 33, 40, 48, 41, 34, 27, 20, 13, 6, 7, 14, 21, 28,
   35, 42, 49, 56, 57, 50, 43, 36, 29, 22, 15, 23, 30, 37, 44, 51,
   58, 59, 52, 45, 38, 31, 39, 46, 53, 60, 61, 54, 47, 55, 62, 63]

/-- The default QTAB: the luminance table of the JPEG standard (R440, G1). -/
def defaultQtab : List Nat :=
  [16, 11, 10, 16, 24, 40, 51, 61,
   12, 12, 14, 19, 26, 58, 60, 55,
   14, 13, 16, 24, 40, 57, 69, 56,
   14, 17, 22, 29, 51, 87, 80, 62,
   18, 22, 37, 56, 68, 109, 103, 77,
   24, 35, 55, 64, 81, 104, 113, 92,
   49, 64, 78, 87, 103, 121, 120, 101,
   72, 92, 95, 98, 112, 100, 103, 99]

/-- The default COLOR_M: JFIF / BT.601 full range (R400, G2). -/
def defaultColorM : List (List Frac) :=
  [[⟨299, 1000⟩, ⟨587, 1000⟩, ⟨114, 1000⟩],
   [⟨-168736, 1000000⟩, ⟨-331264, 1000000⟩, ⟨5, 10⟩],
   [⟨5, 10⟩, ⟨-418688, 1000000⟩, ⟨-81312, 1000000⟩]]

/-- The default COLOR_OFF (R400). -/
def defaultColorOff : List Frac := [⟨0, 1⟩, ⟨128, 1⟩, ⟨128, 1⟩]

/-- The default RECENTER (R400). -/
def defaultRecenter : List Frac := [⟨128, 1⟩, ⟨128, 1⟩, ⟨128, 1⟩]

/-- The default CUM, 65 cumulative counts (R500). -/
def defaultCum : List Nat :=
  [0, 1, 2, 3, 4, 5, 6, 7, 8, 9, 10, 11, 12,
   13, 14, 15, 16, 17, 18, 19, 21, 24, 31, 46, 77, 142,
   277, 558, 1142, 2360, 4897, 10182, 21192, 44345, 55355, 60640, 63177, 64395, 64979,
   65260, 65395, 65460, 65491, 65506, 65513, 65516, 65518, 65519, 65520, 65521, 65522, 65523,
   65524, 65525, 65526, 65527, 65528, 65529, 65530, 65531, 65532, 65533, 65534, 65535, 65536]

/-- The model arguments at the spec's defaults (R9; log 5), and REG_BASE, which has none (log 6). -/
def params : Params where
  dmemWords := 4096
  qtab := defaultQtab
  colorM := defaultColorM
  colorOff := defaultColorOff
  recenter := defaultRecenter
  cum := defaultCum
  regBase := Config.regBase

/-- An entry of a list of fractions; 0 outside the list. -/
def fracAt (l : List Frac) (k : Nat) : Frac := l.getD k ⟨0, 1⟩

/-- COLOR_M[i][j]. -/
def colorAt (m : List (List Frac)) (i j : Nat) : Frac := fracAt (m.getD i []) j

/-- The 2×2 minor of a 3×3 matrix that leaves out row i and column j, with its sign (rows and columns taken cyclically). -/
def cofactor (m : List (List Frac)) (i j : Nat) : Frac :=
  Frac.sub
    (Frac.mul (colorAt m ((i + 1) % 3) ((j + 1) % 3)) (colorAt m ((i + 2) % 3) ((j + 2) % 3)))
    (Frac.mul (colorAt m ((i + 1) % 3) ((j + 2) % 3)) (colorAt m ((i + 2) % 3) ((j + 1) % 3)))

/-- The determinant of a 3×3 matrix, along its first row. -/
def determinant (m : List (List Frac)) : Frac :=
  Frac.add (Frac.mul (colorAt m 0 0) (cofactor m 0 0))
    (Frac.add (Frac.mul (colorAt m 0 1) (cofactor m 0 1)) (Frac.mul (colorAt m 0 2) (cofactor m 0 2)))

/-- MINV[i][j], the exact inverse of COLOR_M (R400, R404): the transposed cofactors over the determinant (log 18). -/
def minvAt (m : List (List Frac)) (i j : Nat) : Frac :=
  Frac.reduce (Frac.div (cofactor m j i) (determinant m))

/-- MINV as a table, row i giving channel i of (R, G, B) (R404). -/
def minv (m : List (List Frac)) : List (List Frac) :=
  [0, 1, 2].map fun i => [0, 1, 2].map fun j => minvAt m i j

end Sys2Proof.Machine

namespace Sys2Proof

/-- Three fractions with positive denominators. -/
def legalTriple (l : List Frac) : Bool := l.length == 3 && l.all fun a => decide (0 < a.den)

/-- The legality of COLOR_M, COLOR_OFF and RECENTER: rational entries, COLOR_M invertible (R400, R10). -/
def Params.colorLegal (p : Params) : Bool :=
  p.colorM.length == 3 && p.colorM.all legalTriple && legalTriple p.colorOff && legalTriple p.recenter &&
    (Machine.determinant p.colorM).num != 0

/-- The legality of QTAB: 64 integers, each 1..255 (R440, R10). -/
def Params.qtabLegal (p : Params) : Bool :=
  p.qtab.length == 64 && p.qtab.all fun q => decide (1 ≤ q ∧ q ≤ 255)

/-- The legality of CUM: 65 counts, CUM[0] = 0, CUM[64] = 2^16, strictly increasing (R500, R10). -/
def Params.cumLegal (p : Params) : Bool :=
  p.cum.length == 65 && p.cum.getD 0 1 == 0 && p.cum.getD 64 0 == 65536 &&
    (List.range 64).all fun k => decide (p.cum.getD k 0 < p.cum.getD (k + 1) 0)

/-- The legality of DMEM_WORDS: 1024..65536 (R9, R10). -/
def Params.sizeLegal (p : Params) : Bool := decide (1024 ≤ p.dmemWords ∧ p.dmemWords ≤ 65536)

/-- The legal model arguments (R10). -/
def Params.legal (p : Params) : Bool := p.sizeLegal && p.qtabLegal && p.colorLegal && p.cumLegal

end Sys2Proof
end

