-- ==== Sys2Proof/Machine/Ops.lean ====
section
/-! DEFINITION. The named operations over memory and registers (R13): DMEM words as byte lanes (R210), predictor access
(R103), raising a core fault (R610), recovering from it (R630), normal completion (R611), and the reset input (R700, R701). -/

namespace Sys2Proof.Machine

/-- What a step or a command answers. -/
abbrev Result := Host.Outcome State Fault Refusal

/-- The `count` low bytes of a number, lane 0 first (R210: lane j carries bits [8·j + 7 : 8·j]). -/
def bytesOfNat : Nat → Nat → List Byte
  | 0, _ => []
  | count + 1, v => BitVec.ofNat 8 v :: bytesOfNat count (v / 256)

/-- The number whose little-endian bytes are given (R210). -/
def natOfBytes : List Byte → Nat
  | [] => 0
  | b :: bs => b.toNat + 256 * natOfBytes bs

/-- The eight byte lanes of a word (R210). -/
def bytesOfWord (w : Word) : List Byte := bytesOfNat 8 w.toNat

/-- The byte lanes of consecutive words. -/
def bytesOfWords (ws : List Word) : List Byte := ws.flatMap bytesOfWord

/-- `count` words from consecutive byte lanes. -/
def wordsOfBytes : Nat → List Byte → List Word
  | 0, _ => []
  | count + 1, bs => BitVec.ofNat 64 (natOfBytes (bs.take 8)) :: wordsOfBytes count (bs.drop 8)

/-- The cells that hold the given bytes from key `lo` on. -/
def cellsFrom : Nat → List Byte → Memory
  | _, [] => []
  | lo, b :: bs => (lo, b) :: cellsFrom (lo + 1) bs

/-- One byte of memory: none where nothing has been written (R141). -/
def Memory.readByte (m : Memory) (key : Nat) : Option Byte := m.lookup key

/-- The cells whose keys lie in [lo, hi). -/
def Memory.between (m : Memory) (lo hi : Nat) : Memory :=
  m.filter fun c => decide (lo ≤ c.1) && decide (c.1 < hi)

/-- MemRead over `count` consecutive DMEM words from word address `a` (R13, R222): none if one of them is unwritten (R141). -/
def Memory.readWords (m : Memory) (a count : Nat) : Option (List Word) :=
  let cells := m.between (8 * a) (8 * (a + count))
  if cells.map Prod.fst = List.range' (8 * a) (8 * count) then some (wordsOfBytes count (cells.map Prod.snd)) else none

/-- MemRead(a, 1) (R13): none if word a is unwritten. -/
def Memory.readWord (m : Memory) (a : Nat) : Option Word := (m.readWords a 1).bind List.head?

/-- The bytes `bs` stored from key `lo` on; every other cell stays. -/
def Memory.writeBytes (m : Memory) (lo : Nat) (bs : List Byte) : Memory :=
  (m.filter fun c => decide (c.1 < lo)) ++ cellsFrom lo bs ++ m.filter fun c => decide (lo + bs.length ≤ c.1)

/-- MemWrite over consecutive DMEM words from word address `a` (R13, R222). -/
def Memory.writeWords (m : Memory) (a : Nat) (ws : List Word) : Memory := m.writeBytes (8 * a) (bytesOfWords ws)

/-- The canonical form of a memory of `words` DMEM words: keys strictly rising, inside the address space (R200), and every
written word with all its eight lanes (R222). No value is what an unlisted key reads as, so no entry repeats it. -/
abbrev Memory.wfIn (m : Memory) (words : Nat) : Prop :=
  m.Pairwise (fun c d => c.1 < d.1) ∧
    ∀ c ∈ m, c.1 < 8 * words ∧ ∀ lane ∈ List.range 8, 8 * (c.1 / 8) + lane ∈ m.map Prod.fst

/-- The canonical form at the spec's default DMEM_WORDS (R9). -/
abbrev Memory.wf (m : Memory) : Prop := m.wfIn params.dmemWords

/-- The first unwritten word among `count` words from `a`; `a` itself if there is none. -/
def Memory.firstUnwritten (m : Memory) (a count : Nat) : Nat :=
  match (List.range count).find? fun k => (m.readWords (a + k) 1).isNone with
  | some k => a + k
  | none => a

/-- PRED[c] (R13, R103). -/
def State.pred (s : State) (c : Channel) : Word :=
  match c with
  | 0 => s.pred0
  | 1 => s.pred1
  | 2 => s.pred2

/-- PRED[c] <- w (R13, R103). -/
def State.setPred (s : State) (c : Channel) (w : Word) : State :=
  match c with
  | 0 => { s with pred0 := w }
  | 1 => { s with pred1 := w }
  | 2 => { s with pred2 := w }

/-- The fault codes (R601). -/
def CoreFault.code : CoreFault → BitVec 8
  | .illegalOpcode => 1
  | .reservedField => 2
  | .badChannel => 3
  | .addrRange => 4
  | .streamLength => 5
  | .missingTerminator => 6
  | .negativeRun => 7
  | .seqOverflow => 8
  | .decOverrun => 9

/-- TAKING A CORE FAULT, the one shared operation (R610): the record is written, BUSY falls, nothing else changes (DONE was
cleared at issue, R650). -/
def State.raise (s : State) (c : CoreFault) (info : Word) : State :=
  { s with fault := true, fcode := c.code, fcmd := s.inflight, finfo := info, busy := false }

/-- RECOVERING from a core fault: FAULT, FCODE, FCMD and FINFO are cleared together (R123, R630). -/
def State.clearFault (s : State) : State :=
  { s with fault := false, fcode := 0, fcmd := 0, finfo := 0 }

/-- The end of the commit phase of a command that passed its checks (R611). -/
def State.complete (s : State) : State := { s with done := true, busy := false }

/-- Result words written from DST on, as one commit (R14, R611). -/
def State.store (s : State) (dst : Nat) (ws : List Word) : State := { s with mem := s.mem.writeWords dst ws }

/-- What is still to arrive at the host port. -/
def State.setArrivals (s : State) (l : List Arrival) : State := { s with bus := { s.bus with arrivals := l } }

/-- The accesses held at the host port (R230). -/
def State.setHeld (s : State) (l : List HostAccess) : State := { s with bus := { s.bus with held := l } }

/-- Hand a word back to the host (R713; log 14). -/
def State.reply (s : State) (w : Word) : State :=
  { s with bus := { s.bus with replies := s.bus.replies ++ [w] } }

/-- Hand an unconstrained word back to the host (I2, I5; log 3). -/
def State.replyFree (s : State) : State :=
  { s with bus := { s.bus with
      replies := s.bus.replies ++ [Config.freeWord s.bus.draws], draws := s.bus.draws + 1 } }

/-- An access abandoned by reset: a stalled write has no effect, a stalled read returns an unconstrained word (R701, I5). -/
def State.abandon (s : State) : HostAccess → State
  | .read _ _ => s.replyFree
  | .write _ _ _ => s

/-- The reset input is asserted: every piece of the core's state goes to its reset value, the held accesses are abandoned;
what has not arrived yet still arrives (R700, R701; log 13). -/
def State.assertReset (s : State) : State :=
  s.bus.held.foldl State.abandon
    { State.reset with bus := { s.bus with held := [], inReset := true } }

/-- The reset input is released (R700). -/
def State.releaseReset (s : State) : State := { s with bus := { s.bus with inReset := false } }

end Sys2Proof.Machine
end

