-- ==== Sys2Proof/Syntax.lean ====
section
/-! DEFINITION. The command set JPC1: one constructor per row of spec/opcode_table.json. Every command has the one format
CMDW (R300), and all its fields other than OP are part of the syntax (R303: a decoder that takes the word must keep them). -/

namespace Sys2Proof

/-- The fields of a command word beside OP (R300). Reserved and unused fields are kept, so that the check of R303 can refuse
them by name. -/
structure Fields where
  /-- bits [9:8] -/
  ch : BitVec 2
  /-- bits [15:10], reserved -/
  rsv0 : BitVec 6
  /-- bits [31:16], DMEM word address of the source operand -/
  src : BitVec 16
  /-- bits [47:32], DMEM word address of the destination operand -/
  dst : BitVec 16
  /-- bits [63:48], reserved -/
  rsv1 : BitVec 16
  deriving DecidableEq, Repr

/-- The 14 commands (R302). -/
inductive Instr where
  /-- 0x00, R540 -/
  | nop (f : Fields)
  /-- 0x01, R401: color_transform_rgb_to_decorr -/
  | ccfwd (f : Fields)
  /-- 0x02, R403: color_transform_decorr_to_rgb -/
  | ccinv (f : Fields)
  /-- 0x03, R421: dct_2d_fwd -/
  | dctf (f : Fields)
  /-- 0x04, R423: dct_2d_inv -/
  | dcti (f : Fields)
  /-- 0x05, R441: quantizer_div -/
  | qdiv (f : Fields)
  /-- 0x06, R443: quantizer_mul -/
  | qmul (f : Fields)
  /-- 0x07, R461: zigzag_scanner (scan) -/
  | zzscan (f : Fields)
  /-- 0x08, R462: zigzag_scanner (unscan) -/
  | zzunscan (f : Fields)
  /-- 0x09, R481: run_length_symbol_packer (encode) with dpcm_predictor_state -/
  | rlpack (f : Fields)
  /-- 0x0A, R485: run_length_symbol_packer (decode) with dpcm_predictor_state -/
  | rlunpack (f : Fields)
  /-- 0x0B, R503: arithmetic_entropy_encoder -/
  | aenc (f : Fields)
  /-- 0x0C, R505: arithmetic_entropy_decoder -/
  | adec (f : Fields)
  /-- 0x0D, R541: dpcm_predictor_state (reset) -/
  | prdrst (f : Fields)
  deriving DecidableEq, Repr

end Sys2Proof
end

