-- ==== Sys2Proof/Machine/Operands.lean ====
section
/-! DEFINITION. The operand forms and the phases of a command (R14): the command-level checks in their order (R620), the read
phase over the read set (R311), and the shared shapes of a meaning. -/

namespace Sys2Proof.Machine

/-- What R302 gives an opcode: whether it uses CH, SRC_LEN and DST_LEN. -/
structure Footprint where
  usesCh : Bool
  srcLen : Nat
  dstLen : Nat
  deriving DecidableEq, Repr

/-- The command-level checks 2 to 5 of R620, in that order, with the FINFO value of R601. They depend only on the command
word and DMEM_WORDS (R310). -/
def commandCheck (words : Nat) (fp : Footprint) (f : Fields) : Option (CoreFault × Word) :=
  if f.rsv0 ≠ 0 ∨ f.rsv1 ≠ 0 ∨ (fp.usesCh = false ∧ f.ch ≠ 0) ∨ (fp.srcLen = 0 ∧ f.src ≠ 0) ∨ (fp.dstLen = 0 ∧ f.dst ≠ 0) then
    some (.reservedField, 0)
  else if fp.usesCh = true ∧ f.ch = 3 then some (.badChannel, 0)
  else if 0 < fp.srcLen ∧ words < f.src.toNat + fp.srcLen then some (.addrRange, 0)
  else if 0 < fp.dstLen ∧ words < f.dst.toNat + fp.dstLen then some (.addrRange, 1)
  else none

/-- The check phase: the first fault that applies ends the command (R610), otherwise the command goes on. -/
def checked (p : Params) (fp : Footprint) (f : Fields) (s : State) (body : Result) : Result :=
  match commandCheck p.dmemWords fp f with
  | some (c, info) => .next (s.raise c info)
  | none => body

/-- The read phase over `count` words from word address `a`: the model stops where one of them is unwritten (R141, R311;
log 2). -/
def withWords (s : State) (a count : Nat) (body : List Word → Result) : Result :=
  match s.mem.readWords a count with
  | some ws => body ws
  | none => .fault (.unwrittenDmem (s.mem.firstUnwritten a count))

/-- The symbols of a stream whose count word is n: out of bounds, STREAM_LENGTH(n) and nothing more is read; otherwise exactly
its n symbols, from word address `a` (R311, R485, R503). -/
def withSymbols (s : State) (a least : Nat) (n : Word) (body : List Word → Result) : Result :=
  if n.toNat < least ∨ maxSymbols < n.toNat then .next (s.raise .streamLength n) else withWords s a n.toNat body

/-- The read phase of a stream operand at word address `a`: the count word, then the symbols (R204, R311). -/
def withStream (s : State) (a least : Nat) (body : Word → List Word → Result) : Result :=
  withWords s a 1 fun head => withSymbols s (a + 1) least (head.headD 0) (body (head.headD 0))

/-- The channel that CH names (R104); none for CH = 3 (R305). -/
def channelOf (ch : BitVec 2) : Option Channel :=
  match ch.toNat with
  | 0 => some 0
  | 1 => some 1
  | 2 => some 2
  | _ => none

/-- A command that uses CH runs with its channel; CH = 3 raises BAD_CHANNEL (R305). -/
def withChannel (s : State) (ch : BitVec 2) (body : Channel → Result) : Result :=
  match channelOf ch with
  | some c => body c
  | none => .next (s.raise .badChannel 0)

/-- The shape of the plane, tile and sequence commands: check, read the whole source footprint, write the whole result
(R14, R310, R311). -/
def wholeCommand (p : Params) (len : Nat) (f : Fields) (s : State) (datapath : List Word → List Word) : Result :=
  checked p ⟨false, len, len⟩ f s <|
    withWords s f.src.toNat len fun ws => .next (s.store f.dst.toNat (datapath ws)).complete

end Sys2Proof.Machine
end

