-- ==== Sys2Proof/Machine/Packer.lean ====
section
/-! DEFINITION. The run-length symbol packer with the DPCM predictor: RLPACK (R481) and RLUNPACK (R485). -/

namespace Sys2Proof.Machine

/-- The (run, value) pairs of the AC values from left to right, then the terminator (0, 0); `run` counts the zeros since the
last pair (R481). -/
def packPairs : Nat → List Int → List Int
  | _, [] => [0, 0]
  | run, v :: rest => if v = 0 then packPairs (run + 1) rest else (run : Int) :: v :: packPairs 0 rest

/-- The symbol stream of a sequence with predictor p: the DC delta with its 64-bit wrap, the pairs, the terminator (R481). -/
def packStream (p : Int) (seq : List Int) : List Int := wrap64 (seq.headD 0 - p) :: packPairs 0 seq.tail

/-- A stream as it lies in DMEM: the count word, then the symbols (R204). -/
def streamWords (symbols : List Int) : List Word := u64 symbols.length :: symbols.map u64

/-- The pair loop of RLUNPACK: `i` is the stream index of the next run symbol, `rest` the symbols from there, `seq` the
sequence so far, `n` the count word (R485, with the order of faults of R620). -/
def unpackPairs (n : Word) : Nat → List Int → List Int → Except (CoreFault × Word) (List Int)
  | i, run :: val :: rest, seq =>
    if run = 0 ∧ val = 0 then .ok seq
    else if run < 0 then .error (.negativeRun, u64 i)
    else if 64 < (seq.length : Int) + run + 1 then .error (.seqOverflow, u64 i)
    else unpackPairs n (i + 2) rest (seq ++ List.replicate run.toNat 0 ++ [val])
  | _, _, _ => .error (.missingTerminator, n)

/-- The reconstructed sequence of a stream with predictor p, padded with zeros to 64 (R485). -/
def unpackStream (n : Word) (p : Int) (symbols : List Int) : Except (CoreFault × Word) (List Int) :=
  match unpackPairs n 1 symbols.tail [wrap64 (symbols.headD 0 + p)] with
  | .ok seq => .ok (seq ++ List.replicate (64 - seq.length) 0)
  | .error e => .error e

/-- RLPACK for given model arguments (R481): PRED[CH] takes the pre-delta value. -/
def rlpackAt (p : Params) (f : Fields) (s : State) : Result :=
  checked p ⟨true, 64, 130⟩ f s <| withChannel s f.ch fun c =>
    withWords s f.src.toNat 64 fun ws =>
      let symbols := packStream (s64 (s.pred c)) (ws.map s64)
      .next ((s.store f.dst.toNat (streamWords symbols)).setPred c (ws.headD 0)).complete

/-- RLUNPACK for given model arguments (R485): PRED[CH] takes the reconstructed DC. -/
def rlunpackAt (p : Params) (f : Fields) (s : State) : Result :=
  checked p ⟨true, 130, 64⟩ f s <| withChannel s f.ch fun c =>
    withStream s f.src.toNat 1 fun n ws =>
      match unpackStream n (s64 (s.pred c)) (ws.map s64) with
      | .error (code, info) => .next (s.raise code info)
      | .ok seq => .next ((s.store f.dst.toNat (seq.map u64)).setPred c (u64 (seq.headD 0))).complete

/-- RLPACK (R481). -/
def execRlpack (f : Fields) (s : State) : Result := rlpackAt params f s

/-- RLUNPACK (R485). -/
def execRlunpack (f : Fields) (s : State) : Result := rlunpackAt params f s

end Sys2Proof.Machine
end

