-- ==== Sys2Proof/Machine/Coder.lean ====
section
/-! DEFINITION. The arithmetic entropy coder: AENC (R503, R507) and ADEC (R505, R508), in the spec's own exact integer
realisation (log 17). -/

namespace Sys2Proof.Machine

/-- CUM[k] (R500). -/
def cumAt (cum : List Nat) (k : Nat) : Nat := cum.getD k 0

/-- The index s + 32 of a symbol after clipping to SYM_MIN .. SYM_MAX (R500, R503). -/
def symbolIndex (s : Int) : Nat := (clamp s symMin symMax - symMin).toNat

/-- One narrowing of the interval: low = L / 2^(16·j), high − low = W / 2^(16·j); both new bounds come from the old ones
(R503, R507). -/
def narrow (cum : List Nat) (lw : Nat × Nat) (s : Int) : Nat × Nat :=
  (lw.1 * 2 ^ pBits + lw.2 * cumAt cum (symbolIndex s),
    lw.2 * (cumAt cum (symbolIndex s + 1) - cumAt cum (symbolIndex s)))

/-- The interval (L, W) after all symbols, from [0, 1) (R502, R507). -/
def interval (cum : List Nat) (symbols : List Int) : Nat × Nat := symbols.foldl (narrow cum) (0, 1)

/-- The codeword CW = midpoint · 2^CW_FRAC (R503, R507). -/
def encodeSymbols (cum : List Nat) (symbols : List Int) : Nat :=
  (2 * (interval cum symbols).1 + (interval cum symbols).2) * 2 ^ (cwFrac - 16 * symbols.length - 1)

/-- The 33 words of a codeword, least significant first (R205, R503). -/
def codewordWords (cw : Nat) : List Word := (List.range cwWords).map fun k => BitVec.ofNat 64 (cw / 2 ^ (64 * k))

/-- The codeword of words least significant first (R205). -/
def codewordOf : List Word → Nat
  | [] => 0
  | w :: ws => w.toNat + 2 ^ 64 * codewordOf ws

/-- The index s + 32 of the symbol whose interval holds t = floor(2^16 · v): how many upper bounds CUM[s + 33] are ≤ t
(R501, R508). -/
def symbolAt (cum : List Nat) (t : Nat) : Nat := (cum.tail.takeWhile fun c => decide (c ≤ t)).length

/-- The decoding loop with v = N / D; `acc` holds the symbols so far, newest first; at most `fuel` more symbols. It ends at the
first k ≥ 3, k odd, whose last two symbols are 0 (R505, R506, R508). -/
def decodeLoop (cum : List Nat) : Nat → Nat → Nat → List Int → Option (List Int)
  | 0, _, _, _ => none
  | fuel + 1, N, D, acc =>
    let c := symbolAt cum (N * 2 ^ pBits / D)
    let s := (c : Int) + symMin
    let k := acc.length + 1
    if 3 ≤ k ∧ k % 2 = 1 ∧ s = 0 ∧ acc.head? = some 0 then some (acc.reverse ++ [s])
    else decodeLoop cum fuel (N * 2 ^ pBits - cumAt cum c * D) (D * (cumAt cum (c + 1) - cumAt cum c)) (s :: acc)

/-- The symbols of a codeword; none if no terminator comes within MAX_SYMBOLS symbols (R505, R508). -/
def decodeSymbols (cum : List Nat) (cw : Nat) : Option (List Int) := decodeLoop cum maxSymbols cw (2 ^ cwFrac) []

/-- AENC for given model arguments (R503): n = 0 is legal, n > 129 raises STREAM_LENGTH. -/
def aencAt (p : Params) (f : Fields) (s : State) : Result :=
  checked p ⟨false, 130, 33⟩ f s <|
    withStream s f.src.toNat 0 fun _ ws =>
      .next (s.store f.dst.toNat (codewordWords (encodeSymbols p.cum (ws.map s64)))).complete

/-- ADEC for given model arguments (R505): without a terminator it raises DEC_OVERRUN(129). -/
def adecAt (p : Params) (f : Fields) (s : State) : Result :=
  checked p ⟨false, 33, 130⟩ f s <|
    withWords s f.src.toNat cwWords fun ws =>
      match decodeSymbols p.cum (codewordOf ws) with
      | none => .next (s.raise .decOverrun (BitVec.ofNat 64 maxSymbols))
      | some symbols => .next (s.store f.dst.toNat (streamWords symbols)).complete

/-- AENC (R503). -/
def execAenc (f : Fields) (s : State) : Result := aencAt params f s

/-- ADEC (R505). -/
def execAdec (f : Fields) (s : State) : Result := adecAt params f s

end Sys2Proof.Machine
end

