-- ==== Sys2Proof/Machine/Color.lean ====
section
/-! DEFINITION. The colour transform: CCFWD (R401) and CCINV (R403). -/

namespace Sys2Proof.Machine

/-- m[0]·a + m[1]·b + m[2]·c for row ch of a 3×3 matrix, exact in ℚ. -/
def rowTimes (m : List (List Frac)) (ch : Nat) (a b c : Frac) : Frac :=
  Frac.add (Frac.mul (colorAt m ch 0) a) (Frac.add (Frac.mul (colorAt m ch 1) b) (Frac.mul (colorAt m ch 2) c))

/-- Word i of an operand. -/
def wordAt (ws : List Word) (i : Nat) : Word := ws.getD i 0

/-- One output of CCFWD, channel ch of sample k (R401). -/
def ccfwdWord (p : Params) (ws : List Word) (ch k : Nat) : Word :=
  let sample := fun l => Frac.ofInt (clamp (s64 (wordAt ws (64 * l + k))) 0 sampleMax)
  let y := Frac.sub (Frac.add (rowTimes p.colorM ch (sample 0) (sample 1) (sample 2)) (fracAt p.colorOff ch))
    (fracAt p.recenter ch)
  u64 y.rne

/-- One output of CCINV, channel ch of sample k; `inv` is MINV (R403). -/
def ccinvWord (p : Params) (inv : List (List Frac)) (ws : List Word) (ch k : Nat) : Word :=
  let t := fun l => Frac.sub (Frac.add ⟨s64 (wordAt ws (64 * l + k)), 2 ^ fracBits⟩ (fracAt p.recenter l)) (fracAt p.colorOff l)
  u64 (clamp (rowTimes inv ch (t 0) (t 1) (t 2)).rne 0 sampleMax)

/-- The 192 results of CCFWD: plane ch at offsets 64·ch .. 64·ch + 63 (R203, R401). -/
def ccfwdWords (p : Params) (ws : List Word) : List Word :=
  (List.range 192).map fun j => ccfwdWord p ws (j / 64) (j % 64)

/-- The 192 results of CCINV (R203, R403). -/
def ccinvWords (p : Params) (ws : List Word) : List Word :=
  let inv := minv p.colorM
  (List.range 192).map fun j => ccinvWord p inv ws (j / 64) (j % 64)

/-- CCFWD for given model arguments (R401). -/
def ccfwdAt (p : Params) (f : Fields) (s : State) : Result := wholeCommand p 192 f s (ccfwdWords p)

/-- CCINV for given model arguments (R403). -/
def ccinvAt (p : Params) (f : Fields) (s : State) : Result := wholeCommand p 192 f s (ccinvWords p)

/-- CCFWD (R401). -/
def execCcfwd (f : Fields) (s : State) : Result := ccfwdAt params f s

/-- CCINV (R403). -/
def execCcinv (f : Fields) (s : State) : Result := ccinvAt params f s

end Sys2Proof.Machine
end

