-- ==== Sys2Proof/Machine/Control.lean ====
section
/-! DEFINITION. The control commands: NOP (R540) and PRDRST (R541). -/

namespace Sys2Proof.Machine

/-- NOP for given model arguments (R540): the check phase, then completion. -/
def nopAt (p : Params) (f : Fields) (s : State) : Result := checked p ⟨false, 0, 0⟩ f s (.next s.complete)

/-- PRDRST for given model arguments (R541): PRED[0], PRED[1], PRED[2] <- 0. -/
def prdrstAt (p : Params) (f : Fields) (s : State) : Result :=
  checked p ⟨false, 0, 0⟩ f s (.next (((s.setPred 0 0).setPred 1 0).setPred 2 0).complete)

/-- NOP (R540). -/
def execNop (f : Fields) (s : State) : Result := nopAt params f s

/-- PRDRST (R541). -/
def execPrdrst (f : Fields) (s : State) : Result := prdrstAt params f s

end Sys2Proof.Machine
end

