-- ==== Sys2Proof/Machine/Quantizer.lean ====
section
/-! DEFINITION. The quantiser: QDIV (R441) and QMUL (R443). -/

namespace Sys2Proof.Machine

/-- One level: the coefficient over its step, rounded, then clamped to Q_MIN .. Q_MAX (R441, R442). -/
def qdivWord (step : Nat) (w : Word) : Word := u64 (clamp (rneDiv (s64 w) (step * 2 ^ fracBits)) qMin qMax)

/-- One coefficient: the level times its step, saturated, as Q31.32 (R443). -/
def qmulWord (step : Nat) (w : Word) : Word :=
  u64 (clamp (s64 w * step) (-coefLimit) (coefLimit - 1) * 2 ^ fracBits)

/-- The 64 results of QDIV (R441). -/
def qdivWords (p : Params) (ws : List Word) : List Word := List.zipWith qdivWord p.qtab ws

/-- The 64 results of QMUL (R443). -/
def qmulWords (p : Params) (ws : List Word) : List Word := List.zipWith qmulWord p.qtab ws

/-- QDIV for given model arguments (R441). -/
def qdivAt (p : Params) (f : Fields) (s : State) : Result := wholeCommand p 64 f s (qdivWords p)

/-- QMUL for given model arguments (R443). -/
def qmulAt (p : Params) (f : Fields) (s : State) : Result := wholeCommand p 64 f s (qmulWords p)

/-- QDIV (R441). -/
def execQdiv (f : Fields) (s : State) : Result := qdivAt params f s

/-- QMUL (R443). -/
def execQmul (f : Fields) (s : State) : Result := qmulAt params f s

end Sys2Proof.Machine
end

