-- ==== Sys2Proof/Machine/Transform.lean ====
section
/-! DEFINITION. The block transform: DCTF (R421) and DCTI (R423). -/

namespace Sys2Proof.Machine

/-- All products a_x · b_y, x outermost: the coefficients of a plane in the order 8·x + y (R15). -/
def outer (as bs : List Int) : List Int := as.flatMap fun a => bs.map fun b => a * b

/-- One output of a 2-D transform: Σ_x Σ_y a[x]·b[y]·plane[8·x + y] over 2^shift, rounded once (R421, R423). -/
def transformPoint (shift : Nat) (plane as bs : List Int) : Int := rneDiv (dot (outer as bs) plane) (2 ^ shift)

/-- A 2-D transform: output 8·i + j from basis vectors i and j (R421, R423). -/
def transform2d (basis : List (List Int)) (shift : Nat) (plane : List Int) : List Int :=
  basis.flatMap fun as => basis.map fun bs => transformPoint shift plane as bs

/-- Column x of KD: KD[0][x] .. KD[7][x]. -/
def kdColumn (x : Nat) : List Int := kd.map fun row => row.getD x 0

/-- The columns of KD, the basis of the inverse (R423). -/
def kdColumns : List (List Int) := (List.range 8).map kdColumn

/-- The inputs of DCTF, saturated to −2^15 .. 2^15 − 1 (R421, decision D13). -/
def dctfInput (w : Word) : Int := clamp (s64 w) (-dctInLimit) (dctInLimit - 1)

/-- The inputs of DCTI, saturated to −2^52 .. 2^52 − 1 (R423, decision D13). -/
def dctiInput (w : Word) : Int := clamp (s64 w) (-coefLimit * 2 ^ fracBits) (coefLimit * 2 ^ fracBits - 1)

/-- The 64 results of DCTF; the shift is 2·DCT_COEF_BITS − FRAC_BITS = 48 (R421). -/
def dctfWords (ws : List Word) : List Word :=
  (transform2d kd (2 * dctCoefBits - fracBits) (ws.map dctfInput)).map u64

/-- The 64 results of DCTI; the shift is 2·DCT_COEF_BITS = 80 (R423). -/
def dctiWords (ws : List Word) : List Word :=
  (transform2d kdColumns (2 * dctCoefBits) (ws.map dctiInput)).map u64

/-- DCTF for given model arguments (R421). -/
def dctfAt (p : Params) (f : Fields) (s : State) : Result := wholeCommand p 64 f s dctfWords

/-- DCTI for given model arguments (R423). -/
def dctiAt (p : Params) (f : Fields) (s : State) : Result := wholeCommand p 64 f s dctiWords

/-- DCTF (R421). -/
def execDctf (f : Fields) (s : State) : Result := dctfAt params f s

/-- DCTI (R423). -/
def execDcti (f : Fields) (s : State) : Result := dctiAt params f s

end Sys2Proof.Machine
end

