-- ==== Sys2Proof/Machine/Zigzag.lean ====
section
/-! DEFINITION. The zigzag scanner: ZZSCAN (R461) and ZZUNSCAN (R462). Words move unchanged. -/

namespace Sys2Proof.Machine

/-- out[i] = in[ZZ[i]] (R461). -/
def zzscanWords (ws : List Word) : List Word := zz.map fun k => ws.getD k 0

/-- out[ZZ[i]] = in[i]: output k is input i for the one i with ZZ[i] = k (R460, R462). -/
def zzunscanWords (ws : List Word) : List Word := (List.range 64).map fun k => ws.getD (zz.idxOf k) 0

/-- ZZSCAN for given model arguments (R461). -/
def zzscanAt (p : Params) (f : Fields) (s : State) : Result := wholeCommand p 64 f s zzscanWords

/-- ZZUNSCAN for given model arguments (R462). -/
def zzunscanAt (p : Params) (f : Fields) (s : State) : Result := wholeCommand p 64 f s zzunscanWords

/-- ZZSCAN (R461). -/
def execZzscan (f : Fields) (s : State) : Result := zzscanAt params f s

/-- ZZUNSCAN (R462). -/
def execZzunscan (f : Fields) (s : State) : Result := zzunscanAt params f s

end Sys2Proof.Machine
end

