-- ==== Sys2Proof/Machine/Dispatch.lean ====
section
/-! DEFINITION. One arm per command of the opcode table (R302): the command in flight runs to its completion (R14, R610, R611). -/

namespace Sys2Proof.Machine

/-- The command i in flight in s, from its check phase to its completion. -/
def exec (i : Instr) (s : State) : Host.Outcome State Fault Refusal :=
  match i with
  | .nop f => Sys2Proof.Machine.execNop f s
  | .ccfwd f => Sys2Proof.Machine.execCcfwd f s
  | .ccinv f => Sys2Proof.Machine.execCcinv f s
  | .dctf f => Sys2Proof.Machine.execDctf f s
  | .dcti f => Sys2Proof.Machine.execDcti f s
  | .qdiv f => Sys2Proof.Machine.execQdiv f s
  | .qmul f => Sys2Proof.Machine.execQmul f s
  | .zzscan f => Sys2Proof.Machine.execZzscan f s
  | .zzunscan f => Sys2Proof.Machine.execZzunscan f s
  | .rlpack f => Sys2Proof.Machine.execRlpack f s
  | .rlunpack f => Sys2Proof.Machine.execRlunpack f s
  | .aenc f => Sys2Proof.Machine.execAenc f s
  | .adec f => Sys2Proof.Machine.execAdec f s
  | .prdrst f => Sys2Proof.Machine.execPrdrst f s

end Sys2Proof.Machine
end

