-- ==== Sys2Proof/Machine/Configured.lean ====
section
/-! DEFINITION. The command set with its model arguments left open (R9, R10): `execAt p` is the core configured by p, and exec
is the core at the spec's defaults (log 5). -/

namespace Sys2Proof.Machine

/-- The command i in flight in s, on a core configured by p. -/
def execAt (p : Params) (i : Instr) (s : State) : Result :=
  match i with
  | .nop f => nopAt p f s
  | .ccfwd f => ccfwdAt p f s
  | .ccinv f => ccinvAt p f s
  | .dctf f => dctfAt p f s
  | .dcti f => dctiAt p f s
  | .qdiv f => qdivAt p f s
  | .qmul f => qmulAt p f s
  | .zzscan f => zzscanAt p f s
  | .zzunscan f => zzunscanAt p f s
  | .rlpack f => rlpackAt p f s
  | .rlunpack f => rlunpackAt p f s
  | .aenc f => aencAt p f s
  | .adec f => adecAt p f s
  | .prdrst f => prdrstAt p f s

end Sys2Proof.Machine
end

