-- ==== Sys2Proof/WellFormed.lean ====
section
/-! DEFINITION. Which commands are legal (R303, R305, R310, R313), written command by command, apart from the check in
fault-priority order that the machine itself runs (Machine/Operands.lean, R620). -/

namespace Sys2Proof

/-- RSV0 and RSV1 are 0 (R303). -/
def Fields.reservedZero (f : Fields) : Bool := f.rsv0 == 0 && f.rsv1 == 0

/-- The opcode does not use CH, so CH is 0 (R303). -/
def Fields.channelUnused (f : Fields) : Bool := f.ch == 0

/-- The opcode uses CH: 0, 1 or 2 (R305). -/
def Fields.channelLegal (f : Fields) : Bool := f.ch != 3

/-- An opcode without footprints: SRC and DST are 0 (R303). -/
def Fields.addressesUnused (f : Fields) : Bool := f.src == 0 && f.dst == 0

/-- The source footprint lies inside a DMEM of `words` words (R310). -/
def Fields.sourceInside (f : Fields) (words srcLen : Nat) : Bool := decide (f.src.toNat + srcLen ≤ words)

/-- The destination footprint lies inside a DMEM of `words` words (R310). -/
def Fields.destInside (f : Fields) (words dstLen : Nat) : Bool := decide (f.dst.toNat + dstLen ≤ words)

/-- A legal command with operands and no channel (R303, R310). -/
def Fields.plainLegal (f : Fields) (words srcLen dstLen : Nat) : Bool :=
  f.reservedZero && f.channelUnused && f.sourceInside words srcLen && f.destInside words dstLen

/-- A legal command with operands and a channel (R303, R305, R310). -/
def Fields.channelledLegal (f : Fields) (words srcLen dstLen : Nat) : Bool :=
  f.reservedZero && f.channelLegal && f.sourceInside words srcLen && f.destInside words dstLen

/-- A legal command without operands (R303). -/
def Fields.bareLegal (f : Fields) : Bool := f.reservedZero && f.channelUnused && f.addressesUnused

/-- The legal commands of a core with `words` words of DMEM (R302, R303, R305, R310, R313). -/
def Instr.wellFormed (words : Nat) : Instr → Bool
  | .nop f => f.bareLegal
  | .ccfwd f => f.plainLegal words 192 192
  | .ccinv f => f.plainLegal words 192 192
  | .dctf f => f.plainLegal words 64 64
  | .dcti f => f.plainLegal words 64 64
  | .qdiv f => f.plainLegal words 64 64
  | .qmul f => f.plainLegal words 64 64
  | .zzscan f => f.plainLegal words 64 64
  | .zzunscan f => f.plainLegal words 64 64
  | .rlpack f => f.channelledLegal words 64 130
  | .rlunpack f => f.channelledLegal words 130 64
  | .aenc f => f.plainLegal words 130 33
  | .adec f => f.plainLegal words 33 130
  | .prdrst f => f.bareLegal

end Sys2Proof
end

