-- ==== Sys2Proof/Decode.lean ====
section
/-! DEFINITION. Command words to commands and back (R300 to R304, R313). Decoding is total: every 64-bit word gives a command
with all its fields, or is rejected by name as an illegal opcode; the fields are checked by the command itself (R620). -/

namespace Sys2Proof

/-- Why a word is no command. -/
inductive DecodeError where
  /-- OP in 0x0E .. 0xFF (R304); the machine raises ILLEGAL_OPCODE for it. -/
  | illegalOpcode (op : BitVec 8)
  deriving DecidableEq, Repr

/-- The OP field, bits [7:0] (R300). -/
def opcodeField (w : Word) : BitVec 8 := w.extractLsb' 0 8

/-- The other fields (R300, R301). -/
def fieldsOf (w : Word) : Fields where
  ch := w.extractLsb' 8 2
  rsv0 := w.extractLsb' 10 6
  src := w.extractLsb' 16 16
  dst := w.extractLsb' 32 16
  rsv1 := w.extractLsb' 48 16

/-- The opcode map (R302, R304). -/
def decode (w : Word) : Except DecodeError Instr :=
  match (opcodeField w).toNat with
  | 0x00 => .ok (.nop (fieldsOf w))
  | 0x01 => .ok (.ccfwd (fieldsOf w))
  | 0x02 => .ok (.ccinv (fieldsOf w))
  | 0x03 => .ok (.dctf (fieldsOf w))
  | 0x04 => .ok (.dcti (fieldsOf w))
  | 0x05 => .ok (.qdiv (fieldsOf w))
  | 0x06 => .ok (.qmul (fieldsOf w))
  | 0x07 => .ok (.zzscan (fieldsOf w))
  | 0x08 => .ok (.zzunscan (fieldsOf w))
  | 0x09 => .ok (.rlpack (fieldsOf w))
  | 0x0A => .ok (.rlunpack (fieldsOf w))
  | 0x0B => .ok (.aenc (fieldsOf w))
  | 0x0C => .ok (.adec (fieldsOf w))
  | 0x0D => .ok (.prdrst (fieldsOf w))
  | _ => .error (.illegalOpcode (opcodeField w))

/-- The opcode of a command (R302). -/
def Instr.opcode : Instr → BitVec 8
  | .nop _ => 0x00
  | .ccfwd _ => 0x01
  | .ccinv _ => 0x02
  | .dctf _ => 0x03
  | .dcti _ => 0x04
  | .qdiv _ => 0x05
  | .qmul _ => 0x06
  | .zzscan _ => 0x07
  | .zzunscan _ => 0x08
  | .rlpack _ => 0x09
  | .rlunpack _ => 0x0A
  | .aenc _ => 0x0B
  | .adec _ => 0x0C
  | .prdrst _ => 0x0D

/-- The fields of a command. -/
def Instr.fields : Instr → Fields
  | .nop f => f
  | .ccfwd f => f
  | .ccinv f => f
  | .dctf f => f
  | .dcti f => f
  | .qdiv f => f
  | .qmul f => f
  | .zzscan f => f
  | .zzunscan f => f
  | .rlpack f => f
  | .rlunpack f => f
  | .aenc f => f
  | .adec f => f
  | .prdrst f => f

/-- The command word, fields from bit 63 down to bit 0 (R300). -/
def encodeFields (op : BitVec 8) (f : Fields) : Word :=
  f.rsv1 ++ f.dst ++ f.src ++ f.rsv0 ++ f.ch ++ op

/-- The command word of a command (R300, R302). -/
def encode (i : Instr) : Word := encodeFields i.opcode i.fields

/-- The command the decoder reads from a word given as spec/opcode_table.json numbers its bits. A command is one 64-bit word,
so bit 0 of the table is bit 0 of the word and every bit above `nbits` is 0. -/
def decodeTableWord (nbits w : Nat) : Option Instr :=
  match decode (BitVec.ofNat 64 (w % 2 ^ nbits)) with
  | .ok i => some i
  | .error _ => none

end Sys2Proof
end

