-- ==== Sys2Proof/Machine/Flags.lean ====
section
/-! DEFINITION. The core's only flags: the STATUS and CTRL registers as words (R122, R124), the W1C write (R123), and the
interrupt output (R640). -/

namespace Sys2Proof.Machine

/-- One flag as a 1-bit field. -/
def flagBit (b : Bool) : BitVec 1 := BitVec.ofBool b

/-- STATUS as the host reads it: FCODE [15:8], LOST [3], FAULT [2], DONE [1], BUSY [0]; reserved bits read 0 (R122). -/
def State.statusWord (s : State) : Word :=
  (0 : BitVec 48) ++ s.fcode ++ (0 : BitVec 4) ++ flagBit s.lost ++ flagBit s.fault ++ flagBit s.done ++ flagBit s.busy

/-- CTRL as the host reads it: IE_FAULT [1], IE_DONE [0]; reserved bits read 0 (R124). -/
def State.ctrlWord (s : State) : Word := (0 : BitVec 62) ++ flagBit s.ieFault ++ flagBit s.ieDone

/-- A host write to STATUS: bits 1, 2 and 3 clear DONE, the fault record and LOST; the other bits have no effect (R123). -/
def State.writeStatus (s : State) (w : Word) : State :=
  let s1 := if w.getLsbD 1 then { s with done := false } else s
  let s2 := if w.getLsbD 2 then s1.clearFault else s1
  if w.getLsbD 3 then { s2 with lost := false } else s2

/-- A host write to CTRL: bits 0 and 1 are kept, the others ignored (R124). -/
def State.writeCtrl (s : State) (w : Word) : State :=
  { s with ieDone := w.getLsbD 0, ieFault := w.getLsbD 1 }

/-- irq = (IE_DONE ∧ DONE) ∨ (IE_FAULT ∧ FAULT), level-sensitive (R640). -/
def State.irq (s : State) : Bool := (s.ieDone && s.done) || (s.ieFault && s.fault)

end Sys2Proof.Machine
end

