-- ==== Sys2Proof/Machine/HostPort.lean ====
section
/-! DEFINITION. The host register block (R110 to R129), command issue (R650) and the stall rule (R230). -/

namespace Sys2Proof.Machine

/-- What a byte offset of the register block names (R110). -/
inductive HostReg where
  | id
  | cmd
  | status
  | ctrl
  | fcmd
  | finfo
  | pred (c : Channel)
  | dmem (a : Nat)
  | reserved
  deriving DecidableEq, Repr

/-- Where the DMEM window begins (R110, R128). -/
def windowBase : Nat := 0x10000

/-- The size in bytes of the register block's offset space (R201). -/
def blockBytes : Nat := 0x10000 + 8 * 65536

/-- The register map for an aligned offset (R110, R128, R129). -/
def regAt (words offset : Nat) : HostReg :=
  if windowBase ≤ offset then
    if (offset - windowBase) / 8 < words then .dmem ((offset - windowBase) / 8) else .reserved
  else match offset with
    | 0x00 => .id
    | 0x08 => .cmd
    | 0x10 => .status
    | 0x18 => .ctrl
    | 0x20 => .fcmd
    | 0x28 => .finfo
    | 0x30 => .pred 0
    | 0x38 => .pred 1
    | 0x40 => .pred 2
    | _ => .reserved

/-- The registers whose accesses wait while BUSY = 1 (R230). -/
def HostReg.stalls : HostReg → Bool
  | .cmd => true
  | .pred _ => true
  | .dmem _ => true
  | .id => false
  | .status => false
  | .ctrl => false
  | .fcmd => false
  | .finfo => false
  | .reserved => false

/-- What a read of a register returns; none for a DMEM word that nothing has written (R120 to R129, R141). -/
def State.readReg (s : State) : HostReg → Option Word
  | .id => some idValue
  | .cmd => some 0
  | .status => some s.statusWord
  | .ctrl => some s.ctrlWord
  | .fcmd => some s.fcmd
  | .finfo => some s.finfo
  | .pred c => some (s.pred c)
  | .dmem a => s.mem.readWord a
  | .reserved => some 0

/-- A host read takes effect: the word goes to the host, no state of the core changes (R223); an unwritten DMEM word gives an
unconstrained one (R141, I2). -/
def State.hostRead (s : State) (r : HostReg) : State :=
  match s.readReg r with
  | some w => s.reply w
  | none => s.replyFree

/-- ISSUE of a command word (R650), with BUSY = 0: while FAULT = 1 the command is dropped and LOST is set; otherwise it is in
flight, DONE is cleared and BUSY rises. -/
def State.issue (s : State) (w : Word) : State :=
  if s.fault then { s with lost := true } else { s with inflight := w, done := false, busy := true }

/-- A host write takes effect (R121 to R129, R223). -/
def State.hostWrite (s : State) (w : Word) : HostReg → State
  | .cmd => s.issue w
  | .status => s.writeStatus w
  | .ctrl => s.writeCtrl w
  | .pred c => s.setPred c w
  | .dmem a => s.store a [w]
  | .id => s
  | .fcmd => s
  | .finfo => s
  | .reserved => s

/-- The bus address of an access. -/
def HostAccess.address : HostAccess → Nat
  | .read address _ => address
  | .write address _ _ => address

/-- The access goes to the register block of a core configured by p: it begins in the block's offset space at REG_BASE (R110,
R201, R202). -/
abbrev HostAccess.inBlock (p : Params) (a : HostAccess) : Prop := p.regBase ≤ a.address ∧ a.address < p.regBase + blockBytes

/-- The byte offset of an access to the register block from its base address (R110). -/
def HostAccess.offset (p : Params) (a : HostAccess) : Nat := a.address - p.regBase

/-- The size in bytes of an access. -/
def HostAccess.size : HostAccess → Nat
  | .read _ size => size
  | .write _ size _ => size

/-- Why the model has no move for an access: it goes to an address outside the register block (R201, R202; log 12), or it goes
to the block and is not one aligned 64-bit access (R221). -/
def HostAccess.refusal (p : Params) (a : HostAccess) : Option Refusal :=
  if ¬a.inBlock p then some (.outsideBlock a.address)
  else if a.size ≠ 8 ∨ a.offset p % 8 ≠ 0 then some (.busError (a.offset p) a.size)
  else none

/-- The register that an access names. -/
def HostAccess.reg (p : Params) (a : HostAccess) : HostReg := regAt p.dmemWords (a.offset p)

/-- A legal access takes effect (R222: one whole word). -/
def State.perform (p : Params) (s : State) (a : HostAccess) : State :=
  match a with
  | .read _ _ => s.hostRead (a.reg p)
  | .write _ _ w => s.hostWrite w (a.reg p)

/-- The access is held until the command in flight completes (R230). -/
def State.hold (s : State) (a : HostAccess) : State := s.setHeld (s.bus.held ++ [a])

/-- An access arrives: refused where the model has no move; held while BUSY = 1 if it must wait; otherwise it takes effect at
once (R221, R230, R713). -/
def State.accept (p : Params) (s : State) (a : HostAccess) : Result :=
  match a.refusal p with
  | some r => .refused r
  | none =>
    if s.bus.inReset then .refused .accessDuringReset
    else if s.busy && (a.reg p).stalls then .next (s.hold a)
    else .next (s.perform p a)

/-- Something arrives from outside (R231, R700). -/
def State.receive (p : Params) (s : State) : HostInput → Result
  | .access a => s.accept p a
  | .reset true => .next s.assertReset
  | .reset false => .next s.releaseReset

end Sys2Proof.Machine
end

