-- ==== Sys2Proof/Machine/Fetch.lean ====
section
/-! DEFINITION. How a command comes to run: the order of events at the core (R230, R231), the command in flight, and where a
step finds the next command (log 7, log 8, log 9, log 11). -/

namespace Sys2Proof.Machine

/-- The command in flight runs: INFLIGHT is decoded and executed by `run`; an illegal opcode raises ILLEGAL_OPCODE and has no
other effect (R304, R313, R620). -/
def State.runInflight (run : Instr → State → Result) (s : State) : Result :=
  match decode s.inflight with
  | .ok i => run i s
  | .error _ => .next (s.raise .illegalOpcode 0)

/-- A held CMD write issues a command, so one of the commands that complete before the next arrival has completed (log 8). -/
def oneDone : List Arrival → List Arrival
  | [] => []
  | a :: later => { a with after := a.after - 1 } :: later

/-- The oldest held access takes effect (R230). If it is a CMD write that issues its word, that command is in flight now, and the
next arrival comes during it or after it, as its count says (R720; log 8). -/
def State.drain (p : Params) (s : State) (a : HostAccess) : State :=
  let t := s.perform p a
  if t.busy then t.setArrivals (oneDone t.bus.arrivals) else t

/-- The next event at the core. While a command is in flight: an arrival that overlaps it (count 0) is received, otherwise the
command completes. While none is: held accesses take effect first, in the order they were issued, then the next arrival; with
nothing to do the core is idle (R230, R231, R665; log 8, log 9, log 10, log 15). -/
def State.advance (p : Params) (run : Instr → State → Result) (s : State) : Result :=
  if s.busy then
    match s.bus.arrivals with
    | ⟨0, input⟩ :: later => (s.setArrivals later).receive p input
    | _ => s.runInflight run
  else
    match s.bus.held with
    | a :: later => .next ((s.setHeld later).drain p a)
    | [] =>
      match s.bus.arrivals with
      | ⟨_, input⟩ :: later => (s.setArrivals later).receive p input
      | [] => .next s

/-- The next arrival does not overlap the command in flight. -/
def afterCommand : List Arrival → List Arrival
  | [] => []
  | a :: later => { a with after := max 1 a.after } :: later

/-- The command word w is in flight, as the issue of R650 leaves it, and completes before the next arrival. -/
def State.placeCommand (s : State) (w : Word) : State :=
  { s.setArrivals (afterCommand s.bus.arrivals) with busy := true, done := false, inflight := w }

end Sys2Proof.Machine
end

