-- ==== Sys2Proof/Machine/Step.lean ====
section
/-! DEFINITION. One step of the core, and the placing of a command word where a step finds it. -/

namespace Sys2Proof.Machine

/-- One event at the core (Machine/Fetch.lean), at the spec's default model arguments (log 5) and the platform's REG_BASE (log 6). -/
def step (s : State) : Host.Outcome State Fault Refusal := s.advance params exec

/-- One event at a core configured by p. -/
def stepAt (p : Params) (s : State) : Result := s.advance p (execAt p)

/-- s with the command whose bits are w in flight, so that the very next step runs it (log 11). Bits above nbits are 0. -/
def State.withFetchWord (s : State) (nbits w : Nat) : State := s.placeCommand (BitVec.ofNat 64 (w % 2 ^ nbits))

end Sys2Proof.Machine
end

