-- ==== Sys2Proof/Safety.lean ====
section
/-! DEFINITION. What claims about runs are stated in: the invariant of the core, its idle state, the premises of a run (R714),
and the record a command leaves. -/

namespace Sys2Proof.Machine

/-- The control state is one the core can be in: FCODE = 0 exactly when FAULT = 0, and codes 10 .. 255 are never recorded
(R601); without a fault FCMD and FINFO are 0 (R125, R126); a command in flight has DONE = FAULT = 0 (R650); DONE and FAULT are
never both 1 (R610, R611, R650). -/
def State.controlOk (s : State) : Bool :=
  (s.fault == (s.fcode != 0)) && decide (s.fcode.toNat ≤ 9) && (s.fault || (s.fcmd == 0 && s.finfo == 0)) &&
    (!s.busy || (!s.done && !s.fault)) && !(s.done && s.fault)

/-- The host port is one the core can be in: every held access is a legal one that waits (R221, R230), and during reset no
command is in flight and nothing is held (R700, R701). -/
def State.portOk (p : Params) (s : State) : Bool :=
  s.bus.held.all (fun a => (a.refusal p).isNone && (a.reg p).stalls) && (!s.bus.inReset || (!s.busy && s.bus.held.isEmpty))

/-- The invariant of a core configured by p: memory in its canonical form, control state and host port legal. -/
abbrev State.Inv (p : Params) (s : State) : Prop :=
  s.mem.wfIn p.dmemWords ∧ s.controlOk = true ∧ s.portOk p = true

/-- The end of a run: every access has taken effect and BUSY = 0 (R714). -/
def State.atRest (s : State) : Bool := !s.busy && s.bus.held.isEmpty && s.bus.arrivals.isEmpty

/-- The launch premise of a run beside the DMEM words written (R714). -/
def State.launchable (s : State) : Bool := !s.busy && !s.fault && !s.lost

/-- k is rne(q): the nearest integer to the rational q, and the even one where q is halfway between two (R12). -/
def IsRne (q : ℚ) (k : ℤ) : Prop := |q - k| ≤ 1 / 2 ∧ (|q - k| = 1 / 2 → Even k)

/-- A command ended without a fault (R611). -/
def completed (s t : State) : Prop :=
  t.done = true ∧ t.busy = false ∧ t.fault = s.fault ∧ t.fcode = s.fcode ∧ t.fcmd = s.fcmd ∧ t.finfo = s.finfo ∧ t.lost = s.lost

/-- A command ended with fault c and information x, and with no other effect (R610). -/
def faulted (s t : State) (c : CoreFault) (x : Word) : Prop := t = s.raise c x

/-- A step that stays inside the model. -/
def safeOutcome : Result → Bool
  | .next _ => true
  | .fault _ => false
  | .refused _ => false

end Sys2Proof.Machine
end

