-- ==== Sys2Proof/Certificates/Slice0/Obligations.lean ====
section
/-! DEFINITION. The statements for the provers, each from the numbered rules of spec/. The functions under Sys2Proof.Spec say
what the rules say in their own terms (finite sums, rationals, lists of positions), apart from the model's own functions. -/

namespace Sys2Proof.Spec

open Sys2Proof.Machine

/-- DMEM_WORDS at its default (R9). -/
abbrev dmemWords : ℕ := 4096

/-- Entry k of an operand as a signed integer (R16). -/
def intAt (ws : List Word) (k : ℕ) : ℤ := (ws.getD k 0).toInt

/-- Saturation to lo .. hi. -/
def saturate (lo hi v : ℤ) : ℤ := max lo (min hi v)

/-- From s to t a command completed without a fault and stored words only in DMEM words dst .. dst + len − 1: every other
field and every other byte is as before (R232, R611). -/
def CompletesStoring (s t : State) (dst len : ℕ) : Prop :=
  t = { s with mem := t.mem, done := true, busy := false } ∧
    ∀ key, key < 8 * dst ∨ 8 * (dst + len) ≤ key → t.mem.readByte key = s.mem.readByte key

/-- An illegal word of a command that does not use CH ends with RESERVED_FIELD or ADDR_RANGE, and nothing else (R601). -/
def OnlyPlainCheckFaults (mk : Fields → Instr) : Prop :=
  ∀ f s, (mk f).wellFormed dmemWords = false → ∃ c x, exec (mk f) s = .next (s.raise c x) ∧
    (c = .reservedField ∧ x = 0 ∨ c = .addrRange ∧ (x = 0 ∨ x = 1))

/-- An illegal word of a command that uses CH ends with RESERVED_FIELD, BAD_CHANNEL or ADDR_RANGE, and nothing else (R601). -/
def OnlyChannelCheckFaults (mk : Fields → Instr) : Prop :=
  ∀ f s, (mk f).wellFormed dmemWords = false → ∃ c x, exec (mk f) s = .next (s.raise c x) ∧
    (c = .reservedField ∧ x = 0 ∨ c = .badChannel ∧ x = 0 ∨ c = .addrRange ∧ (x = 0 ∨ x = 1))

/-- The opcode of a command (R300, R302): the words with this OP field, and only they, decode to it. -/
def HasOpcode (mk : Fields → Instr) (op : BitVec 8) : Prop :=
  (∀ f, decode (encodeFields op f) = .ok (mk f)) ∧ ∀ w f, decode w = .ok (mk f) → opcodeField w = op

/-- A plane or tile command: its opcode, its faults, and its completion with `result` in the `len` words from DST, whenever
the command is legal and its source words are written. -/
def PlaneCommand (mk : Fields → Instr) (op : BitVec 8) (len : ℕ) (result : List Word → State → ℕ → Prop) : Prop :=
  HasOpcode mk op ∧ OnlyPlainCheckFaults mk ∧
    ∀ f s ws, (mk f).wellFormed dmemWords = true → s.mem.readWords f.src.toNat len = some ws →
      ∃ t, exec (mk f) s = .next t ∧ CompletesStoring s t f.dst.toNat len ∧ result ws t f.dst.toNat

/-- The default COLOR_M (R400). -/
def colorMatrix : Fin 3 → Fin 3 → ℚ :=
  ![![0.299, 0.587, 0.114], ![-0.168736, -0.331264, 0.5], ![0.5, -0.418688, -0.081312]]

/-- The default COLOR_OFF (R400). -/
def colorOffset : Fin 3 → ℚ := ![0, 128, 128]

/-- MINV for the default COLOR_M, as printed (R404). -/
def inverseMatrix : Fin 3 → Fin 3 → ℚ :=
  ![![1, -1125 / 922967728, 1294000375 / 922967728],
    ![1, -317626125 / 922967728, -659124625 / 922967728],
    ![1, 1635498875 / 922967728, 375 / 922967728]]

/-- KD[u][x] (R420). -/
def kdEntry (u x : Fin 8) : ℤ := (kd.getD u.val []).getD x.val 0

/-- QTAB[k] at its default (R440). -/
def quantStep (k : Fin 64) : ℕ := defaultQtab.getD k.val 0

/-- ZZ[i] (R460). -/
def zigzag (i : Fin 64) : ℕ := zz.getD i.val 0

/-- The indices of the non-zero AC values of a sequence (R481). -/
def nonzeroAc (ws : List Word) : List ℕ := (List.range 64).filter fun i => decide (1 ≤ i) && (ws.getD i 0 != 0)

/-- The (run, value) pairs of a sequence: before each non-zero AC value, how many zeros lie between it and the one before it
(R481). -/
def runValuePairs (ws : List Word) : List Word :=
  (List.zipWith (fun prev i => [BitVec.ofNat 64 (i - prev - 1), ws.getD i 0]) (0 :: nonzeroAc ws) (nonzeroAc ws)).flatten

/-- The symbols of pairs, as they lie in a stream (R480). -/
def pairSymbols (pairs : List (ℕ × Word)) : List Word := pairs.flatMap fun rv => [BitVec.ofNat 64 rv.1, rv.2]

/-- The sequence elements that pairs expand to (R485). -/
def pairElements (pairs : List (ℕ × Word)) : List Word := pairs.flatMap fun rv => List.replicate rv.1 0 ++ [rv.2]

/-- Pairs that an unpacker accepts after the DC element: none is the terminator, and they fit in 64 elements (R485). -/
def AcceptedPairs (pairs : List (ℕ × Word)) : Prop :=
  (∀ rv ∈ pairs, ¬(rv.1 = 0 ∧ rv.2 = 0)) ∧ 1 + (pairElements pairs).length ≤ 64

/-- lo(s) for counts CUM (R500). -/
def lowBound (cum : List ℕ) (s : ℤ) : ℚ := (cum.getD (s + 32).toNat 0 : ℚ) / 65536

/-- hi(s) for counts CUM (R500). -/
def highBound (cum : List ℕ) (s : ℤ) : ℚ := (cum.getD (s + 33).toNat 0 : ℚ) / 65536

/-- The interval [low, high) of a list of symbols, from [0, 1), both new bounds from the old ones (R503). -/
def ratInterval (cum : List ℕ) (symbols : List ℤ) : ℚ × ℚ :=
  symbols.foldl (fun lh s =>
    (lh.1 + (lh.2 - lh.1) * lowBound cum (saturate (-32) 31 s), lh.1 + (lh.2 - lh.1) * highBound cum (saturate (-32) 31 s)))
    (0, 1)

/-- The words from dst on hold the codeword cw, least significant first (R205). -/
def HoldsCodeword (t : State) (dst cw : ℕ) : Prop :=
  cw < 2 ^ 2112 ∧ ∀ k < 33, t.mem.readWord (dst + k) = some (BitVec.ofNat 64 (cw / 2 ^ (64 * k)))

/-- The value v of a codeword (R205). -/
def codewordValue (ws : List Word) : ℚ := (∑ k ∈ Finset.range 33, ((ws.getD k 0).toNat : ℚ) * 2 ^ (64 * k)) / 2 ^ 2112

/-- The first symbols that v decodes to: each one's interval holds the value, which is then rescaled (R501, R505). -/
def DecodesTo (cum : List ℕ) : ℚ → List ℤ → Prop
  | _, [] => True
  | v, s :: symbols => -32 ≤ s ∧ s ≤ 31 ∧ lowBound cum s ≤ v ∧ v < highBound cum s ∧
      DecodesTo cum ((v - lowBound cum s) / (highBound cum s - lowBound cum s)) symbols

/-- The terminator test after k symbols: k ≥ 3, k odd, the last two are 0 (R505, R506). -/
def EndsHere (symbols : List ℤ) : Prop :=
  3 ≤ symbols.length ∧ symbols.length % 2 = 1 ∧ symbols.getD (symbols.length - 2) 1 = 0 ∧
    symbols.getD (symbols.length - 1) 1 = 0

/-- What R302 gives the opcode of a command: whether it uses CH, SRC_LEN, DST_LEN. -/
def opcodeRow : Instr → Bool × ℕ × ℕ
  | .nop _ => (false, 0, 0)
  | .ccfwd _ => (false, 192, 192)
  | .ccinv _ => (false, 192, 192)
  | .dctf _ => (false, 64, 64)
  | .dcti _ => (false, 64, 64)
  | .qdiv _ => (false, 64, 64)
  | .qmul _ => (false, 64, 64)
  | .zzscan _ => (false, 64, 64)
  | .zzunscan _ => (false, 64, 64)
  | .rlpack _ => (true, 64, 130)
  | .rlunpack _ => (true, 130, 64)
  | .aenc _ => (false, 130, 33)
  | .adec _ => (false, 33, 130)
  | .prdrst _ => (false, 0, 0)

/-- The match and mask of each row of spec/opcode_table.json. -/
def tableRows : List (Word × Word) :=
  [(0x0000000000000000, 0xFFFFFFFFFFFFFFFF), (0x0000000000000001, 0xFFFF00000000FFFF),
   (0x0000000000000002, 0xFFFF00000000FFFF), (0x0000000000000003, 0xFFFF00000000FFFF),
   (0x0000000000000004, 0xFFFF00000000FFFF), (0x0000000000000005, 0xFFFF00000000FFFF),
   (0x0000000000000006, 0xFFFF00000000FFFF), (0x0000000000000007, 0xFFFF00000000FFFF),
   (0x0000000000000008, 0xFFFF00000000FFFF), (0x0000000000000009, 0xFFFF00000000FCFF),
   (0x000000000000000A, 0xFFFF00000000FCFF), (0x000000000000000B, 0xFFFF00000000FFFF),
   (0x000000000000000C, 0xFFFF00000000FFFF), (0x000000000000000D, 0xFFFFFFFFFFFFFFFF)]

/-- The command in flight completes at the next step: no arrival comes during it. -/
def NothingOverlaps (s : State) : Prop := ∀ a later, s.bus.arrivals = a :: later → 0 < a.after

/-- The next event at the core is the arrival of `input`, with `later` still to come: either it overlaps the command in
flight, or the core is free and holds nothing back. -/
def Arriving (s : State) (input : HostInput) (later : List Arrival) : Prop :=
  (s.busy = true ∧ s.bus.arrivals = ⟨0, input⟩ :: later) ∨
    (s.busy = false ∧ s.bus.held = [] ∧ ∃ n, s.bus.arrivals = ⟨n, input⟩ :: later)

/-- The next event at the core is the arrival of the host access a, outside reset. -/
def ArrivingAccess (s : State) (a : HostAccess) (later : List Arrival) : Prop :=
  s.bus.inReset = false ∧ Arriving s (.access a) later

/-- A 64-bit read at a byte offset of the register block, wherever the platform puts the block (R110, R202). -/
abbrev readAt (offset : ℕ) : HostAccess := .read (Config.regBase + offset) 8

/-- A 64-bit write at a byte offset of the register block. -/
abbrev writeAt (offset : ℕ) (w : Word) : HostAccess := .write (Config.regBase + offset) 8 w

/-- t is the state u, but that the counts of what is still to arrive may differ: after the issue of a command from a held CMD
write they count from that command on (log 8). -/
def SameButCounts (u t : State) : Prop :=
  t = { u with bus := { u.bus with arrivals := t.bus.arrivals } } ∧
    t.bus.arrivals.map (·.input) = u.bus.arrivals.map (·.input)

/-- An aligned offset of the register block (R201, R221). -/
def LegalOffset (offset : ℕ) : Prop := offset % 8 = 0 ∧ offset < 0x90000

/-- The offsets whose accesses wait while BUSY = 1: CMD, PRED0 to PRED2, the DMEM window (R230). -/
def WaitingOffset (offset : ℕ) : Prop :=
  offset = 0x08 ∨ offset = 0x30 ∨ offset = 0x38 ∨ offset = 0x40 ∨ (0x10000 ≤ offset ∧ offset < 0x10000 + 8 * dmemWords)

/-- The reserved offsets (R110). -/
def ReservedOffset (offset : ℕ) : Prop :=
  (0x48 ≤ offset ∧ offset ≤ 0xFFF8) ∨ 0x10000 + 8 * dmemWords ≤ offset

/-- t is s after the core handed the host the word w and nothing else happened. -/
def Replied (s t : State) (w : Word) (later : List Arrival) : Prop :=
  t = { s with bus := { s.bus with arrivals := later, replies := s.bus.replies ++ [w] } }

/-- How many of the accesses are reads. -/
def readCount (l : List HostAccess) : ℕ :=
  (l.filter fun a => match a with
    | .read _ _ => true
    | .write _ _ _ => false).length

/-- Every symbol of a stream lies in −32 .. 31 (R509). -/
def SymbolsInDomain (ws : List Word) : Prop := ∀ w ∈ ws, -32 ≤ w.toInt ∧ w.toInt ≤ 31

/-- The streams that the coder returns unchanged (R509). -/
def RoundTripStream (ws : List Word) : Prop :=
  SymbolsInDomain ws ∧ 3 ≤ ws.length ∧ ws.length ≤ 129 ∧ ws.length % 2 = 1 ∧
    ws.getD (ws.length - 2) 1 = 0 ∧ ws.getD (ws.length - 1) 1 = 0 ∧
    ∀ j, j % 2 = 1 → j + 2 < ws.length → ¬(ws.getD j 1 = 0 ∧ ws.getD (j + 1) 1 = 0)

end Sys2Proof.Spec

open Sys2Proof Sys2Proof.Machine Sys2Proof.Spec

/-! ### Encoding -/

/-- R300, R302: no bit of a command is lost by encoding it: decoding the encoded word of any command, with every field at
every value, legal or not, gives the command back. -/
def Obligations.DecodeOfEncodeIsSame : Prop := ∀ i : Instr, decode (encode i) = .ok i

/-- R304, R313: decoding is one to one and total: a word that decodes to a command is that command's word, and a word does not
decode exactly when its OP field is 0x0E .. 0xFF. -/
def Obligations.EncodeOfDecodeIsSame : Prop :=
  (∀ w i, decode w = .ok i → encode i = w) ∧
    ∀ w, (∃ e, decode w = .error e) ↔ 0x0E ≤ (w.extractLsb' 0 8).toNat

/-- R300: where the fields of a command lie in its word, and w = OP | (CH << 8) | (SRC << 16) | (DST << 32) for every legal
command. -/
def Obligations.LegalWordFormula : Prop :=
  ∀ i : Instr,
    ((encode i).extractLsb' 0 8 = i.opcode ∧ (encode i).extractLsb' 8 2 = i.fields.ch ∧
      (encode i).extractLsb' 10 6 = i.fields.rsv0 ∧ (encode i).extractLsb' 16 16 = i.fields.src ∧
      (encode i).extractLsb' 32 16 = i.fields.dst ∧ (encode i).extractLsb' 48 16 = i.fields.rsv1) ∧
    (i.wellFormed dmemWords = true → i.fields.rsv0 = 0 ∧ i.fields.rsv1 = 0 ∧
      encode i = i.opcode.setWidth 64 ||| (i.fields.ch.setWidth 64 <<< 8) ||| (i.fields.src.setWidth 64 <<< 16) |||
        (i.fields.dst.setWidth 64 <<< 32))

/-- 95_test_vectors.md section 2.9: one word of each family, as printed, decodes to its line. -/
def Obligations.SampleWordsDecode : Prop :=
  decode 0x0000000000000000 = .ok (.nop ⟨0, 0, 0, 0, 0⟩) ∧
    decode 0x000003E800000001 = .ok (.ccfwd ⟨0, 0, 0, 1000, 0⟩) ∧
    decode 0x0000040004000002 = .ok (.ccinv ⟨0, 0, 1024, 1024, 0⟩) ∧
    decode 0x0000010003E80003 = .ok (.dctf ⟨0, 0, 1000, 256, 0⟩) ∧
    decode 0x000007D001000004 = .ok (.dcti ⟨0, 0, 256, 2000, 0⟩) ∧
    decode 0x0000010001000005 = .ok (.qdiv ⟨0, 0, 256, 256, 0⟩) ∧
    decode 0x0000010001000008 = .ok (.zzunscan ⟨0, 0, 256, 256, 0⟩) ∧
    decode 0x0000010001000109 = .ok (.rlpack ⟨1, 0, 256, 256, 0⟩) ∧
    decode 0x000001000100020A = .ok (.rlunpack ⟨2, 0, 256, 256, 0⟩) ∧
    decode 0x000002210100000B = .ok (.aenc ⟨0, 0, 256, 545, 0⟩) ∧
    decode 0x000001000242000C = .ok (.adec ⟨0, 0, 578, 256, 0⟩) ∧
    decode 0x000000000000000D = .ok (.prdrst ⟨0, 0, 0, 0, 0⟩)

/-- 30_encoding.md section 5: a word matches a row of the opcode table exactly when it decodes to a command whose reserved
and unused fields are 0: for every such word, and for no other, the step that runs it does not end in ILLEGAL_OPCODE or
RESERVED_FIELD. -/
def Obligations.TableRowsAreTheUnreservedWords : Prop :=
  ∀ s : State, s.busy = true → s.fault = false → NothingOverlaps s →
    ((∃ row ∈ tableRows, s.inflight &&& row.2 = row.1) ↔
      step s ≠ .next (s.raise .illegalOpcode 0) ∧ step s ≠ .next (s.raise .reservedField 0))

/-! ### Command-level faults -/

/-- R303, R305, R310 in the order of R620, items 2 to 5: the first condition that holds, in the order reserved fields, channel,
source range, destination range, ends any command with its fault record and with no other effect. -/
def Obligations.CommandCheckPriority : Prop :=
  ∀ (i : Instr) (s : State),
    let row := opcodeRow i
    let f := i.fields
    let reserved := f.rsv0 ≠ 0 ∨ f.rsv1 ≠ 0 ∨ (row.1 = false ∧ f.ch ≠ 0) ∨ (row.2.1 = 0 ∧ f.src ≠ 0) ∨
      (row.2.2 = 0 ∧ f.dst ≠ 0)
    let channel := row.1 = true ∧ f.ch = 3
    let source := 0 < row.2.1 ∧ dmemWords < f.src.toNat + row.2.1
    let dest := 0 < row.2.2 ∧ dmemWords < f.dst.toNat + row.2.2
    (reserved → exec i s = .next (s.raise .reservedField 0)) ∧
      (¬reserved ∧ channel → exec i s = .next (s.raise .badChannel 0)) ∧
      (¬reserved ∧ ¬channel ∧ source → exec i s = .next (s.raise .addrRange 0)) ∧
      (¬reserved ∧ ¬channel ∧ ¬source ∧ dest → exec i s = .next (s.raise .addrRange 1)) ∧
      (¬reserved ∧ ¬channel ∧ ¬source ∧ ¬dest ↔ i.wellFormed dmemWords = true)

/-- R304: a word with OP 0x0E .. 0xFF, whatever its other fields, ends with ILLEGAL_OPCODE recorded: FAULT = 1, FCODE = 1,
FCMD = the word, FINFO = 0, BUSY = 0, and no other effect. -/
def Obligations.IllegalOpcodeOnlyRecords : Prop :=
  ∀ s : State, s.busy = true → NothingOverlaps s → 0x0E ≤ (s.inflight.extractLsb' 0 8).toNat →
    step s = .next { s with fault := true, fcode := 1, fcmd := s.inflight, finfo := 0, busy := false }

/-! ### The commands -/

/-- R401: CCFWD. -/
def Obligations.CcfwdResult : Prop :=
  PlaneCommand .ccfwd 0x01 192 fun ws t dst => ∀ ch : Fin 3, ∀ k : Fin 64, ∃ v : ℤ,
    IsRne (∑ l : Fin 3, colorMatrix ch l * (saturate 0 255 (intAt ws (64 * l.val + k.val)) : ℚ) + colorOffset ch - 128) v ∧
      t.mem.readWord (dst + (64 * ch.val + k.val)) = some (BitVec.ofInt 64 v)

/-- R403, with MINV as printed in R404: CCINV. -/
def Obligations.CcinvResult : Prop :=
  PlaneCommand .ccinv 0x02 192 fun ws t dst => ∀ ch : Fin 3, ∀ k : Fin 64, ∃ v : ℤ,
    IsRne (∑ l : Fin 3, inverseMatrix ch l * ((intAt ws (64 * l.val + k.val) : ℚ) / 2 ^ 32 + 128 - colorOffset l)) v ∧
      t.mem.readWord (dst + (64 * ch.val + k.val)) = some (BitVec.ofInt 64 (saturate 0 255 v))

/-- R421: DCTF. -/
def Obligations.DctfResult : Prop :=
  PlaneCommand .dctf 0x03 64 fun ws t dst => ∀ u v : Fin 8, ∃ y : ℤ,
    IsRne (((∑ x : Fin 8, ∑ y : Fin 8,
        kdEntry u x * kdEntry v y * saturate (-32768) 32767 (intAt ws (8 * x.val + y.val)) : ℤ) : ℚ) / 2 ^ 48) y ∧
      t.mem.readWord (dst + (8 * u.val + v.val)) = some (BitVec.ofInt 64 y)

/-- R423: DCTI. -/
def Obligations.DctiResult : Prop :=
  PlaneCommand .dcti 0x04 64 fun ws t dst => ∀ x y : Fin 8, ∃ z : ℤ,
    IsRne (((∑ u : Fin 8, ∑ v : Fin 8,
        kdEntry u x * kdEntry v y * saturate (-2 ^ 52) (2 ^ 52 - 1) (intAt ws (8 * u.val + v.val)) : ℤ) : ℚ) / 2 ^ 80) z ∧
      t.mem.readWord (dst + (8 * x.val + y.val)) = some (BitVec.ofInt 64 z)

/-- R441: QDIV. -/
def Obligations.QdivResult : Prop :=
  PlaneCommand .qdiv 0x05 64 fun ws t dst => ∀ k : Fin 64, ∃ v : ℤ,
    IsRne ((intAt ws k.val : ℚ) / (quantStep k * 2 ^ 32)) v ∧
      t.mem.readWord (dst + k.val) = some (BitVec.ofInt 64 (saturate (-128) 127 v))

/-- R443: QMUL. -/
def Obligations.QmulResult : Prop :=
  PlaneCommand .qmul 0x06 64 fun ws t dst => ∀ k : Fin 64,
    t.mem.readWord (dst + k.val) =
      some (BitVec.ofInt 64 (saturate (-2 ^ 20) (2 ^ 20 - 1) (intAt ws k.val * quantStep k) * 2 ^ 32))

/-- R461: ZZSCAN; and ZZ is the walk of R460 over the anti-diagonals. -/
def Obligations.ZzscanResult : Prop :=
  (zz = (List.range 15).flatMap fun d =>
      let rows := (List.range 8).filter fun r => decide (r ≤ d) && decide (d - r < 8)
      (if d % 2 = 0 then rows.reverse else rows).map fun r => 8 * r + (d - r)) ∧
    PlaneCommand .zzscan 0x07 64 fun ws t dst => ∀ i : Fin 64,
      t.mem.readWord (dst + i.val) = some (ws.getD (zigzag i) 0)

/-- R462: ZZUNSCAN. -/
def Obligations.ZzunscanResult : Prop :=
  PlaneCommand .zzunscan 0x08 64 fun ws t dst => ∀ i : Fin 64,
    t.mem.readWord (dst + zigzag i) = some (ws.getD i.val 0)

/-- R481: RLPACK, with the pairs given by the positions of the non-zero AC values; the DC delta is the 64-bit difference. -/
def Obligations.RlpackResult : Prop :=
  HasOpcode .rlpack 0x09 ∧ OnlyChannelCheckFaults .rlpack ∧
    ∀ f s ws (c : Channel), (Instr.rlpack f).wellFormed dmemWords = true → f.ch.toNat = c.val →
      s.mem.readWords f.src.toNat 64 = some ws →
      ∃ t, exec (.rlpack f) s = .next t ∧
        t = { s.setPred c (ws.getD 0 0) with mem := t.mem, done := true, busy := false } ∧
        t.mem.readWord f.dst.toNat = some (BitVec.ofNat 64 (3 + 2 * (nonzeroAc ws).length)) ∧
        t.mem.readWords (f.dst.toNat + 1) (3 + 2 * (nonzeroAc ws).length) =
          some ([ws.getD 0 0 - s.pred c] ++ runValuePairs ws ++ [0, 0]) ∧
        ∀ key, key < 8 * f.dst.toNat ∨ 8 * (f.dst.toNat + 4 + 2 * (nonzeroAc ws).length) ≤ key →
          t.mem.readByte key = s.mem.readByte key

/-- R485: RLUNPACK: the accepted streams and their sequence; then each data fault, after any accepted pairs, with its
information word and no other effect. -/
def Obligations.RlunpackResult : Prop :=
  HasOpcode .rlunpack 0x0A ∧ OnlyChannelCheckFaults .rlunpack ∧
    ∀ f s (n : Word) (c : Channel), (Instr.rlunpack f).wellFormed dmemWords = true → f.ch.toNat = c.val →
      s.mem.readWord f.src.toNat = some n →
      (n.toNat = 0 ∨ 129 < n.toNat → exec (.rlunpack f) s = .next (s.raise .streamLength n)) ∧
      ∀ (delta : Word) (pairs : List (ℕ × Word)) (rest : List Word), n.toNat ≤ 129 → AcceptedPairs pairs →
        s.mem.readWords (f.src.toNat + 1) n.toNat = some ([delta] ++ pairSymbols pairs ++ rest) →
        (∀ ignored, rest = [0, 0] ++ ignored →
          ∃ t, exec (.rlunpack f) s = .next t ∧
            t = { s.setPred c (delta + s.pred c) with mem := t.mem, done := true, busy := false } ∧
            t.mem.readWords f.dst.toNat 64 = some ([delta + s.pred c] ++ pairElements pairs ++
              List.replicate (64 - (1 + (pairElements pairs).length)) 0) ∧
            ∀ key, key < 8 * f.dst.toNat ∨ 8 * (f.dst.toNat + 64) ≤ key → t.mem.readByte key = s.mem.readByte key) ∧
        (rest.length < 2 → exec (.rlunpack f) s = .next (s.raise .missingTerminator n)) ∧
        (∀ run val more, rest = run :: val :: more → ¬(run = 0 ∧ val = 0) → run.toInt < 0 →
          exec (.rlunpack f) s = .next (s.raise .negativeRun (BitVec.ofNat 64 (1 + 2 * pairs.length)))) ∧
        (∀ run val more, rest = run :: val :: more → ¬(run = 0 ∧ val = 0) → 0 ≤ run.toInt →
          64 < 1 + (pairElements pairs).length + run.toInt + 1 →
          exec (.rlunpack f) s = .next (s.raise .seqOverflow (BitVec.ofNat 64 (1 + 2 * pairs.length))))

/-- R503: AENC, with the interval narrowed in exact rationals: n > 129 is the only data fault, and every stream of at most 129
symbols, n = 0 among them, gives the midpoint. -/
def Obligations.AencResult : Prop :=
  HasOpcode .aenc 0x0B ∧ OnlyPlainCheckFaults .aenc ∧
    ∀ f s (n : Word), (Instr.aenc f).wellFormed dmemWords = true → s.mem.readWord f.src.toNat = some n →
      (129 < n.toNat → exec (.aenc f) s = .next (s.raise .streamLength n)) ∧
      ∀ ws, n.toNat ≤ 129 → s.mem.readWords (f.src.toNat + 1) n.toNat = some ws →
        ∃ t cw, exec (.aenc f) s = .next t ∧ CompletesStoring s t f.dst.toNat 33 ∧ HoldsCodeword t f.dst.toNat cw ∧
          (cw : ℚ) = ((ratInterval defaultCum (ws.map BitVec.toInt)).1 + (ratInterval defaultCum (ws.map BitVec.toInt)).2) / 2 *
            2 ^ 2112

/-- R505: ADEC, decoding in exact rationals: every codeword decodes, the result is the symbols up to the first terminator, or
DEC_OVERRUN(129) with no other effect when 129 symbols hold none. -/
def Obligations.AdecResult : Prop :=
  HasOpcode .adec 0x0C ∧ OnlyPlainCheckFaults .adec ∧
    ∀ f s ws, (Instr.adec f).wellFormed dmemWords = true → s.mem.readWords f.src.toNat 33 = some ws →
      (∃ symbols, DecodesTo defaultCum (codewordValue ws) symbols ∧ (∀ k < symbols.length, ¬EndsHere (symbols.take k)) ∧
        (symbols.length ≤ 129 ∧ EndsHere symbols ∨ symbols.length = 129 ∧ ¬EndsHere symbols)) ∧
      ∀ symbols, DecodesTo defaultCum (codewordValue ws) symbols → (∀ k < symbols.length, ¬EndsHere (symbols.take k)) →
      (symbols.length ≤ 129 → EndsHere symbols →
        ∃ t, exec (.adec f) s = .next t ∧ CompletesStoring s t f.dst.toNat (symbols.length + 1) ∧
          t.mem.readWord f.dst.toNat = some (BitVec.ofNat 64 symbols.length) ∧
          t.mem.readWords (f.dst.toNat + 1) symbols.length = some (symbols.map (BitVec.ofInt 64))) ∧
      (symbols.length = 129 → ¬EndsHere symbols → exec (.adec f) s = .next (s.raise .decOverrun 129))

/-- R540: NOP: the legal word is 0, it only completes; any other field raises RESERVED_FIELD. -/
def Obligations.NopResult : Prop :=
  HasOpcode .nop 0x00 ∧ (∀ f, (Instr.nop f).wellFormed dmemWords = true ↔ encode (.nop f) = 0) ∧
    ∀ f s, exec (.nop f) s =
      if encode (.nop f) = 0 then .next { s with done := true, busy := false } else .next (s.raise .reservedField 0)

/-- R541: PRDRST: the legal word is 0x0D, it sets the three predictors to 0; any other field raises RESERVED_FIELD. -/
def Obligations.PrdrstResult : Prop :=
  HasOpcode .prdrst 0x0D ∧ (∀ f, (Instr.prdrst f).wellFormed dmemWords = true ↔ encode (.prdrst f) = 0x0D) ∧
    ∀ f s, exec (.prdrst f) s =
      if encode (.prdrst f) = 0x0D then .next { s with pred0 := 0, pred1 := 0, pred2 := 0, done := true, busy := false }
      else .next (s.raise .reservedField 0)

/-! ### What holds of every command -/

/-- R610, R611: a command that ends, ends in one of two ways. With a fault: the record is written, BUSY falls, DMEM, PRED and
everything else stay. Without: DONE rises, BUSY falls, FAULT, FCODE, FCMD, FINFO, LOST and everything but DMEM and PRED stay. -/
def Obligations.FaultOrCompletion : Prop :=
  ∀ (i : Instr) (s t : State), exec i s = .next t →
    (∃ (c : CoreFault) (x : Word), 1 ≤ c.code.toNat ∧ c.code.toNat ≤ 9 ∧
      t = { s with fault := true, fcode := c.code, fcmd := s.inflight, finfo := x, busy := false }) ∨
    t = { s with mem := t.mem, pred0 := t.pred0, pred1 := t.pred1, pred2 := t.pred2, done := true, busy := false }

/-- 30_encoding.md section 4, 20_memory.md section 7: whatever a command stores lies in its destination footprint
[DST, DST + DST_LEN); every other byte of memory reads as before. -/
def Obligations.StoresStayInDestination : Prop :=
  ∀ (i : Instr) (s t : State), exec i s = .next t →
    ∀ key, key < 8 * i.fields.dst.toNat ∨ 8 * (i.fields.dst.toNat + (opcodeRow i).2.2) ≤ key →
      t.mem.readByte key = s.mem.readByte key

/-- 10_state.md section 2: no command but RLPACK and RLUNPACK reads a predictor, and none but they and PRDRST writes one;
RLPACK and RLUNPACK touch only PRED[CH]. -/
def Obligations.PredictorsOnlyByPackers : Prop :=
  (∀ (i : Instr) (s t : State) (c : Channel), exec i s = .next t → t.pred c ≠ s.pred c →
    (∃ f, i = .rlpack f ∧ f.ch.toNat = c.val) ∨ (∃ f, i = .rlunpack f ∧ f.ch.toNat = c.val) ∨ ∃ f, i = .prdrst f) ∧
  ∀ (i : Instr) (s t : State) (c : Channel) (w : Word), (∀ f, i ≠ .rlpack f) → (∀ f, i ≠ .rlunpack f) →
    (∀ f, i ≠ .prdrst f) → exec i s = .next t → exec i (s.setPred c w) = .next (t.setPred c w)

/-- 10_state.md section 5, the model's log 2: a legal command whose read set holds an unwritten word stops the model at an
unwritten word of that set: for the stream commands the count word, or a symbol once the count is in bounds. -/
def Obligations.UnwrittenReadStops : Prop :=
  ∀ (i : Instr) (s : State), s.mem.wf → i.wellFormed dmemWords = true →
    let src := i.fields.src.toNat
    let stops := fun (lo hi : ℕ) => ∃ a, exec i s = .fault (.unwrittenDmem a) ∧ lo ≤ a ∧ a < hi ∧ s.mem.readWord a = none
    ((∀ f, i ≠ .rlunpack f) → (∀ f, i ≠ .aenc f) → s.mem.readWords src (opcodeRow i).2.1 = none →
      stops src (src + (opcodeRow i).2.1)) ∧
    ((∃ f, i = .rlunpack f ∨ i = .aenc f) → s.mem.readWord src = none → stops src (src + 1)) ∧
    ∀ n : Word, (∃ f, i = .rlunpack f ∨ i = .aenc f) → s.mem.readWord src = some n → 1 ≤ n.toNat → n.toNat ≤ 129 →
      s.mem.readWords (src + 1) n.toNat = none → stops (src + 1) (src + 1 + n.toNat)

/-! ### Steps, the host port, reset -/

/-- The command in flight, when nothing overlaps it, is decoded from INFLIGHT, and the step is exec of it: the model adds
nothing around it (log 7). -/
def Obligations.StepRunsDecodedCommand : Prop :=
  ∀ (s : State) (i : Instr), s.busy = true → NothingOverlaps s → decode s.inflight = .ok i → step s = exec i s

/-- R650: a CMD write at a free core is dropped and sets LOST while FAULT = 1; otherwise the word is in flight, DONE is 0 and
BUSY is 1, and when nothing overlaps it the next step executes it. While BUSY = 1 the write waits, and takes effect in the
same way when its turn comes; then the counts of what is still to come are left open (log 8). -/
def Obligations.CmdWriteIssues : Prop :=
  ∀ (s : State) (w : Word),
    (∀ later, s.busy = true → ArrivingAccess s (writeAt 0x08 w) later →
      step s = .next { s with bus := { s.bus with arrivals := later, held := s.bus.held ++ [writeAt 0x08 w] } }) ∧
    (∀ later, s.busy = false → ArrivingAccess s (writeAt 0x08 w) later →
      (s.fault = true → step s = .next { s with lost := true, bus := { s.bus with arrivals := later } }) ∧
      (s.fault = false → ∃ t, step s = .next t ∧
        t = { s with inflight := w, done := false, busy := true, bus := { s.bus with arrivals := later } } ∧
        (NothingOverlaps t → (∀ i, decode w = .ok i → step t = exec i t) ∧
          ∀ e, decode w = .error e → step t = .next (t.raise .illegalOpcode 0)))) ∧
    ∀ later, s.busy = false → s.bus.held = writeAt 0x08 w :: later →
      (s.fault = true → step s = .next { s with lost := true, bus := { s.bus with held := later } }) ∧
      (s.fault = false → ∃ t, step s = .next t ∧
        SameButCounts { s with inflight := w, done := false, busy := true, bus := { s.bus with held := later } } t ∧
        (NothingOverlaps t → (∀ i, decode w = .ok i → step t = exec i t) ∧
          ∀ e, decode w = .error e → step t = .next (t.raise .illegalOpcode 0)))

/-- R230, with the model's log 10: while BUSY = 1 an access to CMD, PRED0 to PRED2 or the DMEM window is held, and nothing else
changes; an access to any other offset takes effect at once, also ahead of accesses held before it (log 10: R230 wins over the
program order of R231 there), a read of STATUS, FCMD or FINFO with the values from before completion; after completion the held
accesses take effect first, in their order. -/
def Obligations.StallRule : Prop :=
  ∀ (s : State) (a : HostAccess) (offset : ℕ) (later : List Arrival), a.size = 8 → a.address = Config.regBase + offset →
    LegalOffset offset →
    (s.busy = true → ArrivingAccess s a later → WaitingOffset offset →
      step s = .next { s with bus := { s.bus with arrivals := later, held := s.bus.held ++ [a] } }) ∧
    (s.busy = true → ArrivingAccess s a later → ¬WaitingOffset offset →
      step s = .next ((s.setArrivals later).perform params a)) ∧
    (s.busy = true → ∀ w, a = readAt offset → ArrivingAccess s a later →
      (offset = 0x10 ∧ w = s.statusWord ∨ offset = 0x20 ∧ w = s.fcmd ∨ offset = 0x28 ∧ w = s.finfo) →
      ∃ t, step s = .next t ∧ Replied s t w later) ∧
    ∀ rest, s.busy = false → s.bus.held = a :: rest →
      ∃ t, step s = .next t ∧ SameButCounts ((s.setHeld rest).perform params a) t

/-- R122, the layout: what a read of STATUS hands the host, bit by bit, also while BUSY = 1. -/
def Obligations.StatusReadLayout : Prop :=
  ∀ (s : State) (later : List Arrival), ArrivingAccess s (readAt 0x10) later →
    ∃ t w, step s = .next t ∧ Replied s t w later ∧ w.getLsbD 0 = s.busy ∧ w.getLsbD 1 = s.done ∧ w.getLsbD 2 = s.fault ∧
      w.getLsbD 3 = s.lost ∧ w.extractLsb' 4 4 = 0 ∧ w.extractLsb' 8 8 = s.fcode ∧ w.extractLsb' 16 48 = 0

/-- R123: what a write of w to STATUS does, also while BUSY = 1. -/
def Obligations.StatusWriteClears : Prop :=
  ∀ (s : State) (w : Word) (later : List Arrival), ArrivingAccess s (writeAt 0x10 w) later →
    step s = .next { s with
      done := if w.getLsbD 1 then false else s.done
      fault := if w.getLsbD 2 then false else s.fault
      fcode := if w.getLsbD 2 then 0 else s.fcode
      fcmd := if w.getLsbD 2 then 0 else s.fcmd
      finfo := if w.getLsbD 2 then 0 else s.finfo
      lost := if w.getLsbD 3 then false else s.lost
      bus := { s.bus with arrivals := later } }

/-- R124: CTRL: a write keeps bits 0 and 1 and takes effect at once, also while BUSY = 1: they gate DONE and FAULT onto irq; a
read returns them and 0 for every reserved bit; both are 0 after reset. -/
def Obligations.CtrlReadWrite : Prop :=
  ∀ (s : State) (later : List Arrival),
    (∀ w, ArrivingAccess s (writeAt 0x18 w) later → ∃ t, step s = .next t ∧
      t = { s with ieDone := w.getLsbD 0, ieFault := w.getLsbD 1, bus := { s.bus with arrivals := later } } ∧
      t.irq = (w.getLsbD 0 && s.done || w.getLsbD 1 && s.fault)) ∧
    (ArrivingAccess s (readAt 0x18) later →
      ∃ t w, step s = .next t ∧ Replied s t w later ∧ w.getLsbD 0 = s.ieDone ∧ w.getLsbD 1 = s.ieFault ∧
        w.extractLsb' 2 62 = 0) ∧
    State.reset.ieDone = false ∧ State.reset.ieFault = false

/-- R640: irq is exactly (IE_DONE and DONE) or (IE_FAULT and FAULT); so it falls when both causes are cleared or masked, and
when the next command is issued with no fault recorded. -/
def Obligations.IrqIsLevelOfFlags : Prop :=
  (∀ s : State, s.irq = true ↔ (s.ieDone = true ∧ s.done = true) ∨ (s.ieFault = true ∧ s.fault = true)) ∧
    (∀ s : State, ∀ w : Word, w.getLsbD 1 = true → w.getLsbD 2 = true → (s.writeStatus w).irq = false) ∧
    (∀ s : State, (s.writeCtrl 0).irq = false) ∧
    ∀ s : State, ∀ w : Word, s.fault = false → (s.issue w).irq = false

/-- R127: PRED0 to PRED2 through the register block: at a free core a read returns PRED[c] and changes nothing else, and a write
of any value sets PRED[c] and nothing else; while BUSY = 1 both wait. -/
def Obligations.PredRegisterAccess : Prop :=
  ∀ (s : State) (c : Channel) (later : List Arrival),
    (s.busy = false → ArrivingAccess s (readAt (0x30 + 8 * c.val)) later →
      ∃ t, step s = .next t ∧ Replied s t (s.pred c) later) ∧
    (∀ w, s.busy = false → ArrivingAccess s (writeAt (0x30 + 8 * c.val) w) later →
      ∃ t, step s = .next t ∧ t.pred c = w ∧ (∀ d, d ≠ c → t.pred d = s.pred d) ∧
        t = { s with pred0 := t.pred0, pred1 := t.pred1, pred2 := t.pred2, bus := { s.bus with arrivals := later } }) ∧
    ∀ a, (a = readAt (0x30 + 8 * c.val) ∨ ∃ w, a = writeAt (0x30 + 8 * c.val) w) → s.busy = true →
      ArrivingAccess s a later →
      step s = .next { s with bus := { s.bus with arrivals := later, held := s.bus.held ++ [a] } }

/-- R128: the DMEM window: at a free core a read of word a returns it and changes nothing else (of a word that nothing has
written, it returns some word), a write of w stores w in word a and changes no other byte and nothing else; while BUSY = 1
both wait. -/
def Obligations.DmemWindowAccess : Prop :=
  ∀ (s : State) (a : ℕ) (later : List Arrival), a < dmemWords →
    (∀ w, s.busy = false → s.mem.readWord a = some w → ArrivingAccess s (readAt (0x10000 + 8 * a)) later →
      ∃ t, step s = .next t ∧ Replied s t w later) ∧
    (s.busy = false → s.mem.readWord a = none → ArrivingAccess s (readAt (0x10000 + 8 * a)) later →
      ∃ t w, step s = .next t ∧ t.bus.replies = s.bus.replies ++ [w] ∧ { t with bus := s.bus } = s) ∧
    (∀ w, s.busy = false → ArrivingAccess s (writeAt (0x10000 + 8 * a) w) later →
      ∃ t, step s = .next t ∧ t = { s with mem := t.mem, bus := { s.bus with arrivals := later } } ∧
        t.mem.readWord a = some w ∧ ∀ key, key < 8 * a ∨ 8 * (a + 1) ≤ key → t.mem.readByte key = s.mem.readByte key) ∧
    ∀ x, (x = readAt (0x10000 + 8 * a) ∨ ∃ w, x = writeAt (0x10000 + 8 * a) w) → s.busy = true →
      ArrivingAccess s x later →
      step s = .next { s with bus := { s.bus with arrivals := later, held := s.bus.held ++ [x] } }

/-- R129: a read of a reserved offset returns 0, a write to one is ignored; neither faults, stalls or changes state, busy or
not. -/
def Obligations.ReservedOffsetsDoNothing : Prop :=
  ∀ (s : State) (offset : ℕ) (later : List Arrival), LegalOffset offset → ReservedOffset offset →
    (ArrivingAccess s (readAt offset) later → ∃ t, step s = .next t ∧ Replied s t 0 later) ∧
    ∀ w, ArrivingAccess s (writeAt offset w) later → step s = .next { s with bus := { s.bus with arrivals := later } }

/-- R120, R125, R126: ID always reads its constant, FCMD and FINFO read as they stand, and a write to one of the three is
ignored, busy or not; a read of CMD at a free core returns 0 (R121). -/
def Obligations.ReadOnlyRegisters : Prop :=
  ∀ (s : State) (later : List Arrival),
    (ArrivingAccess s (readAt 0x00) later → ∃ t, step s = .next t ∧ Replied s t 0x000000074A504331 later) ∧
    (ArrivingAccess s (readAt 0x20) later → ∃ t, step s = .next t ∧ Replied s t s.fcmd later) ∧
    (ArrivingAccess s (readAt 0x28) later → ∃ t, step s = .next t ∧ Replied s t s.finfo later) ∧
    (s.busy = false → ArrivingAccess s (readAt 0x08) later → ∃ t, step s = .next t ∧ Replied s t 0 later) ∧
    ∀ offset w, (offset = 0x00 ∨ offset = 0x20 ∨ offset = 0x28) → ArrivingAccess s (writeAt offset w) later →
      step s = .next { s with bus := { s.bus with arrivals := later } }

/-- R221: an access to the register block, wherever the platform puts it, that is narrower or wider than 64 bits, or misaligned,
has no move in the model: it is refused by name, busy or not. -/
def Obligations.MalformedAccessRefused : Prop :=
  ∀ (s : State) (a : HostAccess) (offset : ℕ) (later : List Arrival), Arriving s (.access a) later →
    a.address = Config.regBase + offset → offset < 0x90000 → a.size ≠ 8 ∨ offset % 8 ≠ 0 →
    step s = .refused (.busError offset a.size)

/-- 70_reset_and_hazards.md section 2, 93_implementation_defined.md I7: an otherwise legal access while the reset input is
asserted has no move in the model. -/
def Obligations.AccessDuringResetRefused : Prop :=
  ∀ (s : State) (a : HostAccess) (offset : ℕ) (later : List Arrival), s.bus.inReset = true → Arriving s (.access a) later →
    a.size = 8 → a.address = Config.regBase + offset → LegalOffset offset → step s = .refused .accessDuringReset

/-- R140, R701: asserting the reset input, at any time, puts every register to its reset value, leaves no DMEM word with a
value, abandons the command in flight and the accesses held, and hands each held read an unconstrained word. -/
def Obligations.ResetInputResets : Prop :=
  ∀ (s : State) (later : List Arrival), Arriving s (.reset true) later →
    ∃ t, step s = .next t ∧ t.pred0 = 0 ∧ t.pred1 = 0 ∧ t.pred2 = 0 ∧ t.busy = false ∧ t.done = false ∧ t.fault = false ∧
      t.lost = false ∧ t.fcode = 0 ∧ t.fcmd = 0 ∧ t.finfo = 0 ∧ t.ieDone = false ∧ t.ieFault = false ∧ t.irq = false ∧
      (∀ a, t.mem.readWord a = none) ∧ t.bus.held = [] ∧ t.bus.inReset = true ∧ t.bus.arrivals = later ∧
      ∃ drawn : List Word, drawn.length = readCount s.bus.held ∧ t.bus.replies = s.bus.replies ++ drawn

/-- 10_state.md section 5: the state right after reset. INFLIGHT, which the spec leaves unspecified, is not stated. -/
def Obligations.ResetState : Prop :=
  State.reset.pred0 = 0 ∧ State.reset.pred1 = 0 ∧ State.reset.pred2 = 0 ∧ State.reset.statusWord = 0 ∧
    State.reset.ctrlWord = 0 ∧ State.reset.fcmd = 0 ∧ State.reset.finfo = 0 ∧ State.reset.irq = false ∧
    ∀ a, State.reset.mem.readWord a = none

/-- The invariant holds right after reset. -/
def Obligations.InvariantAtReset : Prop := State.reset.Inv params

/-- Every step, of the host or of the core, from any state that meets the invariant, leads to one that meets it: DMEM in its
canonical form, FCODE = 0 exactly when FAULT = 0 and never 10 .. 255, FCMD = FINFO = 0 while FAULT = 0, DONE and FAULT never
both 1, a command in flight with DONE = FAULT = 0, and only waiting accesses held. -/
def Obligations.InvariantKept : Prop := ∀ s t : State, s.Inv params → step s = .next t → t.Inv params

/-- 60_exceptions.md section 8: a free core with nothing held and nothing arriving is idle. -/
def Obligations.IdleCoreStays : Prop :=
  ∀ s : State, s.busy = false → s.bus.held = [] → s.bus.arrivals = [] → step s = .next s

/-- 70_reset_and_hazards.md section 3: a command in flight ends: after at most one step for each arrival still to come and one
more, BUSY is 0, unless the model has stopped. -/
def Obligations.BusyEnds : Prop :=
  ∀ s : State, s.busy = true → ∃ k ≤ s.bus.arrivals.length + 1, ∀ t : State, Host.Core.run core k s = .next t → t.busy = false

/-! ### Round trips and bounds -/

/-- R463: ZZUNSCAN undoes ZZSCAN and ZZSCAN undoes ZZUNSCAN, on any 64 words. -/
def Obligations.ZigzagRoundTrip : Prop :=
  ∀ (f g : Fields) (s : State) (ws : List Word), f.plainLegal dmemWords 64 64 = true → g.plainLegal dmemWords 64 64 = true →
    g.src = f.dst → s.mem.readWords f.src.toNat 64 = some ws →
    (∃ t u, exec (.zzscan f) s = .next t ∧ exec (.zzunscan g) t = .next u ∧ u.mem.readWords g.dst.toNat 64 = some ws) ∧
    ∃ t u, exec (.zzunscan f) s = .next t ∧ exec (.zzscan g) t = .next u ∧ u.mem.readWords g.dst.toNat 64 = some ws

/-- R487: RLUNPACK, with PRED[CH] put back to what it was before RLPACK, returns the packed sequence exactly and leaves
PRED[CH] at its DC value. -/
def Obligations.PackerRoundTrip : Prop :=
  ∀ (f g : Fields) (s : State) (c : Channel) (ws : List Word), (Instr.rlpack f).wellFormed dmemWords = true →
    (Instr.rlunpack g).wellFormed dmemWords = true → g.src = f.dst → f.ch.toNat = c.val → g.ch = f.ch →
    s.mem.readWords f.src.toNat 64 = some ws →
    ∃ t u, exec (.rlpack f) s = .next t ∧ exec (.rlunpack g) (t.setPred c (s.pred c)) = .next u ∧
      u.mem.readWords g.dst.toNat 64 = some ws ∧ u.pred c = ws.getD 0 0

/-- R509, for every legal choice of the model arguments: ADEC returns the stream that AENC encoded. -/
def Obligations.CoderRoundTrip : Prop :=
  ∀ (p : Params) (f g : Fields) (s : State) (n : Word) (ws : List Word), p.legal = true →
    (Instr.aenc f).wellFormed p.dmemWords = true → (Instr.adec g).wellFormed p.dmemWords = true → g.src = f.dst →
    s.mem.readWord f.src.toNat = some n → s.mem.readWords (f.src.toNat + 1) n.toNat = some ws → RoundTripStream ws →
    ∃ t u, execAt p (.aenc f) s = .next t ∧ execAt p (.adec g) t = .next u ∧ u.mem.readWord g.dst.toNat = some n ∧
      u.mem.readWords (g.dst.toNat + 1) n.toNat = some ws

/-- R487, R509 joined: packing, encoding, decoding and unpacking a sequence, with PRED[CH] as at the start, returns it exactly
whenever no symbol of its stream has to be clipped. -/
def Obligations.EntropyPathLossless : Prop :=
  ∀ (fp fe fd fu : Fields) (s : State) (c : Channel) (ws : List Word), (Instr.rlpack fp).wellFormed dmemWords = true →
    (Instr.aenc fe).wellFormed dmemWords = true → (Instr.adec fd).wellFormed dmemWords = true →
    (Instr.rlunpack fu).wellFormed dmemWords = true → fe.src = fp.dst → fd.src = fe.dst → fu.src = fd.dst →
    fp.ch.toNat = c.val → fu.ch = fp.ch → s.mem.readWords fp.src.toNat 64 = some ws →
    SymbolsInDomain ([ws.getD 0 0 - s.pred c] ++ runValuePairs ws) →
    ∃ t1 t2 t3 t4, exec (.rlpack fp) s = .next t1 ∧ exec (.aenc fe) t1 = .next t2 ∧ exec (.adec fd) t2 = .next t3 ∧
      exec (.rlunpack fu) (t3.setPred c (s.pred c)) = .next t4 ∧ t4.mem.readWords fu.dst.toNat 64 = some ws ∧
      t4.pred c = ws.getD 0 0

/-- R502: what AENC and ADEC write, or the fault they raise, depends only on the operand words: two states that agree on them
give the same result words, whatever else they hold. -/
def Obligations.CoderDependsOnlyOnOperands : Prop :=
  ∀ (s s' t t' : State),
    (∀ (f : Fields) (n : Word) (ws : List Word), s.mem.readWord f.src.toNat = some n → s'.mem.readWord f.src.toNat = some n →
      s.mem.readWords (f.src.toNat + 1) n.toNat = some ws → s'.mem.readWords (f.src.toNat + 1) n.toNat = some ws →
      exec (.aenc f) s = .next t → exec (.aenc f) s' = .next t' →
      (s.fault = false → s'.fault = false → t.fault = t'.fault ∧ (t.fault = true → t.fcode = t'.fcode ∧ t.finfo = t'.finfo)) ∧
      (s.fault = false → t.fault = false → t.mem.readWords f.dst.toNat 33 = t'.mem.readWords f.dst.toNat 33)) ∧
    ∀ (f : Fields) (ws : List Word), s.mem.readWords f.src.toNat 33 = some ws → s'.mem.readWords f.src.toNat 33 = some ws →
      exec (.adec f) s = .next t → exec (.adec f) s' = .next t' →
      (s.fault = false → s'.fault = false → t.fault = t'.fault ∧ (t.fault = true → t.fcode = t'.fcode ∧ t.finfo = t'.finfo)) ∧
      (s.fault = false → t.fault = false → ∃ n : Word, t.mem.readWord f.dst.toNat = some n ∧
        t'.mem.readWord f.dst.toNat = some n ∧
        t.mem.readWords (f.dst.toNat + 1) n.toNat = t'.mem.readWords (f.dst.toNat + 1) n.toNat)

/-- 45_arith_coder.md section 4, for every legal choice of the model arguments: two streams whose symbols clip to the same
values encode to the same codeword; so 32 is coded as 31, and −33 as −32. -/
def Obligations.ClippedSymbolsEncodeAlike : Prop :=
  ∀ (p : Params) (f : Fields) (s s' : State) (n : Word) (ws ws' : List Word), p.legal = true →
    (Instr.aenc f).wellFormed p.dmemWords = true → n.toNat ≤ 129 →
    s.mem.readWord f.src.toNat = some n → s'.mem.readWord f.src.toNat = some n →
    s.mem.readWords (f.src.toNat + 1) n.toNat = some ws → s'.mem.readWords (f.src.toNat + 1) n.toNat = some ws' →
    ws.map (fun w => saturate (-32) 31 w.toInt) = ws'.map (fun w => saturate (-32) 31 w.toInt) →
    ∃ t t' cw, execAt p (.aenc f) s = .next t ∧ execAt p (.aenc f) s' = .next t' ∧ HoldsCodeword t f.dst.toNat cw ∧
      HoldsCodeword t' f.dst.toNat cw

/-- 45_arith_coder.md section 2, for every legal choice of the model arguments: the codeword of at most 129 symbols is below
2^2112 and lies strictly inside their interval. -/
def Obligations.CodewordInsideInterval : Prop :=
  ∀ (p : Params) (symbols : List ℤ), p.legal = true → symbols.length ≤ 129 →
    encodeSymbols p.cum symbols < 2 ^ 2112 ∧
      (ratInterval p.cum symbols).1 < (encodeSymbols p.cum symbols : ℚ) / 2 ^ 2112 ∧
      (encodeSymbols p.cum symbols : ℚ) / 2 ^ 2112 < (ratInterval p.cum symbols).2

/-- R501, for every legal choice of the model arguments: every v in [0, 1) lies in the interval of exactly one symbol, the
unique one whose counts enclose floor(2^16 · v), which is the one that the decoder looks up. -/
def Obligations.SymbolLookupUnique : Prop :=
  ∀ (p : Params) (v : ℚ), p.legal = true → 0 ≤ v → v < 1 →
    ∃ s : ℤ, (-32 ≤ s ∧ s ≤ 31) ∧ (∀ s' : ℤ, -32 ≤ s' → s' ≤ 31 →
        ((lowBound p.cum s' ≤ v ∧ v < highBound p.cum s') ↔ s' = s) ∧
        (((p.cum.getD (s' + 32).toNat 0 : ℤ) ≤ ⌊2 ^ 16 * v⌋ ∧ ⌊2 ^ 16 * v⌋ < (p.cum.getD (s' + 33).toNat 0 : ℤ)) ↔ s' = s)) ∧
      (symbolAt p.cum ⌊2 ^ 16 * v⌋.toNat : ℤ) - 32 = s

/-- R482: the stream that RLPACK writes has n = 3 + 2·m symbols for m non-zero AC words, so n is odd and 3 ≤ n ≤ 129. -/
def Obligations.RlpackStreamLength : Prop :=
  ∀ (f : Fields) (s t : State) (ws : List Word), (Instr.rlpack f).wellFormed dmemWords = true →
    s.mem.readWords f.src.toNat 64 = some ws → exec (.rlpack f) s = .next t →
    ∃ n : Word, t.mem.readWord f.dst.toNat = some n ∧ n.toNat = 3 + 2 * (ws.tail.filter (· != 0)).length ∧
      n.toNat % 2 = 1 ∧ 3 ≤ n.toNat ∧ n.toNat ≤ 129

/-- R444, for every legal choice of the model arguments: where the QDIV clamp does not act, QMUL of QDIV differs from the
coefficient by at most half a step; where it acts, by at least half a step (R444 says more than half, which is not so of a
coefficient of exactly 127.5 steps). -/
def Obligations.QuantizerHalfStep : Prop :=
  ∀ (p : Params) (f g : Fields) (s : State) (ws : List Word), p.legal = true → f.plainLegal p.dmemWords 64 64 = true →
    g.plainLegal p.dmemWords 64 64 = true → g.src = f.dst → s.mem.readWords f.src.toNat 64 = some ws →
    ∃ t u, execAt p (.qdiv f) s = .next t ∧ execAt p (.qmul g) t = .next u ∧ ∀ k : Fin 64,
      ∃ y : Word, u.mem.readWord (g.dst.toNat + k.val) = some y ∧
        ∀ l : ℤ, IsRne ((intAt ws k.val : ℚ) / (p.qtab.getD k.val 0 * 2 ^ 32)) l →
          let error := |(y.toInt : ℚ) / 2 ^ 32 - (intAt ws k.val : ℚ) / 2 ^ 32|
          let half := (p.qtab.getD k.val 0 : ℚ) / 2
          (-128 ≤ l ∧ l ≤ 127 → error ≤ half) ∧ (l < -128 ∨ 127 < l → half ≤ error)

/-- R402: with the default tables every CCFWD output is in −128 .. 128, c0 in −128 .. 127; so DCTF saturates none of them. -/
def Obligations.CcfwdRange : Prop :=
  ∀ (f : Fields) (s t : State), (Instr.ccfwd f).wellFormed dmemWords = true → exec (.ccfwd f) s = .next t →
    ∀ ch : Fin 3, ∀ k : Fin 64, ∃ w : Word, t.mem.readWord (f.dst.toNat + (64 * ch.val + k.val)) = some w ∧
      -128 ≤ w.toInt ∧ w.toInt ≤ (if ch = 0 then 127 else 128) ∧ saturate (-32768) 32767 w.toInt = w.toInt

/-- 41_transform.md section 2: no output of DCTF or DCTI wraps: below 2^51 and 2^56 in magnitude, whatever the operand. -/
def Obligations.TransformOutputsFit : Prop :=
  ∀ (f : Fields) (s t : State), f.plainLegal dmemWords 64 64 = true →
    (exec (.dctf f) s = .next t → ∀ k : Fin 64, ∃ w : Word, t.mem.readWord (f.dst.toNat + k.val) = some w ∧
      |w.toInt| < 2 ^ 51) ∧
    (exec (.dcti f) s = .next t → ∀ k : Fin 64, ∃ w : Word, t.mem.readWord (f.dst.toNat + k.val) = some w ∧
      |w.toInt| < 2 ^ 56)

/-- 41_transform.md section 2: DCTF of a uniform plane has all AC outputs 0, and its DC output is the rounding of
c · 64 · KD[0][0]^2 / 2^48. -/
def Obligations.DctfOfUniformPlane : Prop :=
  ∀ (f : Fields) (s : State) (w : Word), (Instr.dctf f).wellFormed dmemWords = true →
    s.mem.readWords f.src.toNat 64 = some (List.replicate 64 w) →
    ∃ t, exec (.dctf f) s = .next t ∧ (∀ k, 1 ≤ k → k < 64 → t.mem.readWord (f.dst.toNat + k) = some 0) ∧
      ∃ y : ℤ, IsRne ((saturate (-32768) 32767 w.toInt * 64 * kdEntry 0 0 ^ 2 : ℤ) / 2 ^ 48) y ∧
        t.mem.readWord f.dst.toNat = some (BitVec.ofInt 64 y)

/-- R424: for every plane with integer entries of magnitude at most 256, DCTI of DCTF returns coefficient words within 2^−22 of
the entries. -/
def Obligations.TransformNearInverse : Prop :=
  ∀ (f g : Fields) (s : State) (ws : List Word), f.plainLegal dmemWords 64 64 = true → g.plainLegal dmemWords 64 64 = true →
    g.src = f.dst → s.mem.readWords f.src.toNat 64 = some ws → (∀ k : Fin 64, |intAt ws k.val| ≤ 256) →
    ∃ t u, exec (.dctf f) s = .next t ∧ exec (.dcti g) t = .next u ∧ ∀ k : Fin 64, ∃ y : Word,
      u.mem.readWord (g.dst.toNat + k.val) = some y ∧ |(y.toInt : ℚ) / 2 ^ 32 - intAt ws k.val| ≤ 1 / 2 ^ 22

/-- R404 and 40_color.md section 1: with the default COLOR_M, MINV is the printed table; and for every legal choice of the model
arguments COLOR_M times MINV is the identity, exactly in ℚ. -/
def Obligations.MinvIsExactInverse : Prop :=
  (∀ i j : Fin 3, ((minvAt defaultColorM i.val j.val).num : ℚ) / (minvAt defaultColorM i.val j.val).den = inverseMatrix i j) ∧
    ∀ p : Params, p.legal = true → ∀ i j : Fin 3,
      ∑ l : Fin 3, ((colorAt p.colorM i.val l.val).num : ℚ) / (colorAt p.colorM i.val l.val).den *
        (((minvAt p.colorM l.val j.val).num : ℚ) / (minvAt p.colorM l.val j.val).den) = if i = j then 1 else 0

/-- The model's log 5: exec is the core at the spec's default model arguments, which are legal, and at the platform's REG_BASE (log 6). -/
def Obligations.ExecIsTheDefaultConfiguration : Prop :=
  params.legal = true ∧ (∀ i s, exec i s = execAt params i s) ∧ ∀ s, step s = stepAt params s
end

