-- ==== Sys2Proof/Laws/Arith.lean ====
section
/-! SUPPORT. The laws of the arithmetic primitives (R12, R20): clamp, rne, exact fractions, sums of products. -/

namespace Sys2Proof.Machine

theorem clamp_eq_max_min {v lo hi : Int} (h : lo ≤ hi) : clamp v lo hi = max lo (min v hi) := by
  unfold clamp
  split
  · omega
  · split <;> omega

theorem clamp_mem {v lo hi : Int} (h : lo ≤ hi) : lo ≤ clamp v lo hi ∧ clamp v lo hi ≤ hi := by
  unfold clamp
  split
  · omega
  · split <;> omega

theorem clamp_of_mem {v lo hi : Int} (h1 : lo ≤ v) (h2 : v ≤ hi) : clamp v lo hi = v := by
  unfold clamp
  split
  · omega
  · split <;> omega

/-- A stored result that fits in 64 bits reads back as itself (R20). -/
theorem s64_u64 {v : Int} (h1 : -2 ^ 63 ≤ v) (h2 : v < 2 ^ 63) : s64 (u64 v) = v := by
  rw [s64, u64, BitVec.toInt_ofInt]
  exact Int.bmod_eq_of_le_mul_two (by norm_num; omega) (by norm_num; omega)

/-- A word read as signed and stored again is the same word. -/
@[simp] theorem u64_s64 (w : Word) : u64 (s64 w) = w := by simp [u64, s64]

theorem s64_bounds (w : Word) : -2 ^ 63 ≤ s64 w ∧ s64 w < 2 ^ 63 := by
  have h1 := BitVec.two_mul_toInt_lt (x := w)
  have h2 := BitVec.le_two_mul_toInt (x := w)
  unfold s64
  norm_num at h1 h2 ⊢
  omega

@[simp] theorem u64_wrap64 (v : Int) : u64 (wrap64 v) = u64 v := by simp [wrap64]

/-- rneDiv is the rounding of R12. -/
theorem rneDiv_isRne (n : Int) {d : Nat} (hd : 0 < d) : IsRne ((n : ℚ) / d) (rneDiv n d) := by
  have hq : (0 : ℚ) < d := by exact_mod_cast hd
  have hdi : (0 : Int) < d := by exact_mod_cast hd
  have hr0 := Int.emod_nonneg n hdi.ne'
  have hr1 := Int.emod_lt_of_pos n hdi
  have he := Int.mul_ediv_add_emod n d
  set q := n / (d : Int) with hqd
  set r := n % (d : Int) with hrd
  have hv : (n : ℚ) / d = q + r / d := by
    have : (n : ℚ) = d * q + r := by exact_mod_cast he.symm
    rw [this]; field_simp
  have half : ∀ {k : Int}, ((n : ℚ) / d - k) = r / d - (k - q) := by intro k; rw [hv]; ring
  have hrn : (0 : ℚ) ≤ r / d := div_nonneg (by exact_mod_cast hr0) hq.le
  have hrl : (r : ℚ) / d < 1 := by rw [div_lt_one hq]; exact_mod_cast hr1
  have key : ∀ c : Int, ((r : ℚ) / d < 1 / 2 ↔ 2 * r < d) ∧ ((r : ℚ) / d = 1 / 2 ↔ 2 * r = d) := by
    intro _
    constructor
    · rw [div_lt_div_iff₀ hq two_pos, one_mul, mul_comm]; exact_mod_cast Iff.rfl
    · rw [div_eq_div_iff hq.ne' two_ne_zero, one_mul, mul_comm]; exact_mod_cast Iff.rfl
  obtain ⟨k1, k2⟩ := key 0
  have hdef : rneDiv n d = if 2 * r < d then q else if (d : Int) < 2 * r then q + 1 else if q % 2 = 0 then q else q + 1 := rfl
  rw [hdef]
  split
  · next h =>
    have := k1.2 h
    rw [IsRne, half, sub_self, sub_zero, abs_of_nonneg hrn]
    exact ⟨this.le, fun e => absurd e this.ne⟩
  · next h =>
    have h1 : ¬ (r : ℚ) / d < 1 / 2 := fun e => h (k1.1 e)
    split
    · next h' =>
      have h2 : (r : ℚ) / d ≠ 1 / 2 := fun e => by have := k2.1 e; omega
      have h3 : 1 / 2 < (r : ℚ) / d := lt_of_le_of_ne (not_lt.1 h1) (Ne.symm h2)
      rw [IsRne, half]
      push_cast
      rw [show (r : ℚ) / d - ((q : ℚ) + 1 - q) = -(1 - r / d) by ring, abs_neg, abs_of_nonneg (by linarith)]
      exact ⟨by linarith, fun e => absurd e (by linarith)⟩
    · next h' =>
      have h2 : (r : ℚ) / d = 1 / 2 := k2.2 (by omega)
      split
      · next hev =>
        rw [IsRne, half, sub_self, sub_zero, h2]
        exact ⟨by norm_num, fun _ => Int.even_iff.2 hev⟩
      · next hodd =>
        rw [IsRne, half, h2]
        push_cast
        rw [show (1 : ℚ) / 2 - ((q : ℚ) + 1 - q) = -(1 / 2) by ring, abs_neg]
        exact ⟨by norm_num, fun _ => by rw [Int.even_iff]; omega⟩

/-- There is only one rounding of a rational (R12). -/
theorem IsRne.unique {q : ℚ} {a b : Int} (ha : IsRne q a) (hb : IsRne q b) : a = b := by
  obtain ⟨a1, a2⟩ := ha
  obtain ⟨b1, b2⟩ := hb
  have ha' := abs_le.1 a1
  have hb' := abs_le.1 b1
  have h1 : (a : ℚ) - b ≤ 1 := by linarith [ha'.1, hb'.2]
  have h2 : (b : ℚ) - a ≤ 1 := by linarith [hb'.1, ha'.2]
  have h1' : a - b ≤ 1 := by exact_mod_cast h1
  have h2' : b - a ≤ 1 := by exact_mod_cast h2
  by_contra hne
  have hcase : a = b + 1 ∨ b = a + 1 := by omega
  have aux : ∀ {x y : Int}, IsRne q x → IsRne q y → x = y + 1 → False := by
    rintro x y ⟨x1, x2⟩ ⟨y1, y2⟩ hxy
    have hx := abs_le.1 x1
    have hy := abs_le.1 y1
    have hc : (x : ℚ) = y + 1 := by exact_mod_cast hxy
    have e1 : q - x = -(1 / 2) := by linarith [hx.1, hy.2]
    have e2 : q - y = 1 / 2 := by linarith [hx.1, hy.2]
    have evx := Int.even_iff.1 (x2 (by rw [e1, abs_neg]; norm_num))
    have evy := Int.even_iff.1 (y2 (by rw [e2]; norm_num))
    omega
  rcases hcase with h | h
  · exact aux ⟨a1, a2⟩ ⟨b1, b2⟩ h
  · exact aux ⟨b1, b2⟩ ⟨a1, a2⟩ h

end Sys2Proof.Machine

namespace Sys2Proof

/-- The rational number that a fraction stands for. -/
def Frac.toRat (a : Frac) : ℚ := a.num / a.den

@[simp] theorem Frac.toRat_ofInt (n : Int) : (Frac.ofInt n).toRat = n := by simp [Frac.toRat, Frac.ofInt]

theorem Frac.toRat_add {a b : Frac} (ha : 0 < a.den) (hb : 0 < b.den) : (Frac.add a b).toRat = a.toRat + b.toRat := by
  have h1 : (a.den : ℚ) ≠ 0 := by exact_mod_cast ha.ne'
  have h2 : (b.den : ℚ) ≠ 0 := by exact_mod_cast hb.ne'
  simp only [Frac.toRat, Frac.add]
  push_cast
  field_simp

theorem Frac.toRat_sub {a b : Frac} (ha : 0 < a.den) (hb : 0 < b.den) : (Frac.sub a b).toRat = a.toRat - b.toRat := by
  have h1 : (a.den : ℚ) ≠ 0 := by exact_mod_cast ha.ne'
  have h2 : (b.den : ℚ) ≠ 0 := by exact_mod_cast hb.ne'
  simp only [Frac.toRat, Frac.sub]
  push_cast
  field_simp

@[simp] theorem Frac.toRat_mul (a b : Frac) : (Frac.mul a b).toRat = a.toRat * b.toRat := by
  simp only [Frac.toRat, Frac.mul]
  push_cast
  rw [div_mul_div_comm]

@[simp] theorem Frac.den_ofInt (n : Int) : (Frac.ofInt n).den = 1 := rfl

theorem Frac.den_add_pos {a b : Frac} (ha : 0 < a.den) (hb : 0 < b.den) : 0 < (Frac.add a b).den := Nat.mul_pos ha hb

theorem Frac.den_sub_pos {a b : Frac} (ha : 0 < a.den) (hb : 0 < b.den) : 0 < (Frac.sub a b).den := Nat.mul_pos ha hb

theorem Frac.den_mul_pos {a b : Frac} (ha : 0 < a.den) (hb : 0 < b.den) : 0 < (Frac.mul a b).den := Nat.mul_pos ha hb

theorem Frac.den_div_pos {a b : Frac} (ha : 0 < a.den) (hb : b.num ≠ 0) : 0 < (Frac.div a b).den :=
  Nat.mul_pos ha (Int.natAbs_pos.2 hb)

/-- The quotient of two fractions is the quotient of their rationals. -/
theorem Frac.toRat_div {a b : Frac} (ha : 0 < a.den) (hb : 0 < b.den) (hn : b.num ≠ 0) :
    (Frac.div a b).toRat = a.toRat / b.toRat := by
  have h1 : (a.den : ℚ) ≠ 0 := by exact_mod_cast ha.ne'
  have h2 : (b.den : ℚ) ≠ 0 := by exact_mod_cast hb.ne'
  have h3 : (b.num : ℚ) ≠ 0 := by exact_mod_cast hn
  have h4 : (b.num.sign : ℚ) * b.num = (b.num.natAbs : ℚ) := by
    rw [← Int.cast_mul, Int.sign_mul_self_eq_natAbs, Int.cast_natCast]
  have h5 : (b.num.natAbs : ℚ) ≠ 0 := by exact_mod_cast (Int.natAbs_pos.2 hn).ne'
  simp only [Frac.toRat, Frac.div, Int.cast_mul, Nat.cast_mul, Int.cast_natCast]
  rw [div_div_div_eq, div_eq_div_iff (mul_ne_zero h1 h5) (mul_ne_zero h1 h3), ← h4]
  ring

theorem Frac.den_reduce_pos {a : Frac} (ha : 0 < a.den) : 0 < (Frac.reduce a).den :=
  Nat.div_pos (Nat.le_of_dvd ha (Nat.gcd_dvd_right _ _)) (Nat.gcd_pos_of_pos_right _ ha)

/-- Lowest terms are the same rational. -/
@[simp] theorem Frac.toRat_reduce (a : Frac) : (Frac.reduce a).toRat = a.toRat := by
  have hn : (Nat.gcd a.num.natAbs a.den : ℤ) ∣ a.num :=
    Int.natCast_dvd.2 (Nat.gcd_dvd_left _ _)
  have hd : Nat.gcd a.num.natAbs a.den ∣ a.den := Nat.gcd_dvd_right _ _
  rcases Nat.eq_zero_or_pos (Nat.gcd a.num.natAbs a.den) with h0 | h0
  · have hz := Nat.gcd_eq_zero_iff.1 h0
    simp [Frac.toRat, Frac.reduce, hz.2]
  · have hq : (Nat.gcd a.num.natAbs a.den : ℚ) ≠ 0 := by exact_mod_cast h0.ne'
    simp only [Frac.toRat, Frac.reduce]
    rw [Int.cast_div hn (by exact_mod_cast h0.ne'), Nat.cast_div hd hq]
    push_cast
    rw [div_div_div_cancel_right₀ hq]

/-- The rounding of a fraction is the rounding of its rational (R12). -/
theorem Frac.rne_isRne {a : Frac} (ha : 0 < a.den) : Machine.IsRne a.toRat a.rne := Machine.rneDiv_isRne a.num ha

end Sys2Proof

namespace Sys2Proof.Machine

/-- A sum of products over two lists of one length is the finite sum of the products of their entries. -/
theorem dot_eq_sum (as bs : List Int) (h : as.length = bs.length) :
    dot as bs = ∑ k ∈ Finset.range as.length, as.getD k 0 * bs.getD k 0 := by
  induction as generalizing bs with
  | nil => simp [dot]
  | cons a as ih =>
    cases bs with
    | nil => simp at h
    | cons b bs =>
      simp only [List.length_cons, Nat.add_right_cancel_iff] at h
      rw [dot, ih bs h, List.length_cons, Finset.sum_range_succ']
      simp [add_comm]

end Sys2Proof.Machine
end

