-- ==== Sys2Proof/Laws/Memory.lean ====
section
/-! SUPPORT. The laws of memory: lanes and words, a read after a write, frames, and the canonical form. -/

namespace Sys2Proof.Machine

/-! ### Byte lanes (R210) -/

@[simp] theorem bytesOfNat_length (count v : Nat) : (bytesOfNat count v).length = count := by
  induction count generalizing v with
  | zero => rfl
  | succ n ih => simp [bytesOfNat, ih]

theorem natOfBytes_bytesOfNat (count v : Nat) : natOfBytes (bytesOfNat count v) = v % 256 ^ count := by
  induction count generalizing v with
  | zero => simp [bytesOfNat, natOfBytes, Nat.mod_one]
  | succ n ih =>
    have h : v % 256 ^ (n + 1) = v % 256 + 256 * (v / 256 % 256 ^ n) := by
      rw [pow_succ', Nat.mod_mul]
    simp [bytesOfNat, natOfBytes, ih, h]

@[simp] theorem bytesOfWord_length (w : Word) : (bytesOfWord w).length = 8 := by simp [bytesOfWord]

@[simp] theorem wordOfLanes (w : Word) : BitVec.ofNat 64 (natOfBytes (bytesOfWord w)) = w := by
  have h : w.toNat % 256 ^ 8 = w.toNat := Nat.mod_eq_of_lt (by have := w.isLt; norm_num; omega)
  rw [bytesOfWord, natOfBytes_bytesOfNat, h]
  simp

@[simp] theorem bytesOfWords_nil : bytesOfWords [] = [] := rfl

@[simp] theorem bytesOfWords_cons (w : Word) (ws : List Word) :
    bytesOfWords (w :: ws) = bytesOfWord w ++ bytesOfWords ws := rfl

theorem bytesOfWords_append (us ws : List Word) : bytesOfWords (us ++ ws) = bytesOfWords us ++ bytesOfWords ws := by
  simp [bytesOfWords]

@[simp] theorem bytesOfWords_length (ws : List Word) : (bytesOfWords ws).length = 8 * ws.length := by
  induction ws with
  | nil => rfl
  | cons w ws ih => simp [ih]; omega

@[simp] theorem wordsOfBytes_length (count : Nat) (bs : List Byte) : (wordsOfBytes count bs).length = count := by
  induction count generalizing bs with
  | zero => rfl
  | succ n ih => simp [wordsOfBytes, ih]

/-- Words cut into lanes and put together again are the same words. -/
@[simp] theorem wordsOfBytes_bytesOfWords (ws : List Word) : wordsOfBytes ws.length (bytesOfWords ws) = ws := by
  induction ws with
  | nil => rfl
  | cons w ws ih =>
    have h1 : (bytesOfWord w ++ bytesOfWords ws).take 8 = bytesOfWord w := by
      simp
    have h2 : (bytesOfWord w ++ bytesOfWords ws).drop 8 = bytesOfWords ws := by
      simp
    simp only [List.length_cons, wordsOfBytes, bytesOfWords_cons, h1, h2, ih, wordOfLanes]

/-! ### Cells -/

theorem cellsFrom_keys (lo : Nat) (bs : List Byte) : (cellsFrom lo bs).map Prod.fst = List.range' lo bs.length := by
  induction bs generalizing lo with
  | nil => rfl
  | cons b bs ih => simp [cellsFrom, ih, List.range'_succ]

theorem cellsFrom_bytes (lo : Nat) (bs : List Byte) : (cellsFrom lo bs).map Prod.snd = bs := by
  induction bs generalizing lo with
  | nil => rfl
  | cons b bs ih => simp [cellsFrom, ih]

theorem cellsFrom_append (lo : Nat) (as bs : List Byte) :
    cellsFrom lo (as ++ bs) = cellsFrom lo as ++ cellsFrom (lo + as.length) bs := by
  induction as generalizing lo with
  | nil => simp [cellsFrom]
  | cons a as ih => simp [cellsFrom, ih]; congr 1; omega

theorem mem_cellsFrom {lo : Nat} {bs : List Byte} {c : Host.Cell} (h : c ∈ cellsFrom lo bs) :
    lo ≤ c.1 ∧ c.1 < lo + bs.length := by
  have h1 : c.1 ∈ (cellsFrom lo bs).map Prod.fst := List.mem_map_of_mem h
  rw [cellsFrom_keys] at h1
  simpa using h1

theorem lookup_cellsFrom (lo : Nat) (bs : List Byte) (key : Nat) (h : lo ≤ key) :
    (cellsFrom lo bs).lookup key = bs[key - lo]? := by
  induction bs generalizing lo with
  | nil => simp [cellsFrom]
  | cons b bs ih =>
    by_cases hk : key = lo
    · subst hk; simp [cellsFrom]
    · have e : key - lo = (key - (lo + 1)) + 1 := by omega
      have hb : (key == lo) = false := by simpa using hk
      rw [cellsFrom, List.lookup_cons, hb, e, List.getElem?_cons_succ]
      exact ih (lo + 1) (by omega)

theorem lookup_filter {m : Memory} {q : Nat → Bool} {key : Nat} (h : q key = true) :
    (m.filter fun c => q c.1).lookup key = m.lookup key := by
  induction m with
  | nil => rfl
  | cons c m ih =>
    by_cases hc : key = c.1
    · obtain ⟨k, v⟩ := c
      subst hc
      simp [h]
    · have hb : (key == c.1) = false := by simpa using hc
      rw [List.lookup_cons, hb, List.filter_cons]
      split
      · rw [List.lookup_cons, hb]; exact ih
      · exact ih

theorem lookup_eq_none_of_notMem {m : Memory} {key : Nat} (h : ∀ c ∈ m, c.1 ≠ key) : m.lookup key = none := by
  induction m with
  | nil => rfl
  | cons c m ih =>
    have hb : (key == c.1) = false := by
      have := h c (by simp)
      simpa using fun e => this e.symm
    rw [List.lookup_cons, hb]
    exact ih fun d hd => h d (by simp [hd])

theorem lookup_append (a b : Memory) (key : Nat) : (a ++ b).lookup key = (a.lookup key).or (b.lookup key) := by
  induction a with
  | nil => simp
  | cons c a ih =>
    by_cases hc : key = c.1
    · obtain ⟨k, v⟩ := c
      subst hc
      simp
    · have hb : (key == c.1) = false := by simpa using hc
      rw [List.cons_append, List.lookup_cons, hb, ih, List.lookup_cons, hb]

/-! ### One byte after a write -/

/-- A byte after a write: the byte stored there, or the byte before (R222, R231). -/
theorem Memory.readByte_writeBytes (m : Memory) (lo : Nat) (bs : List Byte) (key : Nat) :
    (m.writeBytes lo bs).readByte key =
      if lo ≤ key ∧ key < lo + bs.length then bs[key - lo]? else m.readByte key := by
  have hfst : ∀ k, k ≥ lo → (m.filter fun c => decide (c.1 < lo)).lookup k = none := fun k hk =>
    lookup_eq_none_of_notMem fun c hc => by
      have := (List.mem_filter.1 hc).2
      simp only [decide_eq_true_eq] at this
      omega
  have hlst : ∀ k, k < lo + bs.length → (m.filter fun c => decide (lo + bs.length ≤ c.1)).lookup k = none :=
    fun k hk => lookup_eq_none_of_notMem fun c hc => by
      have := (List.mem_filter.1 hc).2
      simp only [decide_eq_true_eq] at this
      omega
  have hmid : ∀ k, k < lo ∨ lo + bs.length ≤ k → (cellsFrom lo bs).lookup k = none := fun k hk =>
    lookup_eq_none_of_notMem fun c hc => by
      have := mem_cellsFrom hc
      omega
  unfold Memory.readByte Memory.writeBytes
  rw [lookup_append, lookup_append]
  split
  · next h => rw [hfst key h.1, hlst key h.2, lookup_cellsFrom lo bs key h.1]; simp
  · next h =>
    by_cases hl : key < lo
    · rw [hmid key (.inl hl), hlst key (by omega)]
      rw [lookup_filter (q := fun k => decide (k < lo)) (by simpa using hl)]; simp
    · rw [hmid key (.inr (by omega)), hfst key (by omega)]
      rw [lookup_filter (q := fun k => decide (lo + bs.length ≤ k)) (by simp; omega)]; simp

/-- FRAME of a store: every byte outside the stored words reads as before. -/
theorem Memory.readByte_writeWords_outside (m : Memory) (a : Nat) (ws : List Word) (key : Nat)
    (h : key < 8 * a ∨ 8 * (a + ws.length) ≤ key) : (m.writeWords a ws).readByte key = m.readByte key := by
  rw [Memory.writeWords, Memory.readByte_writeBytes, if_neg]
  simp; omega

/-- The byte lanes of the stored words (R210). -/
theorem Memory.readByte_writeWords_inside (m : Memory) (a : Nat) (ws : List Word) (key : Nat)
    (h : 8 * a ≤ key ∧ key < 8 * (a + ws.length)) :
    (m.writeWords a ws).readByte key = (bytesOfWords ws)[key - 8 * a]? := by
  rw [Memory.writeWords, Memory.readByte_writeBytes, if_pos]
  simp; omega

/-! ### Words after a write -/

theorem Memory.between_append (a b : Memory) (lo hi : Nat) :
    Memory.between (a ++ b) lo hi = Memory.between a lo hi ++ Memory.between b lo hi := by
  simp [Memory.between]

theorem Memory.between_cellsFrom_outside {lo : Nat} {bs : List Byte} {l h : Nat} (hd : h ≤ lo ∨ lo + bs.length ≤ l) :
    Memory.between (cellsFrom lo bs) l h = [] := by
  rw [Memory.between, List.filter_eq_nil_iff]
  intro c hc
  have := mem_cellsFrom hc
  simp; omega

theorem Memory.between_cellsFrom_inside {lo : Nat} {bs : List Byte} {l h : Nat} (h1 : l ≤ lo) (h2 : lo + bs.length ≤ h) :
    Memory.between (cellsFrom lo bs) l h = cellsFrom lo bs := by
  rw [Memory.between, List.filter_eq_self]
  intro c hc
  have := mem_cellsFrom hc
  simp; omega

theorem Memory.between_filter_outside (m : Memory) (q : Nat → Bool) (l h : Nat) (hq : ∀ k, l ≤ k → k < h → q k = false) :
    Memory.between (m.filter fun c => q c.1) l h = [] := by
  rw [Memory.between, List.filter_eq_nil_iff]
  intro c hc
  have hc := (List.mem_filter.1 hc).2
  by_cases h1 : l ≤ c.1 <;> by_cases h2 : c.1 < h <;> simp [h1, h2]
  simp [hq c.1 h1 h2] at hc

theorem Memory.between_filter_inside (m : Memory) (q : Nat → Bool) (l h : Nat) (hq : ∀ k, l ≤ k → k < h → q k = true) :
    Memory.between (m.filter fun c => q c.1) l h = Memory.between m l h := by
  rw [Memory.between, Memory.between, List.filter_filter]
  congr 1
  funext c
  by_cases h1 : l ≤ c.1 <;> by_cases h2 : c.1 < h <;> simp [h1, h2]
  exact hq c.1 h1 h2

/-- A read of words inside the words just stored gives what was stored. -/
theorem Memory.readWords_writeWords_inside (m : Memory) (a : Nat) (pre ws post : List Word) :
    (m.writeWords a (pre ++ ws ++ post)).readWords (a + pre.length) ws.length = some ws := by
  have hb : Memory.between (m.writeWords a (pre ++ ws ++ post)) (8 * (a + pre.length)) (8 * (a + pre.length + ws.length)) =
      cellsFrom (8 * (a + pre.length)) (bytesOfWords ws) := by
    rw [Memory.writeWords, Memory.writeBytes, Memory.between_append, Memory.between_append, bytesOfWords_append,
      bytesOfWords_append, cellsFrom_append, cellsFrom_append, Memory.between_append, Memory.between_append]
    rw [Memory.between_filter_outside m (fun k => decide (k < 8 * a)) _ _ (by intro k h1 _; simp; omega),
      Memory.between_cellsFrom_outside (by simp; omega),
      Memory.between_cellsFrom_outside (bs := bytesOfWords post) (by simp; omega),
      Memory.between_filter_outside m
        (fun k => decide (8 * a + (bytesOfWords pre ++ bytesOfWords ws ++ bytesOfWords post).length ≤ k)) _ _
        (by intro k _ h2; simp; omega),
      Memory.between_cellsFrom_inside (by simp; omega) (by simp; omega)]
    simp [mul_add]
  simp only [Memory.readWords, hb, cellsFrom_keys, cellsFrom_bytes]
  simp

/-- A read of the words just stored gives what was stored. -/
theorem Memory.readWords_writeWords (m : Memory) (a : Nat) (ws : List Word) :
    (m.writeWords a ws).readWords a ws.length = some ws := by
  simpa using Memory.readWords_writeWords_inside m a [] ws []

/-- A read of words apart from the words just stored gives what it gave before. -/
theorem Memory.readWords_writeWords_outside (m : Memory) (a b count : Nat) (ws : List Word)
    (h : b + count ≤ a ∨ a + ws.length ≤ b) : (m.writeWords a ws).readWords b count = m.readWords b count := by
  have hb : Memory.between (m.writeWords a ws) (8 * b) (8 * (b + count)) = Memory.between m (8 * b) (8 * (b + count)) := by
    rw [Memory.writeWords, Memory.writeBytes, Memory.between_append, Memory.between_append,
      Memory.between_cellsFrom_outside (by simp; omega)]
    rcases h with h | h
    · rw [Memory.between_filter_inside m (fun k => decide (k < 8 * a)) _ _ (by intro k _ h2; simp; omega),
        Memory.between_filter_outside m (fun k => decide (8 * a + (bytesOfWords ws).length ≤ k)) _ _
          (by intro k _ h2; simp; omega)]
      simp
    · rw [Memory.between_filter_outside m (fun k => decide (k < 8 * a)) _ _ (by intro k h1 _; simp; omega),
        Memory.between_filter_inside m (fun k => decide (8 * a + (bytesOfWords ws).length ≤ k)) _ _
          (by intro k h1 _; simp; omega)]
      simp
  simp only [Memory.readWords, hb]

/-- Word k of the words just stored. -/
theorem Memory.readWord_writeWords (m : Memory) (a k : Nat) (ws : List Word) (h : k < ws.length) :
    (m.writeWords a ws).readWord (a + k) = some ws[k] := by
  have e : ws = ws.take k ++ [ws[k]] ++ ws.drop (k + 1) := by
    rw [List.append_assoc, List.singleton_append, List.getElem_cons_drop, List.take_append_drop]
  have := Memory.readWords_writeWords_inside m a (ws.take k) [ws[k]] (ws.drop (k + 1))
  rw [← e] at this
  have hl : (ws.take k).length = k := by simp; omega
  rw [hl] at this
  simp only [List.length_singleton] at this
  rw [Memory.readWord, this]
  rfl

/-- A word apart from the words just stored. -/
theorem Memory.readWord_writeWords_outside (m : Memory) (a b : Nat) (ws : List Word) (h : b < a ∨ a + ws.length ≤ b) :
    (m.writeWords a ws).readWord b = m.readWord b := by
  rw [Memory.readWord, Memory.readWords_writeWords_outside m a b 1 ws (by omega), Memory.readWord]

theorem Memory.readWords_length {m : Memory} {a count : Nat} {ws : List Word} (h : m.readWords a count = some ws) :
    ws.length = count := by
  simp only [Memory.readWords] at h
  split at h
  · cases h; simp
  · cases h

@[simp] theorem Memory.readWords_zero (m : Memory) (a : Nat) : m.readWords a 0 = some [] := by
  have : Memory.between m (8 * a) (8 * a) = [] := by
    rw [Memory.between, List.filter_eq_nil_iff]; intro c _; simp
  simp [Memory.readWords, this, wordsOfBytes]

/-! ### The canonical form -/

theorem Memory.wfIn_nil (words : Nat) : Memory.wfIn [] words := by simp [Memory.wfIn]

/-- Every store inside DMEM keeps the canonical form. -/
theorem Memory.wfIn_writeWords {m : Memory} {words a : Nat} {ws : List Word} (h : m.wfIn words) (ha : a + ws.length ≤ words) :
    (m.writeWords a ws).wfIn words := by
  obtain ⟨hs, hk⟩ := h
  have hlen := bytesOfWords_length ws
  have hmem : ∀ c : Host.Cell, c ∈ m.writeWords a ws ↔
      (c ∈ m ∧ c.1 < 8 * a) ∨ c ∈ cellsFrom (8 * a) (bytesOfWords ws) ∨ (c ∈ m ∧ 8 * (a + ws.length) ≤ c.1) := by
    intro c
    simp [Memory.writeWords, Memory.writeBytes, mul_add]
  have hkey : ∀ k : Nat, k ∈ (m.writeWords a ws).map Prod.fst ↔
      (k ∈ m.map Prod.fst ∧ k < 8 * a) ∨ (8 * a ≤ k ∧ k < 8 * (a + ws.length)) ∨
        (k ∈ m.map Prod.fst ∧ 8 * (a + ws.length) ≤ k) := by
    intro k
    have hc : (∃ c ∈ cellsFrom (8 * a) (bytesOfWords ws), c.1 = k) ↔ 8 * a ≤ k ∧ k < 8 * (a + ws.length) := by
      rw [← List.mem_map, cellsFrom_keys, hlen, List.mem_range'_1, mul_add]
    constructor
    · intro hk'
      obtain ⟨c, hc', rfl⟩ := List.mem_map.1 hk'
      rcases (hmem c).1 hc' with h1 | h1 | h1
      · exact .inl ⟨List.mem_map_of_mem h1.1, h1.2⟩
      · exact .inr (.inl (hc.1 ⟨c, h1, rfl⟩))
      · exact .inr (.inr ⟨List.mem_map_of_mem h1.1, h1.2⟩)
    · rintro (⟨h1, h2⟩ | h1 | ⟨h1, h2⟩)
      · obtain ⟨c, hc', rfl⟩ := List.mem_map.1 h1
        exact List.mem_map_of_mem ((hmem c).2 (.inl ⟨hc', h2⟩))
      · obtain ⟨c, hc', rfl⟩ := hc.2 h1
        exact List.mem_map_of_mem ((hmem c).2 (.inr (.inl hc')))
      · obtain ⟨c, hc', rfl⟩ := List.mem_map.1 h1
        exact List.mem_map_of_mem ((hmem c).2 (.inr (.inr ⟨hc', h2⟩)))
  refine ⟨?_, ?_⟩
  · rw [Memory.writeWords, Memory.writeBytes, List.pairwise_append, List.pairwise_append]
    refine ⟨⟨hs.filter _, ?_, ?_⟩, hs.filter _, ?_⟩
    · rw [← List.pairwise_map (f := Prod.fst) (R := (· < ·)), cellsFrom_keys]
      exact List.pairwise_lt_range'
    · intro c hc d hd
      have h1 := (List.mem_filter.1 hc).2
      have h2 := mem_cellsFrom hd
      simp only [decide_eq_true_eq] at h1
      omega
    · intro c hc d hd
      have h2 := (List.mem_filter.1 hd).2
      simp only [decide_eq_true_eq] at h2
      rcases List.mem_append.1 hc with hc | hc
      · have h1 := (List.mem_filter.1 hc).2
        simp only [decide_eq_true_eq] at h1
        omega
      · have h1 := mem_cellsFrom hc
        omega
  · intro c hc
    have hk1 := (hkey c.1).1 (List.mem_map_of_mem hc)
    have hold : c.1 ∈ m.map Prod.fst → c.1 < 8 * words ∧ ∀ lane ∈ List.range 8, 8 * (c.1 / 8) + lane ∈ m.map Prod.fst := by
      intro hm
      obtain ⟨d, hd, e⟩ := List.mem_map.1 hm
      have := hk d hd
      rwa [e] at this
    constructor
    · rcases hk1 with h1 | h1 | h1
      · exact (hold h1.1).1
      · omega
      · exact (hold h1.1).1
    · intro lane hl
      have hl8 := List.mem_range.1 hl
      rw [hkey]
      rcases hk1 with h1 | h1 | h1
      · exact .inl ⟨(hold h1.1).2 lane hl, by omega⟩
      · exact .inr (.inl (by omega))
      · exact .inr (.inr ⟨(hold h1.1).2 lane hl, by omega⟩)

end Sys2Proof.Machine
end

