-- ==== Sys2Proof/Laws/Operands.lean ====
section
/-! SUPPORT. What each shared phase of a command can do, once: the check phase, the read phases, the channel, and the shape of
the plane, tile and sequence commands. -/

namespace Sys2Proof.Machine

/-- A command that passes the command-level checks: no field breaks R303, CH is a channel, both footprints lie in DMEM. -/
theorem commandCheck_none {words : Nat} {fp : Footprint} {f : Fields} (h : commandCheck words fp f = none) :
    f.rsv0 = 0 ∧ f.rsv1 = 0 ∧ (fp.usesCh = false → f.ch = 0) ∧ (fp.srcLen = 0 → f.src = 0) ∧ (fp.dstLen = 0 → f.dst = 0) ∧
      (fp.usesCh = true → f.ch ≠ 3) ∧ (0 < fp.srcLen → f.src.toNat + fp.srcLen ≤ words) ∧
      (0 < fp.dstLen → f.dst.toNat + fp.dstLen ≤ words) := by
  unfold commandCheck at h
  split at h
  · cases h
  · next h1 =>
    split at h
    · cases h
    · next h2 =>
      split at h
      · cases h
      · next h3 =>
        split at h
        · cases h
        · next h4 =>
          simp only [not_or, not_and, not_not, not_lt, ne_eq] at h1 h2 h3 h4
          exact ⟨h1.1, h1.2.1, h1.2.2.1, h1.2.2.2.1, h1.2.2.2.2, h2, h3, h4⟩

/-- The only faults of the command-level checks (R620, items 2 to 5) and their information words (R601). -/
theorem commandCheck_some {words : Nat} {fp : Footprint} {f : Fields} {c : CoreFault} {x : Word}
    (h : commandCheck words fp f = some (c, x)) :
    (c = .reservedField ∧ x = 0) ∨ (c = .badChannel ∧ x = 0) ∨ (c = .addrRange ∧ (x = 0 ∨ x = 1)) := by
  unfold commandCheck at h
  repeat' split at h
  all_goals simp at h
  all_goals obtain ⟨rfl, rfl⟩ := h
  all_goals simp

/-- The check phase ends the command with a fault, or the command goes on (R14, R610). -/
theorem checked_cases {p : Params} {fp : Footprint} {f : Fields} {s t : State} {body : Result}
    (h : checked p fp f s body = .next t) :
    (∃ c x, commandCheck p.dmemWords fp f = some (c, x) ∧ t = s.raise c x) ∨
      (commandCheck p.dmemWords fp f = none ∧ body = .next t) := by
  unfold checked at h
  split at h
  · next c x hc => exact .inl ⟨c, x, hc, by injection h with h; exact h.symm⟩
  · next hc => exact .inr ⟨hc, h⟩

theorem checked_of_none {p : Params} {fp : Footprint} {f : Fields} {s : State} {body : Result}
    (h : commandCheck p.dmemWords fp f = none) : checked p fp f s body = body := by
  rw [checked, h]

theorem checked_of_some {p : Params} {fp : Footprint} {f : Fields} {s : State} {body : Result} {c : CoreFault} {x : Word}
    (h : commandCheck p.dmemWords fp f = some (c, x)) : checked p fp f s body = .next (s.raise c x) := by
  rw [checked, h]

/-- A read phase that goes on has read every word (R141, R311). -/
theorem withWords_cases {s t : State} {a count : Nat} {body : List Word → Result}
    (h : withWords s a count body = .next t) : ∃ ws, s.mem.readWords a count = some ws ∧ body ws = .next t := by
  unfold withWords at h
  split at h
  · next ws hw => exact ⟨ws, hw, h⟩
  · cases h

theorem withWords_of_some {s : State} {a count : Nat} {body : List Word → Result} {ws : List Word}
    (h : s.mem.readWords a count = some ws) : withWords s a count body = body ws := by
  rw [withWords, h]

theorem withWords_of_none {s : State} {a count : Nat} {body : List Word → Result}
    (h : s.mem.readWords a count = none) :
    withWords s a count body = .fault (.unwrittenDmem (s.mem.firstUnwritten a count)) := by
  rw [withWords, h]

/-- A read of one word is the read of that word. -/
theorem Memory.readWords_one {m : Memory} {a : Nat} {w : Word} (h : m.readWord a = some w) : m.readWords a 1 = some [w] := by
  unfold Memory.readWord at h
  cases hr : m.readWords a 1 with
  | none => rw [hr] at h; cases h
  | some l =>
    rw [hr] at h
    have hl := Memory.readWords_length hr
    match l, hl with
    | [x], _ =>
      simp at h
      rw [h]

/-- A stream operand is in bounds and read, or STREAM_LENGTH(n) ends the command (R485, R503). -/
theorem withStream_cases {s t : State} {a least : Nat} {body : Word → List Word → Result}
    (h : withStream s a least body = .next t) :
    ∃ n, s.mem.readWords a 1 = some [n] ∧
      (((n.toNat < least ∨ maxSymbols < n.toNat) ∧ t = s.raise .streamLength n) ∨
        (least ≤ n.toNat ∧ n.toNat ≤ maxSymbols ∧
          ∃ ws, s.mem.readWords (a + 1) n.toNat = some ws ∧ body n ws = .next t)) := by
  unfold withStream at h
  obtain ⟨l, hl, h⟩ := withWords_cases h
  have hlen := Memory.readWords_length hl
  match l, hlen with
  | [n], _ =>
    refine ⟨n, hl, ?_⟩
    change withSymbols s (a + 1) least n (body n) = .next t at h
    unfold withSymbols at h
    split at h
    · next hb => exact .inl ⟨hb, by injection h with h; exact h.symm⟩
    · next hb =>
      simp only [not_or, not_lt] at hb
      exact .inr ⟨hb.1, hb.2, withWords_cases h⟩

theorem withStream_of_bad {s : State} {a least : Nat} {body : Word → List Word → Result} {n : Word}
    (hn : s.mem.readWord a = some n) (hb : n.toNat < least ∨ maxSymbols < n.toNat) :
    withStream s a least body = .next (s.raise .streamLength n) := by
  rw [withStream, withWords_of_some (Memory.readWords_one hn)]
  exact if_pos hb

theorem withStream_of_good {s : State} {a least : Nat} {body : Word → List Word → Result} {n : Word} {ws : List Word}
    (hn : s.mem.readWord a = some n) (hl : least ≤ n.toNat) (hm : n.toNat ≤ maxSymbols)
    (hw : s.mem.readWords (a + 1) n.toNat = some ws) : withStream s a least body = body n ws := by
  rw [withStream, withWords_of_some (Memory.readWords_one hn)]
  change withSymbols s (a + 1) least n (body n) = body n ws
  rw [withSymbols, if_neg (by omega), withWords_of_some hw]

/-- CH names a channel exactly when it is not 3 (R104, R305). -/
theorem channelOf_isSome {ch : BitVec 2} (h : ch ≠ 3) : ∃ c, channelOf ch = some c := by
  revert ch; decide

theorem withChannel_cases {s t : State} {ch : BitVec 2} {body : Channel → Result}
    (h : withChannel s ch body = .next t) :
    (channelOf ch = none ∧ t = s.raise .badChannel 0) ∨ ∃ c, channelOf ch = some c ∧ body c = .next t := by
  unfold withChannel at h
  split at h
  · next c hc => exact .inr ⟨c, hc, h⟩
  · next hc => exact .inl ⟨hc, by injection h with h; exact h.symm⟩

theorem withChannel_of_some {s : State} {ch : BitVec 2} {body : Channel → Result} {c : Channel}
    (h : channelOf ch = some c) : withChannel s ch body = body c := by
  rw [withChannel, h]

/-- Everything a plane, tile or sequence command can do: fault at a command-level check, or read its whole source footprint,
store its results at DST and complete (R14, R310, R311, R610, R611). -/
theorem wholeCommand_cases {p : Params} {len : Nat} {f : Fields} {s t : State} {g : List Word → List Word}
    (h : wholeCommand p len f s g = .next t) :
    (∃ c x, commandCheck p.dmemWords ⟨false, len, len⟩ f = some (c, x) ∧ t = s.raise c x) ∨
      (commandCheck p.dmemWords ⟨false, len, len⟩ f = none ∧
        ∃ ws, s.mem.readWords f.src.toNat len = some ws ∧ t = (s.store f.dst.toNat (g ws)).complete) := by
  rcases checked_cases h with h | ⟨hc, h⟩
  · exact .inl h
  · obtain ⟨ws, hw, h⟩ := withWords_cases h
    exact .inr ⟨hc, ws, hw, by injection h with h; exact h.symm⟩

theorem wholeCommand_of_legal {p : Params} {len : Nat} {f : Fields} {s : State} {g : List Word → List Word} {ws : List Word}
    (hc : commandCheck p.dmemWords ⟨false, len, len⟩ f = none) (hw : s.mem.readWords f.src.toNat len = some ws) :
    wholeCommand p len f s g = .next (s.store f.dst.toNat (g ws)).complete := by
  rw [wholeCommand, checked_of_none hc, withWords_of_some hw]

end Sys2Proof.Machine
end

