-- ==== Sys2Proof/Laws/State.lean ====
section
/-! SUPPORT. One lemma per field per update of State, so that no later proof unfolds a record update. -/

namespace Sys2Proof.Machine

/-! ### State.raise -/

@[simp] theorem State.raise_mem (s : State) (c : CoreFault) (x : Word) : (s.raise c x).mem = s.mem := rfl
@[simp] theorem State.raise_pred0 (s : State) (c : CoreFault) (x : Word) : (s.raise c x).pred0 = s.pred0 := rfl
@[simp] theorem State.raise_pred1 (s : State) (c : CoreFault) (x : Word) : (s.raise c x).pred1 = s.pred1 := rfl
@[simp] theorem State.raise_pred2 (s : State) (c : CoreFault) (x : Word) : (s.raise c x).pred2 = s.pred2 := rfl
@[simp] theorem State.raise_busy (s : State) (c : CoreFault) (x : Word) : (s.raise c x).busy = false := rfl
@[simp] theorem State.raise_inflight (s : State) (c : CoreFault) (x : Word) : (s.raise c x).inflight = s.inflight := rfl
@[simp] theorem State.raise_done (s : State) (c : CoreFault) (x : Word) : (s.raise c x).done = s.done := rfl
@[simp] theorem State.raise_fault (s : State) (c : CoreFault) (x : Word) : (s.raise c x).fault = true := rfl
@[simp] theorem State.raise_lost (s : State) (c : CoreFault) (x : Word) : (s.raise c x).lost = s.lost := rfl
@[simp] theorem State.raise_fcode (s : State) (c : CoreFault) (x : Word) : (s.raise c x).fcode = c.code := rfl
@[simp] theorem State.raise_fcmd (s : State) (c : CoreFault) (x : Word) : (s.raise c x).fcmd = s.inflight := rfl
@[simp] theorem State.raise_finfo (s : State) (c : CoreFault) (x : Word) : (s.raise c x).finfo = x := rfl
@[simp] theorem State.raise_ieDone (s : State) (c : CoreFault) (x : Word) : (s.raise c x).ieDone = s.ieDone := rfl
@[simp] theorem State.raise_ieFault (s : State) (c : CoreFault) (x : Word) : (s.raise c x).ieFault = s.ieFault := rfl
@[simp] theorem State.raise_bus (s : State) (c : CoreFault) (x : Word) : (s.raise c x).bus = s.bus := rfl

/-! ### State.clearFault -/

@[simp] theorem State.clearFault_mem (s : State) : (s.clearFault).mem = s.mem := rfl
@[simp] theorem State.clearFault_pred0 (s : State) : (s.clearFault).pred0 = s.pred0 := rfl
@[simp] theorem State.clearFault_pred1 (s : State) : (s.clearFault).pred1 = s.pred1 := rfl
@[simp] theorem State.clearFault_pred2 (s : State) : (s.clearFault).pred2 = s.pred2 := rfl
@[simp] theorem State.clearFault_busy (s : State) : (s.clearFault).busy = s.busy := rfl
@[simp] theorem State.clearFault_inflight (s : State) : (s.clearFault).inflight = s.inflight := rfl
@[simp] theorem State.clearFault_done (s : State) : (s.clearFault).done = s.done := rfl
@[simp] theorem State.clearFault_fault (s : State) : (s.clearFault).fault = false := rfl
@[simp] theorem State.clearFault_lost (s : State) : (s.clearFault).lost = s.lost := rfl
@[simp] theorem State.clearFault_fcode (s : State) : (s.clearFault).fcode = 0 := rfl
@[simp] theorem State.clearFault_fcmd (s : State) : (s.clearFault).fcmd = 0 := rfl
@[simp] theorem State.clearFault_finfo (s : State) : (s.clearFault).finfo = 0 := rfl
@[simp] theorem State.clearFault_ieDone (s : State) : (s.clearFault).ieDone = s.ieDone := rfl
@[simp] theorem State.clearFault_ieFault (s : State) : (s.clearFault).ieFault = s.ieFault := rfl
@[simp] theorem State.clearFault_bus (s : State) : (s.clearFault).bus = s.bus := rfl

/-! ### State.complete -/

@[simp] theorem State.complete_mem (s : State) : (s.complete).mem = s.mem := rfl
@[simp] theorem State.complete_pred0 (s : State) : (s.complete).pred0 = s.pred0 := rfl
@[simp] theorem State.complete_pred1 (s : State) : (s.complete).pred1 = s.pred1 := rfl
@[simp] theorem State.complete_pred2 (s : State) : (s.complete).pred2 = s.pred2 := rfl
@[simp] theorem State.complete_busy (s : State) : (s.complete).busy = false := rfl
@[simp] theorem State.complete_inflight (s : State) : (s.complete).inflight = s.inflight := rfl
@[simp] theorem State.complete_done (s : State) : (s.complete).done = true := rfl
@[simp] theorem State.complete_fault (s : State) : (s.complete).fault = s.fault := rfl
@[simp] theorem State.complete_lost (s : State) : (s.complete).lost = s.lost := rfl
@[simp] theorem State.complete_fcode (s : State) : (s.complete).fcode = s.fcode := rfl
@[simp] theorem State.complete_fcmd (s : State) : (s.complete).fcmd = s.fcmd := rfl
@[simp] theorem State.complete_finfo (s : State) : (s.complete).finfo = s.finfo := rfl
@[simp] theorem State.complete_ieDone (s : State) : (s.complete).ieDone = s.ieDone := rfl
@[simp] theorem State.complete_ieFault (s : State) : (s.complete).ieFault = s.ieFault := rfl
@[simp] theorem State.complete_bus (s : State) : (s.complete).bus = s.bus := rfl

/-! ### State.store -/

@[simp] theorem State.store_mem (s : State) (dst : Nat) (ws : List Word) : (s.store dst ws).mem = s.mem.writeWords dst ws := rfl
@[simp] theorem State.store_pred0 (s : State) (dst : Nat) (ws : List Word) : (s.store dst ws).pred0 = s.pred0 := rfl
@[simp] theorem State.store_pred1 (s : State) (dst : Nat) (ws : List Word) : (s.store dst ws).pred1 = s.pred1 := rfl
@[simp] theorem State.store_pred2 (s : State) (dst : Nat) (ws : List Word) : (s.store dst ws).pred2 = s.pred2 := rfl
@[simp] theorem State.store_busy (s : State) (dst : Nat) (ws : List Word) : (s.store dst ws).busy = s.busy := rfl
@[simp] theorem State.store_inflight (s : State) (dst : Nat) (ws : List Word) : (s.store dst ws).inflight = s.inflight := rfl
@[simp] theorem State.store_done (s : State) (dst : Nat) (ws : List Word) : (s.store dst ws).done = s.done := rfl
@[simp] theorem State.store_fault (s : State) (dst : Nat) (ws : List Word) : (s.store dst ws).fault = s.fault := rfl
@[simp] theorem State.store_lost (s : State) (dst : Nat) (ws : List Word) : (s.store dst ws).lost = s.lost := rfl
@[simp] theorem State.store_fcode (s : State) (dst : Nat) (ws : List Word) : (s.store dst ws).fcode = s.fcode := rfl
@[simp] theorem State.store_fcmd (s : State) (dst : Nat) (ws : List Word) : (s.store dst ws).fcmd = s.fcmd := rfl
@[simp] theorem State.store_finfo (s : State) (dst : Nat) (ws : List Word) : (s.store dst ws).finfo = s.finfo := rfl
@[simp] theorem State.store_ieDone (s : State) (dst : Nat) (ws : List Word) : (s.store dst ws).ieDone = s.ieDone := rfl
@[simp] theorem State.store_ieFault (s : State) (dst : Nat) (ws : List Word) : (s.store dst ws).ieFault = s.ieFault := rfl
@[simp] theorem State.store_bus (s : State) (dst : Nat) (ws : List Word) : (s.store dst ws).bus = s.bus := rfl

/-! ### State.reply -/

@[simp] theorem State.reply_mem (s : State) (w : Word) : (s.reply w).mem = s.mem := rfl
@[simp] theorem State.reply_pred0 (s : State) (w : Word) : (s.reply w).pred0 = s.pred0 := rfl
@[simp] theorem State.reply_pred1 (s : State) (w : Word) : (s.reply w).pred1 = s.pred1 := rfl
@[simp] theorem State.reply_pred2 (s : State) (w : Word) : (s.reply w).pred2 = s.pred2 := rfl
@[simp] theorem State.reply_busy (s : State) (w : Word) : (s.reply w).busy = s.busy := rfl
@[simp] theorem State.reply_inflight (s : State) (w : Word) : (s.reply w).inflight = s.inflight := rfl
@[simp] theorem State.reply_done (s : State) (w : Word) : (s.reply w).done = s.done := rfl
@[simp] theorem State.reply_fault (s : State) (w : Word) : (s.reply w).fault = s.fault := rfl
@[simp] theorem State.reply_lost (s : State) (w : Word) : (s.reply w).lost = s.lost := rfl
@[simp] theorem State.reply_fcode (s : State) (w : Word) : (s.reply w).fcode = s.fcode := rfl
@[simp] theorem State.reply_fcmd (s : State) (w : Word) : (s.reply w).fcmd = s.fcmd := rfl
@[simp] theorem State.reply_finfo (s : State) (w : Word) : (s.reply w).finfo = s.finfo := rfl
@[simp] theorem State.reply_ieDone (s : State) (w : Word) : (s.reply w).ieDone = s.ieDone := rfl
@[simp] theorem State.reply_ieFault (s : State) (w : Word) : (s.reply w).ieFault = s.ieFault := rfl

/-! ### State.replyFree -/

@[simp] theorem State.replyFree_mem (s : State) : (s.replyFree).mem = s.mem := rfl
@[simp] theorem State.replyFree_pred0 (s : State) : (s.replyFree).pred0 = s.pred0 := rfl
@[simp] theorem State.replyFree_pred1 (s : State) : (s.replyFree).pred1 = s.pred1 := rfl
@[simp] theorem State.replyFree_pred2 (s : State) : (s.replyFree).pred2 = s.pred2 := rfl
@[simp] theorem State.replyFree_busy (s : State) : (s.replyFree).busy = s.busy := rfl
@[simp] theorem State.replyFree_inflight (s : State) : (s.replyFree).inflight = s.inflight := rfl
@[simp] theorem State.replyFree_done (s : State) : (s.replyFree).done = s.done := rfl
@[simp] theorem State.replyFree_fault (s : State) : (s.replyFree).fault = s.fault := rfl
@[simp] theorem State.replyFree_lost (s : State) : (s.replyFree).lost = s.lost := rfl
@[simp] theorem State.replyFree_fcode (s : State) : (s.replyFree).fcode = s.fcode := rfl
@[simp] theorem State.replyFree_fcmd (s : State) : (s.replyFree).fcmd = s.fcmd := rfl
@[simp] theorem State.replyFree_finfo (s : State) : (s.replyFree).finfo = s.finfo := rfl
@[simp] theorem State.replyFree_ieDone (s : State) : (s.replyFree).ieDone = s.ieDone := rfl
@[simp] theorem State.replyFree_ieFault (s : State) : (s.replyFree).ieFault = s.ieFault := rfl

/-! ### State.releaseReset -/

@[simp] theorem State.releaseReset_mem (s : State) : (s.releaseReset).mem = s.mem := rfl
@[simp] theorem State.releaseReset_pred0 (s : State) : (s.releaseReset).pred0 = s.pred0 := rfl
@[simp] theorem State.releaseReset_pred1 (s : State) : (s.releaseReset).pred1 = s.pred1 := rfl
@[simp] theorem State.releaseReset_pred2 (s : State) : (s.releaseReset).pred2 = s.pred2 := rfl
@[simp] theorem State.releaseReset_busy (s : State) : (s.releaseReset).busy = s.busy := rfl
@[simp] theorem State.releaseReset_inflight (s : State) : (s.releaseReset).inflight = s.inflight := rfl
@[simp] theorem State.releaseReset_done (s : State) : (s.releaseReset).done = s.done := rfl
@[simp] theorem State.releaseReset_fault (s : State) : (s.releaseReset).fault = s.fault := rfl
@[simp] theorem State.releaseReset_lost (s : State) : (s.releaseReset).lost = s.lost := rfl
@[simp] theorem State.releaseReset_fcode (s : State) : (s.releaseReset).fcode = s.fcode := rfl
@[simp] theorem State.releaseReset_fcmd (s : State) : (s.releaseReset).fcmd = s.fcmd := rfl
@[simp] theorem State.releaseReset_finfo (s : State) : (s.releaseReset).finfo = s.finfo := rfl
@[simp] theorem State.releaseReset_ieDone (s : State) : (s.releaseReset).ieDone = s.ieDone := rfl
@[simp] theorem State.releaseReset_ieFault (s : State) : (s.releaseReset).ieFault = s.ieFault := rfl

/-! ### State.writeCtrl -/

@[simp] theorem State.writeCtrl_mem (s : State) (w : Word) : (s.writeCtrl w).mem = s.mem := rfl
@[simp] theorem State.writeCtrl_pred0 (s : State) (w : Word) : (s.writeCtrl w).pred0 = s.pred0 := rfl
@[simp] theorem State.writeCtrl_pred1 (s : State) (w : Word) : (s.writeCtrl w).pred1 = s.pred1 := rfl
@[simp] theorem State.writeCtrl_pred2 (s : State) (w : Word) : (s.writeCtrl w).pred2 = s.pred2 := rfl
@[simp] theorem State.writeCtrl_busy (s : State) (w : Word) : (s.writeCtrl w).busy = s.busy := rfl
@[simp] theorem State.writeCtrl_inflight (s : State) (w : Word) : (s.writeCtrl w).inflight = s.inflight := rfl
@[simp] theorem State.writeCtrl_done (s : State) (w : Word) : (s.writeCtrl w).done = s.done := rfl
@[simp] theorem State.writeCtrl_fault (s : State) (w : Word) : (s.writeCtrl w).fault = s.fault := rfl
@[simp] theorem State.writeCtrl_lost (s : State) (w : Word) : (s.writeCtrl w).lost = s.lost := rfl
@[simp] theorem State.writeCtrl_fcode (s : State) (w : Word) : (s.writeCtrl w).fcode = s.fcode := rfl
@[simp] theorem State.writeCtrl_fcmd (s : State) (w : Word) : (s.writeCtrl w).fcmd = s.fcmd := rfl
@[simp] theorem State.writeCtrl_finfo (s : State) (w : Word) : (s.writeCtrl w).finfo = s.finfo := rfl
@[simp] theorem State.writeCtrl_ieDone (s : State) (w : Word) : (s.writeCtrl w).ieDone = w.getLsbD 0 := rfl
@[simp] theorem State.writeCtrl_ieFault (s : State) (w : Word) : (s.writeCtrl w).ieFault = w.getLsbD 1 := rfl
@[simp] theorem State.writeCtrl_bus (s : State) (w : Word) : (s.writeCtrl w).bus = s.bus := rfl

/-! ### State.hold -/

@[simp] theorem State.hold_mem (s : State) (a : HostAccess) : (s.hold a).mem = s.mem := rfl
@[simp] theorem State.hold_pred0 (s : State) (a : HostAccess) : (s.hold a).pred0 = s.pred0 := rfl
@[simp] theorem State.hold_pred1 (s : State) (a : HostAccess) : (s.hold a).pred1 = s.pred1 := rfl
@[simp] theorem State.hold_pred2 (s : State) (a : HostAccess) : (s.hold a).pred2 = s.pred2 := rfl
@[simp] theorem State.hold_busy (s : State) (a : HostAccess) : (s.hold a).busy = s.busy := rfl
@[simp] theorem State.hold_inflight (s : State) (a : HostAccess) : (s.hold a).inflight = s.inflight := rfl
@[simp] theorem State.hold_done (s : State) (a : HostAccess) : (s.hold a).done = s.done := rfl
@[simp] theorem State.hold_fault (s : State) (a : HostAccess) : (s.hold a).fault = s.fault := rfl
@[simp] theorem State.hold_lost (s : State) (a : HostAccess) : (s.hold a).lost = s.lost := rfl
@[simp] theorem State.hold_fcode (s : State) (a : HostAccess) : (s.hold a).fcode = s.fcode := rfl
@[simp] theorem State.hold_fcmd (s : State) (a : HostAccess) : (s.hold a).fcmd = s.fcmd := rfl
@[simp] theorem State.hold_finfo (s : State) (a : HostAccess) : (s.hold a).finfo = s.finfo := rfl
@[simp] theorem State.hold_ieDone (s : State) (a : HostAccess) : (s.hold a).ieDone = s.ieDone := rfl
@[simp] theorem State.hold_ieFault (s : State) (a : HostAccess) : (s.hold a).ieFault = s.ieFault := rfl

/-! ### State.placeCommand -/

@[simp] theorem State.placeCommand_mem (s : State) (w : Word) : (s.placeCommand w).mem = s.mem := rfl
@[simp] theorem State.placeCommand_pred0 (s : State) (w : Word) : (s.placeCommand w).pred0 = s.pred0 := rfl
@[simp] theorem State.placeCommand_pred1 (s : State) (w : Word) : (s.placeCommand w).pred1 = s.pred1 := rfl
@[simp] theorem State.placeCommand_pred2 (s : State) (w : Word) : (s.placeCommand w).pred2 = s.pred2 := rfl
@[simp] theorem State.placeCommand_busy (s : State) (w : Word) : (s.placeCommand w).busy = true := rfl
@[simp] theorem State.placeCommand_inflight (s : State) (w : Word) : (s.placeCommand w).inflight = w := rfl
@[simp] theorem State.placeCommand_done (s : State) (w : Word) : (s.placeCommand w).done = false := rfl
@[simp] theorem State.placeCommand_fault (s : State) (w : Word) : (s.placeCommand w).fault = s.fault := rfl
@[simp] theorem State.placeCommand_lost (s : State) (w : Word) : (s.placeCommand w).lost = s.lost := rfl
@[simp] theorem State.placeCommand_fcode (s : State) (w : Word) : (s.placeCommand w).fcode = s.fcode := rfl
@[simp] theorem State.placeCommand_fcmd (s : State) (w : Word) : (s.placeCommand w).fcmd = s.fcmd := rfl
@[simp] theorem State.placeCommand_finfo (s : State) (w : Word) : (s.placeCommand w).finfo = s.finfo := rfl
@[simp] theorem State.placeCommand_ieDone (s : State) (w : Word) : (s.placeCommand w).ieDone = s.ieDone := rfl
@[simp] theorem State.placeCommand_ieFault (s : State) (w : Word) : (s.placeCommand w).ieFault = s.ieFault := rfl

/-! ### The host port -/

@[simp] theorem State.reply_bus_arrivals (s : State) (w : Word) : (s.reply w).bus.arrivals = s.bus.arrivals := rfl
@[simp] theorem State.reply_bus_held (s : State) (w : Word) : (s.reply w).bus.held = s.bus.held := rfl
@[simp] theorem State.reply_bus_replies (s : State) (w : Word) : (s.reply w).bus.replies = s.bus.replies ++ [w] := rfl
@[simp] theorem State.reply_bus_draws (s : State) (w : Word) : (s.reply w).bus.draws = s.bus.draws := rfl
@[simp] theorem State.reply_bus_inReset (s : State) (w : Word) : (s.reply w).bus.inReset = s.bus.inReset := rfl

@[simp] theorem State.replyFree_bus_arrivals (s : State) : (s.replyFree).bus.arrivals = s.bus.arrivals := rfl
@[simp] theorem State.replyFree_bus_held (s : State) : (s.replyFree).bus.held = s.bus.held := rfl
@[simp] theorem State.replyFree_bus_replies (s : State) : (s.replyFree).bus.replies = s.bus.replies ++ [Config.freeWord s.bus.draws] := rfl
@[simp] theorem State.replyFree_bus_draws (s : State) : (s.replyFree).bus.draws = s.bus.draws + 1 := rfl
@[simp] theorem State.replyFree_bus_inReset (s : State) : (s.replyFree).bus.inReset = s.bus.inReset := rfl

@[simp] theorem State.releaseReset_bus_arrivals (s : State) : (s.releaseReset).bus.arrivals = s.bus.arrivals := rfl
@[simp] theorem State.releaseReset_bus_held (s : State) : (s.releaseReset).bus.held = s.bus.held := rfl
@[simp] theorem State.releaseReset_bus_replies (s : State) : (s.releaseReset).bus.replies = s.bus.replies := rfl
@[simp] theorem State.releaseReset_bus_draws (s : State) : (s.releaseReset).bus.draws = s.bus.draws := rfl
@[simp] theorem State.releaseReset_bus_inReset (s : State) : (s.releaseReset).bus.inReset = false := rfl

@[simp] theorem State.hold_bus_arrivals (s : State) (a : HostAccess) : (s.hold a).bus.arrivals = s.bus.arrivals := rfl
@[simp] theorem State.hold_bus_held (s : State) (a : HostAccess) : (s.hold a).bus.held = s.bus.held ++ [a] := rfl
@[simp] theorem State.hold_bus_replies (s : State) (a : HostAccess) : (s.hold a).bus.replies = s.bus.replies := rfl
@[simp] theorem State.hold_bus_draws (s : State) (a : HostAccess) : (s.hold a).bus.draws = s.bus.draws := rfl
@[simp] theorem State.hold_bus_inReset (s : State) (a : HostAccess) : (s.hold a).bus.inReset = s.bus.inReset := rfl

@[simp] theorem State.placeCommand_bus_arrivals (s : State) (w : Word) : (s.placeCommand w).bus.arrivals = afterCommand s.bus.arrivals := rfl
@[simp] theorem State.placeCommand_bus_held (s : State) (w : Word) : (s.placeCommand w).bus.held = s.bus.held := rfl
@[simp] theorem State.placeCommand_bus_replies (s : State) (w : Word) : (s.placeCommand w).bus.replies = s.bus.replies := rfl
@[simp] theorem State.placeCommand_bus_draws (s : State) (w : Word) : (s.placeCommand w).bus.draws = s.bus.draws := rfl
@[simp] theorem State.placeCommand_bus_inReset (s : State) (w : Word) : (s.placeCommand w).bus.inReset = s.bus.inReset := rfl

/-! ### State.setArrivals and State.setHeld -/

@[simp] theorem State.setArrivals_mem (s : State) (l : List Arrival) : (s.setArrivals l).mem = s.mem := rfl
@[simp] theorem State.setArrivals_pred0 (s : State) (l : List Arrival) : (s.setArrivals l).pred0 = s.pred0 := rfl
@[simp] theorem State.setArrivals_pred1 (s : State) (l : List Arrival) : (s.setArrivals l).pred1 = s.pred1 := rfl
@[simp] theorem State.setArrivals_pred2 (s : State) (l : List Arrival) : (s.setArrivals l).pred2 = s.pred2 := rfl
@[simp] theorem State.setArrivals_busy (s : State) (l : List Arrival) : (s.setArrivals l).busy = s.busy := rfl
@[simp] theorem State.setArrivals_inflight (s : State) (l : List Arrival) : (s.setArrivals l).inflight = s.inflight := rfl
@[simp] theorem State.setArrivals_done (s : State) (l : List Arrival) : (s.setArrivals l).done = s.done := rfl
@[simp] theorem State.setArrivals_fault (s : State) (l : List Arrival) : (s.setArrivals l).fault = s.fault := rfl
@[simp] theorem State.setArrivals_lost (s : State) (l : List Arrival) : (s.setArrivals l).lost = s.lost := rfl
@[simp] theorem State.setArrivals_fcode (s : State) (l : List Arrival) : (s.setArrivals l).fcode = s.fcode := rfl
@[simp] theorem State.setArrivals_fcmd (s : State) (l : List Arrival) : (s.setArrivals l).fcmd = s.fcmd := rfl
@[simp] theorem State.setArrivals_finfo (s : State) (l : List Arrival) : (s.setArrivals l).finfo = s.finfo := rfl
@[simp] theorem State.setArrivals_ieDone (s : State) (l : List Arrival) : (s.setArrivals l).ieDone = s.ieDone := rfl
@[simp] theorem State.setArrivals_ieFault (s : State) (l : List Arrival) : (s.setArrivals l).ieFault = s.ieFault := rfl
@[simp] theorem State.setArrivals_bus_arrivals (s : State) (l : List Arrival) : (s.setArrivals l).bus.arrivals = l := rfl
@[simp] theorem State.setArrivals_bus_held (s : State) (l : List Arrival) : (s.setArrivals l).bus.held = s.bus.held := rfl
@[simp] theorem State.setArrivals_bus_replies (s : State) (l : List Arrival) : (s.setArrivals l).bus.replies = s.bus.replies := rfl
@[simp] theorem State.setArrivals_bus_draws (s : State) (l : List Arrival) : (s.setArrivals l).bus.draws = s.bus.draws := rfl
@[simp] theorem State.setArrivals_bus_inReset (s : State) (l : List Arrival) : (s.setArrivals l).bus.inReset = s.bus.inReset := rfl
@[simp] theorem State.pred_setArrivals (s : State) (l : List Arrival) (d : Channel) : (s.setArrivals l).pred d = s.pred d := by
  fin_cases d <;> rfl

@[simp] theorem State.setHeld_mem (s : State) (l : List HostAccess) : (s.setHeld l).mem = s.mem := rfl
@[simp] theorem State.setHeld_pred0 (s : State) (l : List HostAccess) : (s.setHeld l).pred0 = s.pred0 := rfl
@[simp] theorem State.setHeld_pred1 (s : State) (l : List HostAccess) : (s.setHeld l).pred1 = s.pred1 := rfl
@[simp] theorem State.setHeld_pred2 (s : State) (l : List HostAccess) : (s.setHeld l).pred2 = s.pred2 := rfl
@[simp] theorem State.setHeld_busy (s : State) (l : List HostAccess) : (s.setHeld l).busy = s.busy := rfl
@[simp] theorem State.setHeld_inflight (s : State) (l : List HostAccess) : (s.setHeld l).inflight = s.inflight := rfl
@[simp] theorem State.setHeld_done (s : State) (l : List HostAccess) : (s.setHeld l).done = s.done := rfl
@[simp] theorem State.setHeld_fault (s : State) (l : List HostAccess) : (s.setHeld l).fault = s.fault := rfl
@[simp] theorem State.setHeld_lost (s : State) (l : List HostAccess) : (s.setHeld l).lost = s.lost := rfl
@[simp] theorem State.setHeld_fcode (s : State) (l : List HostAccess) : (s.setHeld l).fcode = s.fcode := rfl
@[simp] theorem State.setHeld_fcmd (s : State) (l : List HostAccess) : (s.setHeld l).fcmd = s.fcmd := rfl
@[simp] theorem State.setHeld_finfo (s : State) (l : List HostAccess) : (s.setHeld l).finfo = s.finfo := rfl
@[simp] theorem State.setHeld_ieDone (s : State) (l : List HostAccess) : (s.setHeld l).ieDone = s.ieDone := rfl
@[simp] theorem State.setHeld_ieFault (s : State) (l : List HostAccess) : (s.setHeld l).ieFault = s.ieFault := rfl
@[simp] theorem State.setHeld_bus_arrivals (s : State) (l : List HostAccess) : (s.setHeld l).bus.arrivals = s.bus.arrivals := rfl
@[simp] theorem State.setHeld_bus_held (s : State) (l : List HostAccess) : (s.setHeld l).bus.held = l := rfl
@[simp] theorem State.setHeld_bus_replies (s : State) (l : List HostAccess) : (s.setHeld l).bus.replies = s.bus.replies := rfl
@[simp] theorem State.setHeld_bus_draws (s : State) (l : List HostAccess) : (s.setHeld l).bus.draws = s.bus.draws := rfl
@[simp] theorem State.setHeld_bus_inReset (s : State) (l : List HostAccess) : (s.setHeld l).bus.inReset = s.bus.inReset := rfl
@[simp] theorem State.pred_setHeld (s : State) (l : List HostAccess) (d : Channel) : (s.setHeld l).pred d = s.pred d := by
  fin_cases d <;> rfl

/-! ### State.setPred and State.pred -/

@[simp] theorem State.setPred_mem (s : State) (c : Channel) (w : Word) : (s.setPred c w).mem = s.mem := by
  fin_cases c <;> rfl
@[simp] theorem State.setPred_busy (s : State) (c : Channel) (w : Word) : (s.setPred c w).busy = s.busy := by
  fin_cases c <;> rfl
@[simp] theorem State.setPred_inflight (s : State) (c : Channel) (w : Word) : (s.setPred c w).inflight = s.inflight := by
  fin_cases c <;> rfl
@[simp] theorem State.setPred_done (s : State) (c : Channel) (w : Word) : (s.setPred c w).done = s.done := by
  fin_cases c <;> rfl
@[simp] theorem State.setPred_fault (s : State) (c : Channel) (w : Word) : (s.setPred c w).fault = s.fault := by
  fin_cases c <;> rfl
@[simp] theorem State.setPred_lost (s : State) (c : Channel) (w : Word) : (s.setPred c w).lost = s.lost := by
  fin_cases c <;> rfl
@[simp] theorem State.setPred_fcode (s : State) (c : Channel) (w : Word) : (s.setPred c w).fcode = s.fcode := by
  fin_cases c <;> rfl
@[simp] theorem State.setPred_fcmd (s : State) (c : Channel) (w : Word) : (s.setPred c w).fcmd = s.fcmd := by
  fin_cases c <;> rfl
@[simp] theorem State.setPred_finfo (s : State) (c : Channel) (w : Word) : (s.setPred c w).finfo = s.finfo := by
  fin_cases c <;> rfl
@[simp] theorem State.setPred_ieDone (s : State) (c : Channel) (w : Word) : (s.setPred c w).ieDone = s.ieDone := by
  fin_cases c <;> rfl
@[simp] theorem State.setPred_ieFault (s : State) (c : Channel) (w : Word) : (s.setPred c w).ieFault = s.ieFault := by
  fin_cases c <;> rfl
@[simp] theorem State.setPred_bus (s : State) (c : Channel) (w : Word) : (s.setPred c w).bus = s.bus := by
  fin_cases c <;> rfl

theorem State.pred_setPred (s : State) (c d : Channel) (w : Word) :
    (s.setPred c w).pred d = if d = c then w else s.pred d := by
  fin_cases c <;> fin_cases d <;> rfl

@[simp] theorem State.pred_setPred_same (s : State) (c : Channel) (w : Word) : (s.setPred c w).pred c = w := by
  rw [State.pred_setPred, if_pos rfl]

@[simp] theorem State.pred_raise (s : State) (c : CoreFault) (x : Word) (d : Channel) : (s.raise c x).pred d = s.pred d := by
  fin_cases d <;> rfl
@[simp] theorem State.pred_clearFault (s : State) (d : Channel) : (s.clearFault).pred d = s.pred d := by
  fin_cases d <;> rfl
@[simp] theorem State.pred_complete (s : State) (d : Channel) : (s.complete).pred d = s.pred d := by
  fin_cases d <;> rfl
@[simp] theorem State.pred_store (s : State) (dst : Nat) (ws : List Word) (d : Channel) : (s.store dst ws).pred d = s.pred d := by
  fin_cases d <;> rfl
@[simp] theorem State.pred_reply (s : State) (w : Word) (d : Channel) : (s.reply w).pred d = s.pred d := by
  fin_cases d <;> rfl
@[simp] theorem State.pred_replyFree (s : State) (d : Channel) : (s.replyFree).pred d = s.pred d := by
  fin_cases d <;> rfl
@[simp] theorem State.pred_releaseReset (s : State) (d : Channel) : (s.releaseReset).pred d = s.pred d := by
  fin_cases d <;> rfl
@[simp] theorem State.pred_writeCtrl (s : State) (w : Word) (d : Channel) : (s.writeCtrl w).pred d = s.pred d := by
  fin_cases d <;> rfl
@[simp] theorem State.pred_hold (s : State) (a : HostAccess) (d : Channel) : (s.hold a).pred d = s.pred d := by
  fin_cases d <;> rfl
@[simp] theorem State.pred_placeCommand (s : State) (w : Word) (d : Channel) : (s.placeCommand w).pred d = s.pred d := by
  fin_cases d <;> rfl

/-! ### State.issue -/

theorem State.issue_of_fault {s : State} (w : Word) (h : s.fault = true) : s.issue w = { s with lost := true } := by
  simp [State.issue, h]

theorem State.issue_of_noFault {s : State} (w : Word) (h : s.fault = false) :
    s.issue w = { s with inflight := w, done := false, busy := true } := by
  simp [State.issue, h]

@[simp] theorem State.issue_mem (s : State) (w : Word) : (s.issue w).mem = s.mem := by
  unfold State.issue; split <;> rfl
@[simp] theorem State.issue_fault (s : State) (w : Word) : (s.issue w).fault = s.fault := by
  unfold State.issue; split <;> rfl
@[simp] theorem State.issue_fcode (s : State) (w : Word) : (s.issue w).fcode = s.fcode := by
  unfold State.issue; split <;> rfl
@[simp] theorem State.issue_fcmd (s : State) (w : Word) : (s.issue w).fcmd = s.fcmd := by
  unfold State.issue; split <;> rfl
@[simp] theorem State.issue_finfo (s : State) (w : Word) : (s.issue w).finfo = s.finfo := by
  unfold State.issue; split <;> rfl
@[simp] theorem State.issue_ieDone (s : State) (w : Word) : (s.issue w).ieDone = s.ieDone := by
  unfold State.issue; split <;> rfl
@[simp] theorem State.issue_ieFault (s : State) (w : Word) : (s.issue w).ieFault = s.ieFault := by
  unfold State.issue; split <;> rfl
@[simp] theorem State.issue_bus (s : State) (w : Word) : (s.issue w).bus = s.bus := by
  unfold State.issue; split <;> rfl
@[simp] theorem State.pred_issue (s : State) (w : Word) (d : Channel) : (s.issue w).pred d = s.pred d := by
  unfold State.issue; split <;> (fin_cases d <;> rfl)

/-! ### State.writeStatus -/

@[simp] theorem State.writeStatus_mem (s : State) (w : Word) : (s.writeStatus w).mem = s.mem := by
  simp only [State.writeStatus]; split <;> split <;> split <;> rfl
@[simp] theorem State.writeStatus_busy (s : State) (w : Word) : (s.writeStatus w).busy = s.busy := by
  simp only [State.writeStatus]; split <;> split <;> split <;> rfl
@[simp] theorem State.writeStatus_inflight (s : State) (w : Word) : (s.writeStatus w).inflight = s.inflight := by
  simp only [State.writeStatus]; split <;> split <;> split <;> rfl
@[simp] theorem State.writeStatus_done (s : State) (w : Word) :
    (s.writeStatus w).done = (!w.getLsbD 1 && s.done) := by
  simp only [State.writeStatus]; split <;> split <;> split <;> simp_all
@[simp] theorem State.writeStatus_fault (s : State) (w : Word) :
    (s.writeStatus w).fault = (!w.getLsbD 2 && s.fault) := by
  simp only [State.writeStatus]; split <;> split <;> split <;> simp_all
@[simp] theorem State.writeStatus_lost (s : State) (w : Word) :
    (s.writeStatus w).lost = (!w.getLsbD 3 && s.lost) := by
  simp only [State.writeStatus]; split <;> split <;> split <;> simp_all
@[simp] theorem State.writeStatus_fcode (s : State) (w : Word) :
    (s.writeStatus w).fcode = if w.getLsbD 2 then 0 else s.fcode := by
  simp only [State.writeStatus]; split <;> split <;> split <;> simp_all
@[simp] theorem State.writeStatus_fcmd (s : State) (w : Word) :
    (s.writeStatus w).fcmd = if w.getLsbD 2 then 0 else s.fcmd := by
  simp only [State.writeStatus]; split <;> split <;> split <;> simp_all
@[simp] theorem State.writeStatus_finfo (s : State) (w : Word) :
    (s.writeStatus w).finfo = if w.getLsbD 2 then 0 else s.finfo := by
  simp only [State.writeStatus]; split <;> split <;> split <;> simp_all
@[simp] theorem State.writeStatus_ieDone (s : State) (w : Word) : (s.writeStatus w).ieDone = s.ieDone := by
  simp only [State.writeStatus]; split <;> split <;> split <;> rfl
@[simp] theorem State.writeStatus_ieFault (s : State) (w : Word) : (s.writeStatus w).ieFault = s.ieFault := by
  simp only [State.writeStatus]; split <;> split <;> split <;> rfl
@[simp] theorem State.writeStatus_bus (s : State) (w : Word) : (s.writeStatus w).bus = s.bus := by
  simp only [State.writeStatus]; split <;> split <;> split <;> rfl
@[simp] theorem State.pred_writeStatus (s : State) (w : Word) (d : Channel) : (s.writeStatus w).pred d = s.pred d := by
  simp only [State.writeStatus]; split <;> split <;> split <;> (fin_cases d <;> rfl)

/-! ### Reset -/

/-- Abandoning held accesses touches only the replies and the counter of free values (R701). -/
theorem State.foldl_abandon (l : List HostAccess) (s : State) :
    ∃ replies draws, l.foldl State.abandon s = { s with bus := { s.bus with replies := replies, draws := draws } } := by
  induction l generalizing s with
  | nil => exact ⟨_, _, rfl⟩
  | cons a l ih =>
    cases a with
    | read offset size => obtain ⟨r, d, h⟩ := ih s.replyFree; exact ⟨r, d, by rw [List.foldl_cons, State.abandon, h]; rfl⟩
    | write offset size data => obtain ⟨r, d, h⟩ := ih s; exact ⟨r, d, by rw [List.foldl_cons, State.abandon, h]⟩

/-- Everything that asserting the reset input does (R700, R701). -/
theorem State.assertReset_spec (s : State) :
    ∃ replies draws, s.assertReset =
      { State.reset with bus :=
        { arrivals := s.bus.arrivals, held := [], replies := replies, draws := draws, inReset := true } } := by
  obtain ⟨r, d, h⟩ := State.foldl_abandon s.bus.held { State.reset with bus := { s.bus with held := [], inReset := true } }
  exact ⟨r, d, by rw [State.assertReset, h]⟩

end Sys2Proof.Machine
end

