-- ==== Sys2Proof/Laws/Exec.lean ====
section
/-! SUPPORT. What exec can do, once for all commands: the check phase first, then a data fault, a store, a predictor update or
nothing, then completion; and that the legal commands are exactly those that pass the check phase. -/

namespace Sys2Proof.Machine

/-- What R302 gives the opcode of a command. -/
def footprintOf : Instr → Footprint
  | .nop _ => ⟨false, 0, 0⟩
  | .ccfwd _ => ⟨false, 192, 192⟩
  | .ccinv _ => ⟨false, 192, 192⟩
  | .dctf _ => ⟨false, 64, 64⟩
  | .dcti _ => ⟨false, 64, 64⟩
  | .qdiv _ => ⟨false, 64, 64⟩
  | .qmul _ => ⟨false, 64, 64⟩
  | .zzscan _ => ⟨false, 64, 64⟩
  | .zzunscan _ => ⟨false, 64, 64⟩
  | .rlpack _ => ⟨true, 64, 130⟩
  | .rlunpack _ => ⟨true, 130, 64⟩
  | .aenc _ => ⟨false, 130, 33⟩
  | .adec _ => ⟨false, 33, 130⟩
  | .prdrst _ => ⟨false, 0, 0⟩

theorem commandCheck_none_iff (words : Nat) (fp : Footprint) (f : Fields) :
    commandCheck words fp f = none ↔
      (f.rsv0 = 0 ∧ f.rsv1 = 0 ∧ (fp.usesCh = false → f.ch = 0) ∧ (fp.srcLen = 0 → f.src = 0) ∧ (fp.dstLen = 0 → f.dst = 0) ∧
        (fp.usesCh = true → f.ch ≠ 3) ∧ (0 < fp.srcLen → f.src.toNat + fp.srcLen ≤ words) ∧
        (0 < fp.dstLen → f.dst.toNat + fp.dstLen ≤ words)) := by
  constructor
  · exact commandCheck_none
  · rintro ⟨h1, h2, h3, h4, h5, h6, h7, h8⟩
    unfold commandCheck
    rw [if_neg, if_neg, if_neg, if_neg]
    · rintro ⟨a, b⟩
      have := h8 a
      omega
    · rintro ⟨a, b⟩
      have := h7 a
      omega
    · rintro ⟨a, b⟩
      exact h6 a b
    · rintro (h | h | ⟨a, b⟩ | ⟨a, b⟩ | ⟨a, b⟩) <;> simp_all

/-- WellFormed and the check phase, written apart, agree (R303, R305, R310, R313). -/
theorem wellFormed_iff (words : Nat) (i : Instr) :
    i.wellFormed words = true ↔ commandCheck words (footprintOf i) i.fields = none := by
  rw [commandCheck_none_iff]
  cases i <;>
    simp [Instr.wellFormed, Fields.plainLegal, Fields.channelledLegal, Fields.bareLegal, footprintOf, Instr.fields,
      Fields.reservedZero, Fields.channelUnused, Fields.channelLegal, Fields.addressesUnused, Fields.sourceInside,
      Fields.destInside] <;> tauto

/-- Every command starts with the check phase of its own footprint (R14, R620). -/
theorem exec_checked (i : Instr) (s : State) : ∃ body, exec i s = checked params (footprintOf i) i.fields s body := by
  cases i <;> exact ⟨_, rfl⟩

/-- A command that fails a command-level check raises that fault and nothing else (R610, R620). -/
theorem exec_of_check {i : Instr} {s : State} {c : CoreFault} {x : Word}
    (h : commandCheck params.dmemWords (footprintOf i) i.fields = some (c, x)) : exec i s = .next (s.raise c x) := by
  obtain ⟨body, hb⟩ := exec_checked i s
  rw [hb]
  exact checked_of_some h

/-- A packed stream is never longer than its footprint (R482). -/
theorem packPairs_length (l : List Int) (run : Nat) : (packPairs run l).length ≤ 2 * l.length + 2 := by
  induction l generalizing run with
  | nil => simp [packPairs]
  | cons a l ih =>
    rw [packPairs]
    split
    · have := ih (run + 1)
      simp
      omega
    · have := ih 0
      simp
      omega

/-- The pair loop gives at most 64 elements, or one of its three faults (R485). -/
theorem unpackPairs_cases (n : Word) (l : List Int) (i : Nat) (seq : List Int) (hs : seq.length ≤ 64) :
    (∃ r, unpackPairs n i l seq = .ok r ∧ r.length ≤ 64) ∨
      ∃ c x, unpackPairs n i l seq = .error (c, x) ∧ (c = .missingTerminator ∨ c = .negativeRun ∨ c = .seqOverflow) := by
  induction l using List.twoStepInduction generalizing i seq with
  | nil => exact .inr ⟨_, _, rfl, .inl rfl⟩
  | singleton a => exact .inr ⟨_, _, rfl, .inl rfl⟩
  | cons_cons a b l ih _ =>
    unfold unpackPairs
    split
    · exact .inl ⟨_, rfl, hs⟩
    · split
      · exact .inr ⟨_, _, rfl, .inr (.inl rfl)⟩
      · split
        · exact .inr ⟨_, _, rfl, .inr (.inr rfl)⟩
        · apply ih
          simp
          omega

/-- An accepted stream gives 64 elements, or it ends in one of the three faults (R485). -/
theorem unpackStream_cases (n : Word) (p : Int) (l : List Int) :
    (∃ r, unpackStream n p l = .ok r ∧ r.length = 64) ∨
      ∃ c x, unpackStream n p l = .error (c, x) ∧ (c = .missingTerminator ∨ c = .negativeRun ∨ c = .seqOverflow) := by
  unfold unpackStream
  rcases unpackPairs_cases n l.tail 1 [wrap64 (l.headD 0 + p)] (by simp) with ⟨r, h, hr⟩ | ⟨c, x, h, hc⟩
  · rw [h]
    exact .inl ⟨_, rfl, by simp; omega⟩
  · rw [h]
    exact .inr ⟨c, x, rfl, hc⟩

/-- The decoding loop adds at most `fuel` symbols (R505). -/
theorem decodeLoop_length {cum : List Nat} {fuel N D : Nat} {acc l : List Int} (h : decodeLoop cum fuel N D acc = some l) :
    l.length ≤ acc.length + fuel := by
  induction fuel generalizing N D acc with
  | zero => simp [decodeLoop] at h
  | succ k ih =>
    rw [decodeLoop] at h
    split at h
    · injection h with h
      subst h
      simp
    · have := ih h
      simp at this
      omega

/-- A completed command that stores: `ws` at DST, inside the destination footprint, and maybe one predictor. -/
def Stores (i : Instr) (s t : State) (ws : List Word) : Prop :=
  ws.length ≤ (footprintOf i).dstLen ∧
    (((footprintOf i).usesCh = false ∧ t = (s.store i.fields.dst.toNat ws).complete) ∨
      ((footprintOf i).usesCh = true ∧
        ∃ c w, channelOf i.fields.ch = some c ∧ t = ((s.store i.fields.dst.toNat ws).setPred c w).complete))

/-- Everything a command can do that ends: a command-level fault, a data fault, a store with at most one predictor update, or,
for the commands without operands, nothing but completion and the predictor reset. -/
theorem exec_cases {i : Instr} {s t : State} (h : exec i s = .next t) :
    (∃ c x, commandCheck params.dmemWords (footprintOf i) i.fields = some (c, x) ∧ t = s.raise c x) ∨
      (commandCheck params.dmemWords (footprintOf i) i.fields = none ∧
        ((∃ c x, (c = .streamLength ∨ c = .missingTerminator ∨ c = .negativeRun ∨ c = .seqOverflow ∨ c = .decOverrun) ∧
            t = s.raise c x) ∨
          (0 < (footprintOf i).dstLen ∧ ∃ ws, Stores i s t ws) ∨ (∃ f, i = .nop f ∧ t = s.complete) ∨
          ∃ f, i = .prdrst f ∧ t = (((s.setPred 0 0).setPred 1 0).setPred 2 0).complete)) := by
  have whole : ∀ (len : Nat) (g : List Word → List Word), exec i s = wholeCommand params len i.fields s g → 0 < len →
      footprintOf i = ⟨false, len, len⟩ → (∀ ws, (g ws).length ≤ len) →
      commandCheck params.dmemWords (footprintOf i) i.fields = none →
      0 < (footprintOf i).dstLen ∧ ∃ ws, Stores i s t ws := by
    intro len g h1 hl h2 h3 h4
    rw [h1] at h
    rcases wholeCommand_cases h with ⟨c, x, hc, _⟩ | ⟨_, ws, _, ht⟩
    · rw [h2, hc] at h4
      cases h4
    · exact ⟨by rw [h2]; exact hl, g ws, by rw [h2]; exact h3 ws, .inl ⟨by rw [h2], ht⟩⟩
  cases hcc : commandCheck params.dmemWords (footprintOf i) i.fields with
  | some cx =>
    obtain ⟨c, x⟩ := cx
    rw [exec_of_check hcc] at h
    injection h with h
    exact .inl ⟨c, x, rfl, h.symm⟩
  | none =>
    refine .inr ⟨rfl, ?_⟩
    cases i with
    | nop f =>
      change checked params ⟨false, 0, 0⟩ f s _ = _ at h
      rw [checked_of_none (by exact hcc)] at h
      injection h with h
      exact .inr (.inr (.inl ⟨f, rfl, h.symm⟩))
    | prdrst f =>
      change checked params ⟨false, 0, 0⟩ f s _ = _ at h
      rw [checked_of_none (by exact hcc)] at h
      injection h with h
      exact .inr (.inr (.inr ⟨f, rfl, h.symm⟩))
    | ccfwd f => exact .inr (.inl (whole 192 (ccfwdWords params) rfl (by decide) rfl (by simp [ccfwdWords]) hcc))
    | ccinv f => exact .inr (.inl (whole 192 (ccinvWords params) rfl (by decide) rfl (by simp [ccinvWords]) hcc))
    | dctf f => exact .inr (.inl (whole 64 dctfWords rfl (by decide) rfl (by simp [dctfWords, transform2d, kd]) hcc))
    | dcti f =>
      exact .inr (.inl (whole 64 dctiWords rfl (by decide) rfl (by simp [dctiWords, transform2d, kdColumns, List.range_succ]) hcc))
    | qdiv f =>
      exact .inr (.inl (whole 64 (qdivWords params) rfl (by decide) rfl (by intro ws; simp [qdivWords]; left; decide) hcc))
    | qmul f =>
      exact .inr (.inl (whole 64 (qmulWords params) rfl (by decide) rfl (by intro ws; simp [qmulWords]; left; decide) hcc))
    | zzscan f => exact .inr (.inl (whole 64 zzscanWords rfl (by decide) rfl (by simp [zzscanWords, zz]) hcc))
    | zzunscan f => exact .inr (.inl (whole 64 zzunscanWords rfl (by decide) rfl (by simp [zzunscanWords]) hcc))
    | rlpack f =>
      change checked params ⟨true, 64, 130⟩ f s _ = _ at h
      rw [checked_of_none (by exact hcc)] at h
      obtain ⟨c, hc⟩ := channelOf_isSome ((commandCheck_none hcc).2.2.2.2.2.1 rfl)
      rw [withChannel_of_some (by exact hc)] at h
      obtain ⟨ws, hw, h⟩ := withWords_cases h
      injection h with h
      refine .inr (.inl ⟨by simp [footprintOf], _, ?_, .inr ⟨rfl, c, _, hc, h.symm⟩⟩)
      have := packPairs_length (ws.map s64).tail 0
      have := Memory.readWords_length hw
      simp [streamWords, packStream, footprintOf] at *
      omega
    | rlunpack f =>
      change checked params ⟨true, 130, 64⟩ f s _ = _ at h
      rw [checked_of_none (by exact hcc)] at h
      obtain ⟨c, hc⟩ := channelOf_isSome ((commandCheck_none hcc).2.2.2.2.2.1 rfl)
      rw [withChannel_of_some (by exact hc)] at h
      obtain ⟨n, _, ⟨_, h⟩ | ⟨_, _, ws, _, h⟩⟩ := withStream_cases h
      · exact .inl ⟨_, n, .inl rfl, h⟩
      · rcases unpackStream_cases n (s64 (s.pred c)) (ws.map s64) with ⟨r, hr, hl⟩ | ⟨k, x, hr, hk⟩
        · rw [hr] at h
          injection h with h
          exact .inr (.inl ⟨by simp [footprintOf], _, by simp [hl, footprintOf], .inr ⟨rfl, c, _, hc, h.symm⟩⟩)
        · rw [hr] at h
          injection h with h
          exact .inl ⟨k, x, by tauto, h.symm⟩
    | aenc f =>
      change checked params ⟨false, 130, 33⟩ f s _ = _ at h
      rw [checked_of_none (by exact hcc)] at h
      obtain ⟨n, _, ⟨_, h⟩ | ⟨_, _, ws, _, h⟩⟩ := withStream_cases h
      · exact .inl ⟨_, n, .inl rfl, h⟩
      · injection h with h
        exact .inr (.inl ⟨by simp [footprintOf], _, by simp [codewordWords, footprintOf, cwWords], .inl ⟨rfl, h.symm⟩⟩)
    | adec f =>
      change checked params ⟨false, 33, 130⟩ f s _ = _ at h
      rw [checked_of_none (by exact hcc)] at h
      obtain ⟨ws, _, h⟩ := withWords_cases h
      split at h
      · injection h with h
        exact .inl ⟨_, _, .inr (.inr (.inr (.inr rfl))), h.symm⟩
      · next l hl =>
        injection h with h
        have := decodeLoop_length hl
        exact .inr (.inl ⟨by simp [footprintOf], _, by simp [streamWords, footprintOf, maxSymbols] at *; omega, .inl ⟨rfl, h.symm⟩⟩)

end Sys2Proof.Machine
end

