-- ==== Sys2Proof/Laws/PerInstr.lean ====
section
/-! SUPPORT. Facts about every command as syntax, one lemma per constructor. -/

namespace Sys2Proof.Laws.EncodedFields

/-- The encoder puts the opcode of R302 into bits [7:0] (R300), and it is one of 0x00 .. 0x0D. -/
def Statement (i : Instr) : Prop := opcodeField (encode i) = i.opcode ∧ i.opcode.toNat < 0x0E

/-- The low byte of an encoded command is its opcode (R300). -/
theorem opcodeField_encode (i : Instr) : opcodeField (encode i) = i.opcode := by
  rw [opcodeField, encode, encodeFields]
  exact BitVec.extractLsb'_append_eq_right

theorem nop (f : Fields) : Statement (.nop f) := ⟨opcodeField_encode _, by simp [Instr.opcode]⟩
theorem ccfwd (f : Fields) : Statement (.ccfwd f) := ⟨opcodeField_encode _, by simp [Instr.opcode]⟩
theorem ccinv (f : Fields) : Statement (.ccinv f) := ⟨opcodeField_encode _, by simp [Instr.opcode]⟩
theorem dctf (f : Fields) : Statement (.dctf f) := ⟨opcodeField_encode _, by simp [Instr.opcode]⟩
theorem dcti (f : Fields) : Statement (.dcti f) := ⟨opcodeField_encode _, by simp [Instr.opcode]⟩
theorem qdiv (f : Fields) : Statement (.qdiv f) := ⟨opcodeField_encode _, by simp [Instr.opcode]⟩
theorem qmul (f : Fields) : Statement (.qmul f) := ⟨opcodeField_encode _, by simp [Instr.opcode]⟩
theorem zzscan (f : Fields) : Statement (.zzscan f) := ⟨opcodeField_encode _, by simp [Instr.opcode]⟩
theorem zzunscan (f : Fields) : Statement (.zzunscan f) := ⟨opcodeField_encode _, by simp [Instr.opcode]⟩
theorem rlpack (f : Fields) : Statement (.rlpack f) := ⟨opcodeField_encode _, by simp [Instr.opcode]⟩
theorem rlunpack (f : Fields) : Statement (.rlunpack f) := ⟨opcodeField_encode _, by simp [Instr.opcode]⟩
theorem aenc (f : Fields) : Statement (.aenc f) := ⟨opcodeField_encode _, by simp [Instr.opcode]⟩
theorem adec (f : Fields) : Statement (.adec f) := ⟨opcodeField_encode _, by simp [Instr.opcode]⟩
theorem prdrst (f : Fields) : Statement (.prdrst f) := ⟨opcodeField_encode _, by simp [Instr.opcode]⟩

end Sys2Proof.Laws.EncodedFields
end

