-- ==== Sys2Proof/Laws/Step.lean ====
section
/-! SUPPORT. Everything one step can do, and what a step does to a placed command. -/

namespace Sys2Proof.Machine

/-- The next arrival comes during the command in flight. -/
def State.overlapped (s : State) : Bool :=
  match s.bus.arrivals with
  | [] => false
  | a :: _ => a.after == 0

/-- Counting a command as done changes no arrival but in its count (log 8). -/
@[simp] theorem oneDone_input (l : List Arrival) : (oneDone l).map (·.input) = l.map (·.input) := by
  cases l <;> rfl

/-- A held access takes effect as any other (R230); if it issues a command, the count of the next arrival goes down (log 8). -/
theorem State.drain_cases (p : Params) (s : State) (a : HostAccess) :
    ((s.perform p a).busy = true ∧
        s.drain p a = (s.perform p a).setArrivals (oneDone (s.perform p a).bus.arrivals)) ∨
      ((s.perform p a).busy = false ∧ s.drain p a = s.perform p a) := by
  cases h : (s.perform p a).busy
  · exact .inr ⟨rfl, by simp [State.drain, h]⟩
  · exact .inl ⟨rfl, by simp [State.drain, h]⟩

theorem State.advance_inflight {p : Params} {run : Instr → State → Result} {s : State} (hb : s.busy = true)
    (ho : s.overlapped = false) : s.advance p run = s.runInflight run := by
  unfold State.overlapped at ho
  unfold State.advance
  rw [if_pos hb]
  split
  · next input later h => rw [h] at ho; simp at ho
  · rfl

/-- Everything one event at the core can be: an arrival during a command, the completion of the command in flight, a held
access taking effect, an arrival at a free core, or nothing (R230, R231, R665). -/
theorem State.advance_cases {p : Params} {run : Instr → State → Result} {s t : State}
    (h : s.advance p run = .next t) :
    (s.busy = true ∧ ∃ input later, s.bus.arrivals = ⟨0, input⟩ :: later ∧
        (s.setArrivals later).receive p input = .next t) ∨
      (s.busy = true ∧ s.overlapped = false ∧ s.runInflight run = .next t) ∨
      (s.busy = false ∧ ∃ a later, s.bus.held = a :: later ∧
        t = (s.setHeld later).drain p a) ∨
      (s.busy = false ∧ s.bus.held = [] ∧ ∃ o input later, s.bus.arrivals = ⟨o, input⟩ :: later ∧
        (s.setArrivals later).receive p input = .next t) ∨
      (s.busy = false ∧ s.bus.held = [] ∧ s.bus.arrivals = [] ∧ t = s) := by
  rcases Bool.eq_false_or_eq_true s.busy with hb | hb
  · rcases Bool.eq_false_or_eq_true s.overlapped with ho | ho
    · unfold State.advance at h
      rw [if_pos hb] at h
      split at h
      · next input later hA => exact .inl ⟨hb, input, later, hA, h⟩
      · next hA =>
        unfold State.overlapped at ho
        split at ho
        · cases ho
        · next a later ha =>
          obtain ⟨n, input⟩ := a
          rw [beq_iff_eq] at ho
          subst ho
          exact absurd ha (hA input later)
    · exact .inr (.inl ⟨hb, ho, by rw [← State.advance_inflight (p := p) hb ho]; exact h⟩)
  · unfold State.advance at h
    rw [if_neg (by simp [hb])] at h
    split at h
    · next a later hh =>
      injection h with h
      exact .inr (.inr (.inl ⟨hb, a, later, hh, h.symm⟩))
    · next hh =>
      split at h
      · next o input later hA => exact .inr (.inr (.inr (.inl ⟨hb, hh, o, input, later, hA, h⟩)))
      · next hA =>
        injection h with h
        exact .inr (.inr (.inr (.inr ⟨hb, hh, hA, h.symm⟩)))

/-- The command in flight runs, or its opcode is illegal (R304, R313). -/
theorem State.runInflight_cases {run : Instr → State → Result} {s t : State} (h : s.runInflight run = .next t) :
    (∃ i, decode s.inflight = .ok i ∧ run i s = .next t) ∨
      (∃ e, decode s.inflight = .error e ∧ t = s.raise .illegalOpcode 0) := by
  unfold State.runInflight at h
  split at h
  · next i hi => exact .inl ⟨i, hi, h⟩
  · next e he => exact .inr ⟨e, he, by injection h with h; exact h.symm⟩

/-- An access that arrives is held or takes effect (R230). -/
theorem State.accept_cases {p : Params} {s t : State} {a : HostAccess} (h : s.accept p a = .next t) :
    a.refusal p = none ∧ s.bus.inReset = false ∧
      ((s.busy = true ∧ (a.reg p).stalls = true ∧ t = s.hold a) ∨
        ((s.busy = false ∨ (a.reg p).stalls = false) ∧ t = s.perform p a)) := by
  unfold State.accept at h
  split at h
  · cases h
  · next hr =>
    split at h
    · cases h
    · next hi =>
      refine ⟨hr, by simpa using hi, ?_⟩
      split at h
      · next hs =>
        simp only [Bool.and_eq_true] at hs
        exact .inl ⟨hs.1, hs.2, by injection h with h; exact h.symm⟩
      · next hs =>
        refine .inr ⟨?_, by injection h with h; exact h.symm⟩
        cases hb : s.busy <;> cases ht : (a.reg p).stalls <;> simp_all

/-- Everything an arrival can do. -/
theorem State.receive_cases {p : Params} {s t : State} {input : HostInput} (h : s.receive p input = .next t) :
    (∃ a, input = .access a ∧ s.accept p a = .next t) ∨ (input = .reset true ∧ t = s.assertReset) ∨
      (input = .reset false ∧ t = s.releaseReset) := by
  cases input with
  | access a => exact .inl ⟨a, rfl, h⟩
  | reset level =>
    cases level with
    | true => exact .inr (.inl ⟨rfl, by injection h with h; exact h.symm⟩)
    | false => exact .inr (.inr ⟨rfl, by injection h with h; exact h.symm⟩)

/-- A placed command completes in the very next step (log 11). -/
theorem step_placeCommand (s : State) (w : Word) : step (s.placeCommand w) = (s.placeCommand w).runInflight exec := by
  unfold step
  refine State.advance_inflight rfl ?_
  cases h : s.bus.arrivals with
  | nil => simp [State.overlapped, State.placeCommand, State.setArrivals, afterCommand, h]
  | cons a later => simp [State.overlapped, State.placeCommand, State.setArrivals, afterCommand, h]

end Sys2Proof.Machine
end

