-- ==== Sys2Proof/Machine/HostProgram.lean ====
section
/-! DEFINITION. Host programs: the assembly syntax (R320), the directives (R321), the pseudo-instructions (R322, R712), and
the host accesses they stand for. -/

namespace Sys2Proof.Machine

/-- The fields of a command line, with the reserved fields 0 (R300, R320). -/
def lineFields (ch src dst : Nat) : Fields where
  ch := BitVec.ofNat 2 ch
  rsv0 := 0
  src := BitVec.ofNat 16 src
  dst := BitVec.ofNat 16 dst
  rsv1 := 0

/-- One line of a host program (R320, R321). -/
inductive HostLine where
  | command (i : Instr)
  /-- `.word addr, v0, v1, ...` -/
  | word (addr : Nat) (values : List Word)
  /-- `.pred c, v` -/
  | pred (c : Channel) (value : Word)
  deriving DecidableEq, Repr

/-- The host writes of `.word`: consecutive DMEM words through the window (R128, R321). -/
def windowWrites (p : Params) : Nat → List Word → List HostAccess
  | _, [] => []
  | addr, v :: vs => .write (p.regBase + (windowBase + 8 * addr)) 8 v :: windowWrites p (addr + 1) vs

/-- The host accesses that a line stands for (R121, R127, R321). -/
def HostLine.accesses (p : Params) : HostLine → List HostAccess
  | .command i => [.write (p.regBase + 0x08) 8 (encode i)]
  | .word addr values => windowWrites p addr values
  | .pred c value => [.write (p.regBase + (0x30 + 8 * c.val)) 8 value]

/-- A host program as arrivals: each access comes after the command before it has completed (R714). -/
def arrivalsOf (p : Params) (lines : List HostLine) : List Arrival :=
  (lines.flatMap (HostLine.accesses p)).map fun a => ⟨1, .access a⟩

/-- ENCPLANE ch, src, tmp, dst: the forward path of one plane (R322). -/
def encPlane (ch src tmp dst : Nat) : List Instr :=
  [.dctf (lineFields 0 src tmp), .qdiv (lineFields 0 tmp tmp), .zzscan (lineFields 0 tmp tmp),
    .rlpack (lineFields ch tmp tmp), .aenc (lineFields 0 tmp dst)]

/-- DECPLANE ch, src, tmp, dst: the inverse path of one plane (R322). -/
def decPlane (ch src tmp dst : Nat) : List Instr :=
  [.adec (lineFields 0 src tmp), .rlunpack (lineFields ch tmp tmp), .zzunscan (lineFields 0 tmp tmp),
    .qmul (lineFields 0 tmp tmp), .dcti (lineFields 0 tmp dst)]

/-- encode_tile: the colour tile at `rgb`, its planes at `pl`, scratch `tmp`, codewords from `cw` (R322, R712). -/
def encodeTile (rgb pl tmp cw : Nat) : List Instr :=
  .ccfwd (lineFields 0 rgb pl) :: [0, 1, 2].flatMap fun c => encPlane c (pl + 64 * c) tmp (cw + 33 * c)

/-- decode_tile (R322, R712). -/
def decodeTile (cw tmp pl rgb : Nat) : List Instr :=
  ([0, 1, 2].flatMap fun c => decPlane c (cw + 33 * c) tmp (pl + 64 * c)) ++ [.ccinv (lineFields 0 pl rgb)]

/-- A command line from its mnemonic and operands; none where the line is not of the form of R320. -/
def assemble (mnemonic : String) (operands : List Nat) : Option Instr :=
  let plain := fun (mk : Fields → Instr) => match operands with
    | [src, dst] => if src < 65536 ∧ dst < 65536 then some (mk (lineFields 0 src dst)) else none
    | _ => none
  let channelled := fun (mk : Fields → Instr) => match operands with
    | [ch, src, dst] => if ch < 3 ∧ src < 65536 ∧ dst < 65536 then some (mk (lineFields ch src dst)) else none
    | _ => none
  let bare := fun (mk : Fields → Instr) => match operands with
    | [] => some (mk (lineFields 0 0 0))
    | _ => none
  if mnemonic = "NOP" then bare .nop
  else if mnemonic = "CCFWD" then plain .ccfwd
  else if mnemonic = "CCINV" then plain .ccinv
  else if mnemonic = "DCTF" then plain .dctf
  else if mnemonic = "DCTI" then plain .dcti
  else if mnemonic = "QDIV" then plain .qdiv
  else if mnemonic = "QMUL" then plain .qmul
  else if mnemonic = "ZZSCAN" then plain .zzscan
  else if mnemonic = "ZZUNSCAN" then plain .zzunscan
  else if mnemonic = "RLPACK" then channelled .rlpack
  else if mnemonic = "RLUNPACK" then channelled .rlunpack
  else if mnemonic = "AENC" then plain .aenc
  else if mnemonic = "ADEC" then plain .adec
  else if mnemonic = "PRDRST" then bare .prdrst
  else none

/-- One line of a listing, where a pseudo-instruction stands for its commands (R320, R322). -/
def assembleLine (mnemonic : String) (operands : List Nat) : Option (List Instr) :=
  if mnemonic = "ENCPLANE" then
    match operands with
    | [ch, src, tmp, dst] =>
      if ch < 3 ∧ src < 65536 ∧ tmp < 65536 ∧ dst < 65536 then some (encPlane ch src tmp dst) else none
    | _ => none
  else if mnemonic = "DECPLANE" then
    match operands with
    | [ch, src, tmp, dst] =>
      if ch < 3 ∧ src < 65536 ∧ tmp < 65536 ∧ dst < 65536 then some (decPlane ch src tmp dst) else none
    | _ => none
  else (assemble mnemonic operands).map fun i => [i]

/-- The value of a digit below `base`. -/
def digitValue (base : Nat) (c : Char) : Option Nat :=
  let v :=
    if '0' ≤ c ∧ c ≤ '9' then c.toNat - '0'.toNat
    else if 'a' ≤ c ∧ c ≤ 'f' then c.toNat - 'a'.toNat + 10
    else if 'A' ≤ c ∧ c ≤ 'F' then c.toNat - 'A'.toNat + 10
    else base
  if v < base then some v else none

/-- An unsigned number from its digits. -/
def numberOf (base : Nat) : Nat → List Char → Option Nat
  | acc, [] => some acc
  | acc, c :: cs => match digitValue base c with
    | some v => numberOf base (acc * base + v) cs
    | none => none

/-- An operand: unsigned decimal, or hexadecimal with the prefix 0x (R320). -/
def operandOf : List Char → Option Nat
  | '0' :: 'x' :: c :: cs => numberOf 16 0 (c :: cs)
  | c :: cs => numberOf 10 0 (c :: cs)
  | [] => none

/-- The words of a line, split at blanks and commas, up to a comment (R320; log 20). -/
def tokens : List Char → List Char → List (List Char)
  | word, [] => if word.isEmpty then [] else [word.reverse]
  | word, c :: cs =>
    if c = ';' then (if word.isEmpty then [] else [word.reverse])
    else if c = ' ' ∨ c = ',' ∨ c = '\t' then (if word.isEmpty then tokens [] cs else word.reverse :: tokens [] cs)
    else tokens (c :: word) cs

/-- The commands of one line of text; an empty line gives none of them, a malformed one gives no answer (R320, R322). -/
def assembleText (line : List Char) : Option (List Instr) :=
  match tokens [] line with
  | [] => some []
  | mnemonic :: operands =>
    (operands.mapM operandOf).bind fun ns => assembleLine (String.ofList mnemonic) ns

end Sys2Proof.Machine
end

