-- ==== Sys2Proof/Tests/Slice0.lean ====
section
/-! SUPPORT. Tests. Expected values come from spec/95_test_vectors.md (section named at each test) and from the encoding tables
of spec/30_encoding.md; the last part has a witness for the hypotheses of each statement of Certificates/Slice0. -/

namespace Sys2Proof.Tests

open Sys2Proof Sys2Proof.Machine Sys2Proof.Spec

/-- Integers as words. -/
def W (l : List Int) : List Word := l.map u64

/-- n zero words. -/
def zeros (n : Nat) : List Word := List.replicate n 0

/-- A command's fields, the reserved ones 0. -/
def at3 (ch : BitVec 2) (src dst : BitVec 16) : Fields := ⟨ch, 0, src, dst, 0⟩

/-- The state right after the issue of a command from reset, with the given words in DMEM from address a. -/
def busyWith (a : Nat) (ws : List Word) : State := { State.reset with mem := Memory.writeWords [] a ws, busy := true }

/-- DMEM words after a result. -/
def wordsAfter (r : Result) (a count : Nat) : Option (List Word) :=
  match r with
  | .next t => t.mem.readWords a count
  | .fault _ => none
  | .refused _ => none

/-- STATUS and FINFO after a result. -/
def recordAfter (r : Result) : Option (Word × Word) :=
  match r with
  | .next t => some (t.statusWord, t.finfo)
  | .fault _ => none
  | .refused _ => none

/-- PRED after a result. -/
def predAfter (r : Result) : Option (Word × Word × Word) :=
  match r with
  | .next t => some (t.pred0, t.pred1, t.pred2)
  | .fault _ => none
  | .refused _ => none

/-! ### Well-formedness: one ill-formed term per check (R303, R305, R310) -/

theorem test_wf_accepts : (Instr.nop (at3 0 0 0)).wellFormed 4096 = true ∧ (Instr.rlpack (at3 2 4032 3966)).wellFormed 4096 = true ∧
    (Instr.ccfwd (at3 0 3904 3904)).wellFormed 4096 = true := by decide

theorem test_wf_rsv0 : (Instr.qdiv ⟨0, 1, 0, 0, 0⟩).wellFormed 4096 = false := by decide

theorem test_wf_rsv1 : (Instr.rlpack ⟨0, 0, 0, 0, 0x8000⟩).wellFormed 4096 = false := by decide

theorem test_wf_unused_channel : (Instr.dctf (at3 1 0 0)).wellFormed 4096 = false ∧
    (Instr.prdrst (at3 1 0 0)).wellFormed 4096 = false := by decide

theorem test_wf_unused_source : (Instr.nop (at3 0 1 0)).wellFormed 4096 = false := by decide

theorem test_wf_unused_destination : (Instr.prdrst (at3 0 0 1)).wellFormed 4096 = false := by decide

theorem test_wf_channel : (Instr.rlunpack (at3 3 0 0)).wellFormed 4096 = false := by decide

theorem test_wf_source_range : (Instr.aenc (at3 0 3967 0)).wellFormed 4096 = false := by decide

theorem test_wf_destination_range : (Instr.adec (at3 0 0 3967)).wellFormed 4096 = false := by decide

/-! ### Decoding: the printed words of 95_test_vectors.md section 2.9 -/

theorem test_decode_control : decode 0x0000000000000000 = .ok (.nop (at3 0 0 0)) ∧
    decode 0x000000000000000D = .ok (.prdrst (at3 0 0 0)) := by decide

theorem test_decode_color : decode 0x000003E800000001 = .ok (.ccfwd (at3 0 0 1000)) ∧
    decode 0x0000040004000002 = .ok (.ccinv (at3 0 1024 1024)) := by decide

theorem test_decode_transform : decode 0x0000010003E80003 = .ok (.dctf (at3 0 1000 256)) ∧
    decode 0x000007D001000004 = .ok (.dcti (at3 0 256 2000)) := by decide

theorem test_decode_quantizer : decode 0x0000010001000005 = .ok (.qdiv (at3 0 256 256)) ∧
    decode 0x0000010001000006 = .ok (.qmul (at3 0 256 256)) := by decide

theorem test_decode_zigzag : decode 0x0000010001000007 = .ok (.zzscan (at3 0 256 256)) ∧
    decode 0x0000010001000008 = .ok (.zzunscan (at3 0 256 256)) := by decide

theorem test_decode_packer : decode 0x0000010001000109 = .ok (.rlpack (at3 1 256 256)) ∧
    decode 0x000001000100020A = .ok (.rlunpack (at3 2 256 256)) := by decide

theorem test_decode_coder : decode 0x000002210100000B = .ok (.aenc (at3 0 256 545)) ∧
    decode 0x000001000242000C = .ok (.adec (at3 0 578 256)) := by decide

/-- R300, bit by bit: RSV1 = 0xA5C3, DST = 0x8001, SRC = 0x7FFE, RSV0 = 100001, CH = 10, OP = 0x09. -/
theorem test_decode_every_field :
    decode 0b1010010111000011_1000000000000001_0111111111111110_100001_10_00001001 =
      .ok (.rlpack ⟨2, 33, 0x7FFE, 0x8001, 0xA5C3⟩) := by decide

theorem test_decode_illegal : decode 0x000000000000070E = .error (.illegalOpcode 0x0E) ∧
    decode 0x00000000000000FF = .error (.illegalOpcode 0xFF) := by decide

theorem test_encode_fields : encode (.rlpack ⟨2, 33, 0x7FFE, 0x8001, 0xA5C3⟩) = 0xA5C380017FFE8609 := by decide

theorem test_table_word : decodeTableWord 64 0x000002210100000B = some (.aenc (at3 0 256 545)) ∧
    decodeTableWord 16 0x0109 = some (.rlpack (at3 1 0 0)) := by decide

/-- A placed NOP runs in the very next step. -/
theorem test_placed_nop : step (State.reset.withFetchWord 64 0) = .next { State.reset with done := true } := by rfl

/-! ### The commands -/

/-- 95_test_vectors.md section 2.1: the ten rows as samples 0 .. 9 of a tile. -/
theorem test_ccfwd :
    let ws := W ([0, 255, 128, 255, 0, 0, 1, 200, 300, -1] ++ List.replicate 54 0 ++
      [0, 255, 128, 0, 255, 0, 2, 100, -5, 256] ++ List.replicate 54 0 ++
      [0, 255, 128, 0, 0, 255, 3, 50, 128, 1000] ++ List.replicate 54 0)
    let r := exec (.ccfwd (at3 0 0 0)) (busyWith 0 ws)
    wordsAfter r 0 10 = some (W [-128, 127, 0, -52, 22, -99, -126, -4, -37, 51]) ∧
      wordsAfter r 64 10 = some (W [0, 0, 0, -43, -84, 128, 1, -42, 21, 43]) ∧
      wordsAfter r 128 10 = some (W [0, 0, 0, 128, -107, -21, -1, 54, 117, -128]) := by decide +kernel

/-- 95_test_vectors.md section 2.1, the corner cases as samples 0 .. 8. -/
theorem test_ccinv :
    let ws := W ([0, 2 ^ 31, -2 ^ 31, 0, 11 * 2 ^ 31 + 1, 200 * 2 ^ 32, -200 * 2 ^ 32, 0, 0] ++ List.replicate 55 0 ++
      [0, 0, 0, 2 ^ 31, 0, 0, 0, 127 * 2 ^ 32, -128 * 2 ^ 32] ++ List.replicate 119 0)
    let r := exec (.ccinv (at3 0 0 1000)) (busyWith 0 ws)
    wordsAfter r 1000 9 = some (W [128, 128, 128, 128, 134, 255, 0, 128, 128]) ∧
      wordsAfter r 1064 9 = some (W [128, 128, 128, 128, 134, 255, 0, 84, 172]) ∧
      wordsAfter r 1128 9 = some (W [128, 128, 128, 129, 134, 255, 0, 255, 0]) := by decide +kernel

/-- 95_test_vectors.md section 2.2: the gradient, row 0 of the outputs. -/
theorem test_dctf : wordsAfter (exec (.dctf (at3 0 0 64)) (busyWith 0 (W ((List.range 64).map Int.ofNat)))) 64 9 =
    some [0x000000FC00000000, 0xFFFFFFEDC74285FC, 0, 0xFFFFFFFE185DDBE4, 0, 0xFFFFFFFF6E87DFD4, 0, 0xFFFFFFFFDB499FF2,
      0xFFFFFF6E3A142FE1] := by decide +kernel

/-- 95_test_vectors.md section 2.2: the saturated uniform plane of 40000. -/
theorem test_dctf_saturates : wordsAfter (exec (.dctf (at3 0 0 0)) (busyWith 0 (List.replicate 64 40000))) 0 2 =
    some [0x0003FFF80000017C, 0] := by decide +kernel

/-- 95_test_vectors.md section 2.2: Y[1] = 1.0. -/
theorem test_dcti : wordsAfter (exec (.dcti (at3 0 0 64)) (busyWith 0 (0 :: 0x100000000 :: zeros 62))) 64 9 =
    some [0x2C62A163, 0x25A0C5DF, 0x192469C1, 0x08D42AEF, 0xFFFFFFFFF72BD511, 0xFFFFFFFFE6DB963F, 0xFFFFFFFFDA5F3A21,
      0xFFFFFFFFD39D5E9D, 0x2C62A163] := by decide +kernel

/-- 95_test_vectors.md section 2.2: Y[0] = −2^62, saturated. -/
theorem test_dcti_saturates : wordsAfter (exec (.dcti (at3 0 0 0)) (busyWith 0 (W [-2 ^ 62] ++ zeros 63))) 63 1 =
    some [0xFFFDFFFFFFFFFF42] := by decide +kernel

/-- 95_test_vectors.md section 2.3: 8 + 2^−32 at k = 0, 15.0 at k = 2, 181.0 at k = 53, −148.0 at k = 63. -/
theorem test_qdiv : wordsAfter (exec (.qdiv (at3 0 0 0))
      (busyWith 0 (W ([8 * 2 ^ 32 + 1, 0, 15 * 2 ^ 32] ++ List.replicate 50 0 ++ [181 * 2 ^ 32] ++ List.replicate 9 0 ++
        [-148 * 2 ^ 32])))) 0 64 =
    some (W ([1, 0, 2] ++ List.replicate 50 0 ++ [1] ++ List.replicate 9 0 ++ [-1])) := by decide +kernel

/-- 95_test_vectors.md section 2.3: −8.0 at k = 0 rounds to even; the word 0x8000000000000000 there clamps. -/
theorem test_qdiv_even_and_clamp :
    wordsAfter (exec (.qdiv (at3 0 0 0)) (busyWith 0 (W [-8 * 2 ^ 32] ++ zeros 63))) 0 1 = some [0] ∧
      wordsAfter (exec (.qdiv (at3 0 0 0)) (busyWith 0 (0x8000000000000000 :: zeros 63))) 0 1 = some (W [-128]) := by
  decide +kernel

/-- 95_test_vectors.md section 2.3: 3 at k = 0, −2 at k = 1, 8665 at k = 53. -/
theorem test_qmul :
    let r := exec (.qmul (at3 0 0 0)) (busyWith 0 (W ([3, -2] ++ List.replicate 51 0 ++ [8665] ++ List.replicate 10 0)))
    wordsAfter r 0 2 = some [0x0000003000000000, 0xFFFFFFEA00000000] ∧ wordsAfter r 53 1 = some [0x000FFF9100000000] := by
  decide +kernel

/-- 95_test_vectors.md section 2.3: 8666 at k = 53 saturates. -/
theorem test_qmul_saturates :
    wordsAfter (exec (.qmul (at3 0 0 0)) (busyWith 0 (W (List.replicate 53 0 ++ [8666] ++ List.replicate 10 0)))) 53 1 =
      some [0x000FFFFF00000000] := by decide +kernel

/-- 95_test_vectors.md section 2.4: in[k] = k, in place. -/
theorem test_zzscan : wordsAfter (exec (.zzscan (at3 0 7 7)) (busyWith 7 (W ((List.range 64).map Int.ofNat)))) 7 16 =
    some [0, 1, 8, 16, 9, 2, 3, 10, 17, 24, 32, 25, 18, 11, 4, 5] := by decide +kernel

/-- 95_test_vectors.md section 2.4, the other way round: −7 at index 27 goes to offset 6, one word at index 15 to offset 5. -/
theorem test_zzunscan :
    wordsAfter (exec (.zzunscan (at3 0 0 0)) (busyWith 0 (zeros 15 ++ [0xFFFFFFFFDB499FF2] ++ zeros 11 ++ W [-7] ++ zeros 36)))
      0 64 = some (zeros 5 ++ [0xFFFFFFFFDB499FF2] ++ W [-7] ++ zeros 57) := by decide +kernel

/-- 95_test_vectors.md section 2.5, row "unclipped", on channel 2. -/
theorem test_rlpack :
    let r := exec (.rlpack (at3 2 0 0)) { busyWith 0 (W ([200, 40] ++ List.replicate 61 0 ++ [-100])) with pred2 := u64 (-50) }
    wordsAfter r 0 8 = some (W [7, 250, 0, 40, 61, -100, 0, 0]) ∧ predAfter r = some (0, 0, 200) := by decide +kernel

/-- 95_test_vectors.md section 2.5, row "delta wraps". -/
theorem test_rlpack_wraps :
    let r := exec (.rlpack (at3 0 0 100)) { busyWith 0 (W [-2 ^ 63] ++ zeros 63) with pred0 := 1 }
    wordsAfter r 100 4 = some (W [3, 2 ^ 63 - 1, 0, 0]) ∧ predAfter r = some (W [-2 ^ 63] |>.headD 0, 0, 0) := by decide +kernel

/-- 95_test_vectors.md section 2.5, row "symbols after terminator", on channel 1. -/
theorem test_rlunpack :
    let r := exec (.rlunpack (at3 1 0 200)) { busyWith 0 (W [5, 4, 0, 0, 9, 9]) with pred1 := 1 }
    wordsAfter r 200 64 = some (5 :: zeros 63) ∧ predAfter r = some (0, 5, 0) := by decide +kernel

/-- 95_test_vectors.md section 2.5, rows "overflow", "negative run", "no terminator, even" and "count 130". -/
theorem test_rlunpack_faults :
    recordAfter (exec (.rlunpack (at3 0 0 0)) (busyWith 0 (W [7, 0, 62, 1, 0, 1, 0, 0]))) = some (0x804, 3) ∧
      recordAfter (exec (.rlunpack (at3 0 0 0)) (busyWith 0 (W [5, 0, -1, 5, 0, 0]))) = some (0x704, 1) ∧
      recordAfter (exec (.rlunpack (at3 0 0 0)) (busyWith 0 (W [4, 1, 0, 5, 0]))) = some (0x604, 4) ∧
      recordAfter (exec (.rlunpack (at3 0 0 0)) (busyWith 0 [130])) = some (0x504, 130) := by decide +kernel

/-- 95_test_vectors.md section 2.7, row "7; [5, 2, 3, 1, −1, 0, 0]". -/
theorem test_aenc : wordsAfter (exec (.aenc (at3 0 0 200)) (busyWith 0 (W [7, 5, 2, 3, 1, -1, 0, 0]))) 200 33 =
    some (zeros 31 ++ [0xC5D4C12420500000, 0xFDA528E0CF31F160]) := by decide +kernel

/-- 95_test_vectors.md section 2.7: the empty stream, and count word 130. -/
theorem test_aenc_bounds :
    wordsAfter (exec (.aenc (at3 0 0 200)) (busyWith 0 [0])) 200 33 = some (zeros 32 ++ [0x8000000000000000]) ∧
      recordAfter (exec (.aenc (at3 0 0 200)) (busyWith 0 [130])) = some (0x504, 130) := by decide +kernel

/-- 95_test_vectors.md section 2.7: the codeword of "2; [1, 2]" decodes to "5; [1, 2, 0, 0, 0]". -/
theorem test_adec : wordsAfter (exec (.adec (at3 0 0 200)) (busyWith 0 (zeros 32 ++ [0xD348899B00000000]))) 200 6 =
    some [5, 1, 2, 0, 0, 0] := by decide +kernel

/-- 95_test_vectors.md section 2.9, last row: the codeword 3, 0, .., 0 raises DEC_OVERRUN. -/
theorem test_adec_overrun : recordAfter (exec (.adec (at3 0 0 3966)) (busyWith 0 (3 :: zeros 32))) = some (0x904, 129) := by
  decide +kernel

/-- 95_test_vectors.md section 2.8, and section 2.9 "NOP with CH = 1". -/
theorem test_nop : recordAfter (exec (.nop (at3 0 0 0)) (busyWith 0 [])) = some (2, 0) ∧
    recordAfter (exec (.nop (at3 1 0 0)) (busyWith 0 [])) = some (0x204, 0) := by decide

/-- 95_test_vectors.md section 2.8. -/
theorem test_prdrst :
    let r := exec (.prdrst (at3 0 0 0)) { busyWith 0 [] with pred0 := 7, pred1 := u64 (-3), pred2 := 12 }
    predAfter r = some (0, 0, 0) ∧ recordAfter r = some (2, 0) := by decide

/-- 95_test_vectors.md section 2.9: BAD_CHANNEL before ADDR_RANGE, the source range before the destination range. -/
theorem test_check_order :
    recordAfter (exec (.rlpack (at3 3 0xFFF 0)) (busyWith 0 [])) = some (0x304, 0) ∧
      recordAfter (exec (.ccfwd (at3 0 4000 4000)) (busyWith 0 [])) = some (0x404, 0) ∧
      recordAfter (exec (.rlpack (at3 0 0 3967)) (busyWith 0 [])) = some (0x404, 1) := by decide

/-! ### The host port, of a core with the register block at an address of its own (R110, R202) -/

/-- The default model arguments, with the register block at 0x40000000. -/
def farCore : Params := { params with regBase := 0x40000000 }

/-- A write of one aligned word at an offset of that block. -/
def wr (offset : Nat) (w : Word) : HostAccess := .write (0x40000000 + offset) 8 w

/-- A read of one aligned word at an offset of that block. -/
def rd (offset : Nat) : HostAccess := .read (0x40000000 + offset) 8

/-- What is still to come, with the count of each access. -/
def port (l : List (Nat × HostAccess)) : State :=
  { State.reset with bus := { HostBus.reset with arrivals := l.map fun a => ⟨a.1, .access a.2⟩ } }

/-- The state after n steps, while the model does not stop. -/
def run : Nat → State → Option State
  | 0, s => some s
  | n + 1, s => match stepAt farCore s with
    | .next t => run n t
    | .fault _ => none
    | .refused _ => none

/-- STATUS, irq and FCMD after n steps. -/
def flagsAfter (n : Nat) (s : State) : Option (Word × Bool × Word) := (run n s).map fun t => (t.statusWord, t.irq, t.fcmd)

/-- The words handed to the host after n steps. -/
def repliesAfter (n : Nat) (s : State) : Option (List Word) := (run n s).map fun t => t.bus.replies

/-- 95_test_vectors.md section 2.10, rows 1 to 4. -/
theorem test_done_and_irq :
    let s := port [(1, wr 0x18 1), (1, wr 8 0), (1, wr 0x10 2), (1, wr 0x10 0xF1)]
    flagsAfter 3 s = some (2, true, 0) ∧ flagsAfter 4 s = some (0, false, 0) ∧ flagsAfter 5 s = some (0, false, 0) := by
  decide +kernel

/-- 95_test_vectors.md section 2.10, rows 5 to 9. -/
theorem test_fault_lost_and_recovery :
    let s := port [(1, wr 0x18 2), (1, wr 8 0xE), (1, wr 8 0), (1, wr 8 0xD), (1, wr 0x10 4), (1, wr 0x10 8)]
    flagsAfter 3 s = some (0x104, true, 0xE) ∧ flagsAfter 4 s = some (0x10C, true, 0xE) ∧
      flagsAfter 5 s = some (0x10C, true, 0xE) ∧ flagsAfter 6 s = some (8, false, 0) ∧ flagsAfter 7 s = some (0, false, 0) := by
  decide +kernel

/-- R230: while a NOP runs, a write to PRED0 waits and a read of STATUS sees BUSY; then the NOP completes, then the write. -/
theorem test_stall :
    let s := { port [(0, wr 0x30 9), (0, rd 0x10)] with busy := true }
    run 2 s = some { s with bus := { HostBus.reset with held := [wr 0x30 9], replies := [1] } } ∧
      run 4 s = some { s with busy := false, done := true, pred0 := 9, bus := { HostBus.reset with replies := [1] } } :=
  ⟨rfl, rfl⟩

/-- R230, R650: two CMD writes, the second held while the first runs. A read of STATUS sees BUSY during the command that the
held write issued (count 1: only the first command has completed by then), and DONE after it (count 2). -/
theorem test_arrival_during_held_command :
    repliesAfter 5 (port [(1, wr 8 0), (0, wr 8 0), (1, rd 0x10)]) = some [1] ∧
      repliesAfter 6 (port [(1, wr 8 0), (0, wr 8 0), (2, rd 0x10)]) = some [2] := by decide +kernel

/-- R201, R202, R221, R713: the accesses for which there is no move: narrow, misaligned, outside the block on either side,
during reset. -/
theorem test_refused_accesses :
    let stops (a : HostAccess) (r : Refusal) := stepAt farCore (port [(1, a)]) = .refused r
    stops (.read 0x40000010 4) (.busError 0x10 4) ∧ stops (wr 0x0C 1) (.busError 0x0C 8) ∧
      stops (rd 0x90000) (.outsideBlock 0x40090000) ∧ stops (.write 0x3FFFFFF8 8 0) (.outsideBlock 0x3FFFFFF8) ∧
      stepAt farCore { port [(1, rd 0)] with bus := { (port [(1, rd 0)]).bus with inReset := true } } =
        .refused .accessDuringReset :=
  ⟨rfl, rfl, rfl, rfl, rfl⟩

/-- R141, R311: a command that reads an unwritten word stops the model at the first one. -/
theorem test_unwritten : exec (.rlunpack (at3 0 0 0)) (busyWith 0 [3, 0]) = .fault (.unwrittenDmem 2) := by rfl

/-- 95_test_vectors.md section 3, P1: the words of ENCPLANE 1, 64, 256, 545, and a line of text. -/
theorem test_assembly :
    (encPlane 1 64 256 545).map encode =
      [0x0000010000400003, 0x0000010001000005, 0x0000010001000007, 0x0000010001000109, 0x000002210100000B] ∧
    assembleText "  ADEC  578, 0x100 ; last plane".toList = some [.adec (at3 0 578 256)] ∧
    assembleText "RLPACK 3, 0, 0".toList = none := by decide +kernel

/-! ### Witnesses: states and operands that meet the hypotheses of the statements -/

/-- The result is a next state. -/
def isNext (r : Result) : Bool :=
  match r with
  | .next _ => true
  | .fault _ => false
  | .refused _ => false

theorem isNext_next {r : Result} (h : isNext r = true) : ∃ t, r = .next t := by
  cases r with
  | next t => exact ⟨t, rfl⟩
  | fault x => cases h
  | refused x => cases h

/-- The words written from reset are read back. -/
theorem busyWith_reads (a : Nat) (ws : List Word) : (busyWith a ws).mem.readWords a ws.length = some ws :=
  Memory.readWords_writeWords [] a ws

/-- A state with one access still to come: during the command in flight, or at a free core. -/
def coming (busy : Bool) (a : HostAccess) : State := { port [(0, a)] with busy := busy }

theorem coming_busy (a : HostAccess) : ArrivingAccess (coming true a) a [] := ⟨rfl, .inl ⟨rfl, rfl⟩⟩

theorem coming_free (a : HostAccess) : ArrivingAccess (coming false a) a [] := ⟨rfl, .inr ⟨rfl, rfl, 0, rfl⟩⟩

theorem busyWith_alone (a : Nat) (ws : List Word) : NothingOverlaps (busyWith a ws) := by
  intro x later h
  cases h

/-- EncodeOfDecodeIsSame, HasOpcode: a word decodes; the last legal and the first illegal opcode. -/
theorem witness_decodes : decode 0x0D = .ok (.prdrst (at3 0 0 0)) ∧ (∃ e, decode 0x0E = .error e) ∧
    ∃ e, decode 0xFF = .error e := ⟨by decide, ⟨.illegalOpcode 0x0E, by decide⟩, ⟨.illegalOpcode 0xFF, by decide⟩⟩

/-- TableRowsAreTheUnreservedWords, IllegalOpcodeOnlyRecords, StepRunsDecodedCommand: a command in flight, alone, on a word that
matches a row, on one that does not, and on an illegal one. -/
theorem witness_in_flight :
    let s (w : Word) : State := { busyWith 0 [] with inflight := w }
    (∀ w, (s w).busy = true ∧ (s w).fault = false ∧ NothingOverlaps (s w)) ∧
      (∃ row ∈ tableRows, (s 0x309).inflight &&& row.2 = row.1) ∧ (¬∃ row ∈ tableRows, (s 0x709).inflight &&& row.2 = row.1) ∧
      0x0E ≤ ((s 0x0E).inflight.extractLsb' 0 8).toNat ∧ decode (s 0x309).inflight = .ok (.rlpack (at3 3 0 0)) :=
  ⟨fun _ => ⟨rfl, rfl, busyWith_alone 0 []⟩, ⟨(0x0000000000000009, 0xFFFF00000000FCFF), by decide, by decide⟩, by decide,
    by decide, by decide⟩

/-- CommandCheckPriority: one command for each clause, at the bounds. -/
theorem witness_check_clauses :
    ((Instr.dctf (at3 1 0 0)).fields.ch ≠ 0 ∧ (opcodeRow (.dctf (at3 1 0 0))).1 = false) ∧
      ((opcodeRow (.rlpack (at3 3 4095 4095))).1 = true ∧ (at3 3 4095 4095).ch = 3 ∧ (at3 3 4095 4095).rsv0 = 0) ∧
      dmemWords < (at3 0 4033 0).src.toNat + (opcodeRow (.dctf (at3 0 4033 0))).2.1 ∧
      dmemWords < (at3 0 0 3967).dst.toNat + (opcodeRow (.rlpack (at3 0 0 3967))).2.2 ∧
      (Instr.dctf (at3 0 4032 4032)).wellFormed dmemWords = true := by decide

/-- OnlyPlainCheckFaults, OnlyChannelCheckFaults: commands that are not legal. -/
theorem witness_illegal_operands : (Instr.ccfwd (at3 0 3905 0)).wellFormed dmemWords = false ∧
    (Instr.rlunpack (at3 3 0 0)).wellFormed dmemWords = false := by decide

/-- CcfwdResult, CcinvResult, CcfwdRange: a tile at the last legal address. -/
theorem witness_tile : (Instr.ccfwd (at3 0 3904 3904)).wellFormed dmemWords = true ∧
    (Instr.ccinv (at3 0 3904 3904)).wellFormed dmemWords = true ∧
    (busyWith 3904 (zeros 192)).mem.readWords (at3 0 3904 3904).src.toNat 192 = some (zeros 192) ∧
    ∃ t, exec (.ccfwd (at3 0 3904 3904)) (busyWith 3904 (zeros 192)) = .next t :=
  ⟨by decide, by decide, busyWith_reads 3904 (zeros 192), isNext_next (by decide +kernel)⟩

/-- DctfResult, DctiResult, QdivResult, QmulResult, ZzscanResult, ZzunscanResult, TransformOutputsFit, DctfOfUniformPlane: a
plane at the last legal address. -/
theorem witness_plane :
    (∀ mk ∈ [Instr.dctf, .dcti, .qdiv, .qmul, .zzscan, .zzunscan], (mk (at3 0 4032 4032)).wellFormed dmemWords = true) ∧
    (at3 0 4032 4032).plainLegal dmemWords 64 64 = true ∧
    (busyWith 4032 (List.replicate 64 5)).mem.readWords (at3 0 4032 4032).src.toNat 64 = some (List.replicate 64 5) ∧
    (∃ t, exec (.dctf (at3 0 4032 4032)) (busyWith 4032 (List.replicate 64 5)) = .next t) ∧
    ∃ t, exec (.dcti (at3 0 4032 4032)) (busyWith 4032 (List.replicate 64 5)) = .next t :=
  ⟨by decide, by decide, busyWith_reads 4032 (List.replicate 64 5), isNext_next (by decide +kernel),
    isNext_next (by decide +kernel)⟩

/-- ZigzagRoundTrip, QuantizerHalfStep, TransformNearInverse: two commands on one plane of entries at the bound 256. -/
theorem witness_two_planes : (at3 0 0 64).plainLegal dmemWords 64 64 = true ∧ (at3 0 64 0).plainLegal dmemWords 64 64 = true ∧
    params.legal = true ∧ (at3 0 0 64).plainLegal params.dmemWords 64 64 = true ∧
    (at3 0 64 0).plainLegal params.dmemWords 64 64 = true ∧ (at3 0 64 0).src = (at3 0 0 64).dst ∧
    (busyWith 0 (List.replicate 64 256)).mem.readWords (at3 0 0 64).src.toNat 64 = some (List.replicate 64 256) ∧
    ∀ k : Fin 64, |intAt (List.replicate 64 256) k.val| ≤ 256 :=
  ⟨by decide, by decide, by decide +kernel, by decide, by decide, by decide, busyWith_reads 0 (List.replicate 64 256), by decide⟩

/-- QuantizerHalfStep, its two clauses: a coefficient of 24.0 and one of 5000.0 over a step of 16. -/
theorem witness_half_step :
    (∃ l : ℤ, IsRne (((24 * 2 ^ 32 : ℤ) : ℚ) / ((16 : ℕ) * 2 ^ 32)) l ∧ -128 ≤ l ∧ l ≤ 127) ∧
      ∃ l : ℤ, IsRne (((5000 * 2 ^ 32 : ℤ) : ℚ) / ((16 : ℕ) * 2 ^ 32)) l ∧ (l < -128 ∨ 127 < l) := by
  refine ⟨⟨2, ⟨?_, fun _ => by decide⟩, by decide⟩, ⟨312, ⟨?_, fun _ => by decide⟩, by decide⟩⟩ <;> norm_num [abs_le]

/-- RlpackResult, RlpackStreamLength, PackerRoundTrip: a sequence at the last legal address, packed and unpacked. -/
theorem witness_pack : (Instr.rlpack (at3 2 4032 3966)).wellFormed dmemWords = true ∧ (at3 2 4032 3966).ch.toNat = (2 : Channel).val ∧
    (busyWith 4032 (zeros 64)).mem.readWords (at3 2 4032 3966).src.toNat 64 = some (zeros 64) ∧
    (∃ t, exec (.rlpack (at3 2 4032 3966)) (busyWith 4032 (zeros 64)) = .next t) ∧
    (Instr.rlunpack (at3 2 3966 4032)).wellFormed dmemWords = true ∧ (at3 2 3966 4032).src = (at3 2 4032 3966).dst ∧
    (at3 2 3966 4032).ch = (at3 2 4032 3966).ch :=
  ⟨by decide, by decide, busyWith_reads 4032 (zeros 64), isNext_next (by decide +kernel), by decide, by decide, by decide⟩

/-- RlunpackResult: a stream in DMEM with count word n and symbols ws. -/
theorem stream_reads (a : Nat) (n : Word) (ws : List Word) (hn : n.toNat = ws.length) :
    (busyWith a (n :: ws)).mem.readWord a = some n ∧ (busyWith a (n :: ws)).mem.readWords (a + 1) n.toNat = some ws := by
  have h := Memory.readWords_writeWords_inside [] a [n] ws []
  rw [List.append_nil, List.singleton_append] at h
  exact ⟨Memory.readWord_writeWords [] a 0 (n :: ws) (by simp), by rw [hn]; exact h⟩

/-- RlunpackResult: the counts out of bounds, at the bounds. -/
theorem witness_bad_counts : (Instr.rlunpack (at3 2 0 0)).wellFormed dmemWords = true ∧
    (at3 2 0 0).ch.toNat = (2 : Channel).val ∧ (busyWith 0 [0]).mem.readWord 0 = some 0 ∧
    (busyWith 0 [130]).mem.readWord 0 = some 130 ∧ 129 < (130 : Word).toNat :=
  ⟨by decide, by decide, by decide +kernel, by decide +kernel, by decide⟩

/-- RlunpackResult: accepted pairs that fill the sequence. -/
theorem witness_accepted : AcceptedPairs [(62, 1)] ∧ AcceptedPairs [(2, 0)] ∧ AcceptedPairs [] := by
  refine ⟨⟨?_, by decide⟩, ⟨?_, by decide⟩, ⟨?_, by decide⟩⟩ <;> simp

/-- RlunpackResult: after the pair (62, 1), a terminator and an ignored symbol; nothing; a negative run; a pair too many. -/
theorem witness_unpack_clauses :
    (busyWith 0 (W [6, 0, 62, 1, 0, 0, 9])).mem.readWords 1 (6 : Word).toNat =
        some ([0] ++ pairSymbols [(62, 1)] ++ ([0, 0] ++ [9])) ∧
      (busyWith 0 (W [3, 0, 62, 1])).mem.readWords 1 (3 : Word).toNat = some ([0] ++ pairSymbols [(62, 1)] ++ []) ∧
      ((busyWith 0 (W [5, 0, 62, 1, -1, 5])).mem.readWords 1 (5 : Word).toNat =
        some ([0] ++ pairSymbols [(62, 1)] ++ (u64 (-1) :: 5 :: [])) ∧ (u64 (-1)).toInt < 0) ∧
      (busyWith 0 (W [5, 0, 62, 1, 0, 1])).mem.readWords 1 (5 : Word).toNat =
        some ([0] ++ pairSymbols [(62, 1)] ++ (0 :: 1 :: [])) ∧
      64 < 1 + ((pairElements [(62, 1)]).length : ℤ) + (0 : Word).toInt + 1 := by decide +kernel

/-- AencResult, CodewordInsideInterval: streams of no symbol and of 129 symbols, and a count of 130. -/
theorem witness_encode : (Instr.aenc (at3 0 3966 4063)).wellFormed dmemWords = true ∧
    ((busyWith 3966 [0]).mem.readWord 3966 = some 0 ∧ (busyWith 3966 [0]).mem.readWords (3966 + 1) (0 : Word).toNat = some []) ∧
    ((busyWith 3966 (129 :: zeros 129)).mem.readWord 3966 = some 129 ∧
      (busyWith 3966 (129 :: zeros 129)).mem.readWords (3966 + 1) (129 : Word).toNat = some (zeros 129)) ∧
    (busyWith 3966 [130]).mem.readWord 3966 = some 130 ∧ params.legal = true ∧ (List.replicate 129 (31 : ℤ)).length ≤ 129 :=
  ⟨by decide, stream_reads 3966 0 [] (by decide), stream_reads 3966 129 (zeros 129) (by decide +kernel),
    Memory.readWord_writeWords [] 3966 0 [130] (by decide), by decide +kernel, by simp⟩

/-- AdecResult: the codeword of value 1/2 decodes to 0, 0, 0, which ends; the codeword 0 to 129 times −32, which does not. -/
theorem witness_decode_symbols :
    (Instr.adec (at3 0 4063 3966)).wellFormed dmemWords = true ∧
    (busyWith 4063 (zeros 33)).mem.readWords (at3 0 4063 3966).src.toNat 33 = some (zeros 33) ∧
    (DecodesTo defaultCum (1 / 2) [0, 0, 0] ∧ (∀ k < [0, 0, 0].length, ¬EndsHere (([0, 0, 0] : List ℤ).take k)) ∧
      EndsHere [0, 0, 0]) ∧
    (∀ n, DecodesTo defaultCum 0 (List.replicate n (-32))) ∧
    (∀ k < 129, ¬EndsHere ((List.replicate 129 (-32 : ℤ)).take k)) ∧ ¬EndsHere (List.replicate 129 (-32)) := by
  have lo32 : lowBound defaultCum (-32) = 0 := by
    rw [lowBound, show defaultCum.getD ((-32 : ℤ) + 32).toNat 0 = 0 from rfl]
    norm_num
  have hi32 : highBound defaultCum (-32) = 1 / 65536 := by
    rw [highBound, show defaultCum.getD ((-32 : ℤ) + 33).toNat 0 = 1 from rfl]
    norm_num
  have lo0 : lowBound defaultCum 0 = 21192 / 65536 := by
    rw [lowBound, show defaultCum.getD ((0 : ℤ) + 32).toNat 0 = 21192 from rfl]
    norm_num
  have hi0 : highBound defaultCum 0 = 44345 / 65536 := by
    rw [highBound, show defaultCum.getD ((0 : ℤ) + 33).toNat 0 = 44345 from rfl]
    norm_num
  refine ⟨by decide, busyWith_reads 4063 (zeros 33), ⟨?_, ?_, ?_⟩, ?_, ?_, ?_⟩
  · simp only [DecodesTo, lo0, hi0]
    norm_num
  · unfold EndsHere
    decide
  · unfold EndsHere
    decide
  · intro n
    induction n with
    | zero => exact trivial
    | succ n ih =>
      rw [List.replicate_succ]
      refine ⟨by decide, by decide, by rw [lo32], by rw [hi32]; norm_num, ?_⟩
      rwa [lo32, sub_zero, zero_div]
  · unfold EndsHere
    decide +kernel
  · unfold EndsHere
    decide +kernel

/-- The value of the codeword words of 1/2 and of 0. -/
theorem witness_codeword_values : codewordValue (zeros 32 ++ [0x8000000000000000]) = 1 / 2 ∧ codewordValue (zeros 33) = 0 := by
  constructor
  · simp [codewordValue, Finset.sum_range_succ, zeros, List.replicate]
    rw [show (9223372036854775808 : ℚ) = 2 ^ 63 by norm_num, ← pow_add, div_eq_iff (by positivity),
      show (2112 : ℕ) = (63 + 2048) + 1 from rfl, pow_succ' (2 : ℚ) (63 + 2048), inv_mul_cancel_left₀ two_ne_zero]
  · simp [codewordValue, Finset.sum_range_succ, zeros, List.replicate]

/-- FaultOrCompletion, StoresStayInDestination, PredictorsOnlyByPackers: a command that ends with a fault, one that completes,
one that changes a predictor, and keys on both sides of a footprint. -/
theorem witness_ends :
    exec (.nop (at3 1 0 0)) (busyWith 0 []) = .next ((busyWith 0 []).raise .reservedField 0) ∧
      exec (.nop (at3 0 0 0)) (busyWith 0 []) = .next (busyWith 0 []).complete ∧
      (∃ t, exec (.prdrst (at3 0 0 0)) { busyWith 0 [] with pred1 := 5 } = .next t ∧ t.pred 1 ≠ 5) ∧
      (7 : ℕ) < 8 * (at3 0 0 1).dst.toNat ∧ 8 * ((at3 0 0 1).dst.toNat + (opcodeRow (.aenc (at3 0 0 1))).2.2) ≤ 272 :=
  ⟨rfl, rfl, ⟨_, rfl, by decide⟩, by decide, by decide⟩

/-- UnwrittenReadStops: nothing written; a count word in bounds with a symbol missing. -/
theorem witness_unwritten :
    (State.reset.mem.wf ∧ (Instr.ccfwd (at3 0 0 0)).wellFormed dmemWords = true ∧ State.reset.mem.readWords 0 192 = none ∧
      State.reset.mem.readWord 0 = none ∧ (Instr.aenc (at3 0 0 0)).wellFormed dmemWords = true) ∧
    (busyWith 0 [1]).mem.wf ∧ (busyWith 0 [1]).mem.readWord 0 = some 1 ∧ 1 ≤ (1 : Word).toNat ∧ (1 : Word).toNat ≤ 129 ∧
      (busyWith 0 [1]).mem.readWords (0 + 1) (1 : Word).toNat = none :=
  ⟨⟨Memory.wfIn_nil _, by decide, by decide +kernel, by decide +kernel, by decide⟩,
    Memory.wfIn_writeWords (Memory.wfIn_nil _) (by decide), by decide +kernel, by decide, by decide, by decide +kernel⟩

/-- CmdWriteIssues, StallRule, StatusReadLayout, StatusWriteClears, CtrlReadWrite, PredRegisterAccess, ReadOnlyRegisters: the
accesses of these statements arrive while a command runs and at a free core, and are legal. -/
theorem witness_accesses (w : Word) :
    (∀ a, ArrivingAccess (coming true a) a [] ∧ (coming true a).busy = true) ∧
      (∀ a, ArrivingAccess (coming false a) a [] ∧ (coming false a).busy = false) ∧
      (∀ o ∈ [0x00, 0x08, 0x10, 0x18, 0x20, 0x28, 0x30, 0x38, 0x40],
        LegalOffset o ∧ (writeAt o w).size = 8 ∧ (writeAt o w).address = Config.regBase + o) ∧
      WaitingOffset 0x08 ∧ WaitingOffset (0x10000 + 8 * 4095) ∧ ¬WaitingOffset 0x10 ∧ ¬WaitingOffset (0x10000 + 8 * 4096) := by
  refine ⟨fun a => ⟨coming_busy a, rfl⟩, fun a => ⟨coming_free a, rfl⟩, ?_, ?_⟩
  · simp [LegalOffset, HostAccess.size, HostAccess.address]
  · simp [WaitingOffset, dmemWords]

/-- A held CMD write. -/
def heldCmd (w : Word) (b : Bool) : State :=
  { State.reset with fault := b, bus := { HostBus.reset with held := [writeAt 0x08 w] } }

/-- A CMD write that arrives. -/
def comingCmd (w : Word) (b : Bool) : State := { coming false (writeAt 0x08 w) with fault := b }

/-- CmdWriteIssues, StallRule: a CMD write that is held, and one that arrives, at a free core, with and without a fault
recorded; and the state after its issue, which nothing overlaps. -/
theorem witness_issue (w : Word) (b : Bool) :
    ((heldCmd w b).busy = false ∧ (heldCmd w b).fault = b ∧ (heldCmd w b).bus.held = writeAt 0x08 w :: []) ∧
    ((comingCmd w b).busy = false ∧ (comingCmd w b).fault = b ∧ ArrivingAccess (comingCmd w b) (writeAt 0x08 w) []) ∧
    NothingOverlaps { State.reset with inflight := w, done := false, busy := true } :=
  ⟨⟨rfl, rfl, rfl⟩, ⟨rfl, rfl, ⟨rfl, .inr ⟨rfl, rfl, 0, rfl⟩⟩⟩, fun _ _ h => nomatch h⟩

/-- A read of the last DMEM word arrives, with 7 in that word. -/
def windowState : State :=
  { coming false (readAt (0x10000 + 8 * 4095)) with mem := Memory.writeWords [] 4095 [7] }

/-- DmemWindowAccess: the last word of the window, written and unwritten. -/
theorem witness_window : 4095 < dmemWords ∧ windowState.busy = false ∧ windowState.mem.readWord 4095 = some 7 ∧
    ArrivingAccess windowState (readAt (0x10000 + 8 * 4095)) [] ∧
    (coming false (readAt (0x10000 + 8 * 4095))).mem.readWord 4095 = none :=
  ⟨by decide, rfl, Memory.readWord_writeWords [] 4095 0 [7] (by decide), ⟨rfl, .inr ⟨rfl, rfl, 0, rfl⟩⟩, by decide +kernel⟩

/-- ReservedOffsetsDoNothing: the first and the last offset of both reserved ranges. -/
theorem witness_reserved : ∀ o ∈ [0x48, 0xFFF8, 0x18000, 0x8FFF8], LegalOffset o ∧ ReservedOffset o := by
  simp [LegalOffset, ReservedOffset, dmemWords]

/-- A read of ID arrives during reset. -/
def resetState : State :=
  { coming false (readAt 0) with bus := { (coming false (readAt 0)).bus with inReset := true } }

/-- MalformedAccessRefused, AccessDuringResetRefused, ResetInputResets: what arrives; a narrow access at an aligned offset, a
64-bit one at a misaligned offset. -/
theorem witness_refusals :
    (Arriving (coming true (.read (Config.regBase + 0x10) 4)) (.access (.read (Config.regBase + 0x10) 4)) [] ∧
      (HostAccess.read (Config.regBase + 0x10) 4).size ≠ 8) ∧
    (Arriving (coming true (readAt 0x14)) (.access (readAt 0x14)) [] ∧ (readAt 0x14).address = Config.regBase + 0x14 ∧
      0x14 < 0x90000 ∧ 0x14 % 8 ≠ 0) ∧
    (resetState.bus.inReset = true ∧ Arriving resetState (.access (readAt 0)) [] ∧ (readAt 0).size = 8 ∧
      (readAt 0).address = Config.regBase + 0 ∧ LegalOffset 0) ∧
    Arriving { State.reset with busy := true, bus := { HostBus.reset with
      held := [readAt 0x30], arrivals := [⟨0, .reset true⟩] } } (.reset true) [] :=
  ⟨⟨.inl ⟨rfl, rfl⟩, by decide⟩, ⟨.inl ⟨rfl, rfl⟩, rfl, by decide, by decide⟩,
    ⟨rfl, .inr ⟨rfl, rfl, 0, rfl⟩, rfl, rfl, ⟨rfl, by decide⟩⟩, .inl ⟨rfl, rfl⟩⟩

/-- InvariantKept, IdleCoreStays, BusyEnds: the state after reset and a command in flight. -/
theorem witness_steps : State.reset.Inv params ∧ step State.reset = .next State.reset ∧ State.reset.busy = false ∧
    State.reset.bus.held = [] ∧ State.reset.bus.arrivals = [] ∧ (busyWith 0 []).busy = true ∧ (busyWith 0 []).Inv params :=
  ⟨⟨Memory.wfIn_nil _, rfl, rfl⟩, rfl, rfl, rfl, rfl, rfl, ⟨Memory.wfIn_nil _, rfl, rfl⟩⟩

theorem inDomain {ws : List Word} (h : (ws.all fun w => decide (-32 ≤ w.toInt) && decide (w.toInt ≤ 31)) = true) :
    SymbolsInDomain ws := by
  intro w hw
  simpa using List.all_eq_true.1 h w hw

/-- CoderRoundTrip, ClippedSymbolsEncodeAlike: the shortest and the longest stream that the coder returns. -/
theorem witness_round_trip_streams : RoundTripStream (zeros 3) ∧
    RoundTripStream (31 :: (List.replicate 63 [0, 31]).flatten ++ [0, 0]) := by
  refine ⟨⟨inDomain (by decide +kernel), by decide, by decide, by decide, by decide, by decide, ?_⟩,
    ⟨inDomain (by decide +kernel), by decide +kernel, by decide +kernel, by decide +kernel, by decide +kernel, by decide +kernel, ?_⟩⟩
  · intro j h1 h2
    have : j = 0 := by simp [zeros] at h2; omega
    omega
  · have h : ∀ j < 127, j % 2 = 1 → ¬((31 :: (List.replicate 63 [0, 31]).flatten ++ [0, 0] : List Word).getD j 1 = 0 ∧
        (31 :: (List.replicate 63 [0, 31]).flatten ++ [0, 0] : List Word).getD (j + 1) 1 = 0) := by decide +kernel
    intro j h1 h2
    exact h j (by simp at h2; omega) h1

/-- CoderRoundTrip, ClippedSymbolsEncodeAlike, CoderDependsOnlyOnOperands: a stream in DMEM, its codeword, and two states that
differ elsewhere. -/
theorem witness_coder :
    let s := busyWith 0 (3 :: zeros 3)
    (Instr.aenc (at3 0 0 200)).wellFormed params.dmemWords = true ∧ (Instr.adec (at3 0 200 0)).wellFormed params.dmemWords = true ∧
      (at3 0 200 0).src = (at3 0 0 200).dst ∧ s.mem.readWord 0 = some 3 ∧ s.mem.readWords (0 + 1) (3 : Word).toNat = some (zeros 3) ∧
      (∃ t, exec (.aenc (at3 0 0 200)) s = .next t) ∧ (∃ t, exec (.aenc (at3 0 0 200)) { s with pred0 := 9 } = .next t) ∧
      (busyWith 0 (zeros 33)).mem.readWords 0 33 = some (zeros 33) ∧
      ∃ t, exec (.adec (at3 0 0 100)) (busyWith 0 (zeros 33)) = .next t :=
  ⟨by decide, by decide, by decide, (stream_reads 0 3 (zeros 3) rfl).1, (stream_reads 0 3 (zeros 3) rfl).2,
    isNext_next (by decide +kernel), isNext_next (by decide +kernel), busyWith_reads 0 (zeros 33), isNext_next (by decide +kernel)⟩

/-- ClippedSymbolsEncodeAlike: 32 and 31 clip to the same value, −33 and −32 too. -/
theorem witness_clips : [(32 : Word), u64 (-33)].map (fun w => saturate (-32) 31 w.toInt) =
    [(31 : Word), u64 (-32)].map (fun w => saturate (-32) 31 w.toInt) := by decide

/-- SymbolLookupUnique: the two ends of [0, 1). -/
theorem witness_values : params.legal = true ∧ (0 : ℚ) ≤ 0 ∧ (0 : ℚ) < 1 ∧ (0 : ℚ) ≤ 1 - 1 / 2 ^ 100 ∧ (1 : ℚ) - 1 / 2 ^ 100 < 1 :=
  ⟨by decide +kernel, by norm_num, by norm_num, by norm_num, by norm_num⟩

/-- EntropyPathLossless: four commands in a row on a sequence of zeros, every symbol in range. -/
theorem witness_entropy_path : (Instr.rlpack (at3 0 0 64)).wellFormed dmemWords = true ∧
    (Instr.aenc (at3 0 64 256)).wellFormed dmemWords = true ∧ (Instr.adec (at3 0 256 512)).wellFormed dmemWords = true ∧
    (Instr.rlunpack (at3 0 512 0)).wellFormed dmemWords = true ∧ (at3 0 0 64).ch.toNat = (0 : Channel).val ∧
    (busyWith 0 (31 :: zeros 63)).mem.readWords 0 64 = some (31 :: zeros 63) ∧
    SymbolsInDomain ([(31 :: zeros 63 : List Word).getD 0 0 - (busyWith 0 (31 :: zeros 63)).pred 0] ++ runValuePairs (31 :: zeros 63)) :=
  ⟨by decide, by decide, by decide, by decide, by decide, busyWith_reads 0 (31 :: zeros 63),
    inDomain (by decide +kernel)⟩

end Sys2Proof.Tests
end

section
/-! PROOFS. The host port: how the arrival of one access becomes the next step (R221, R230), and what each register of the
block does when it is read or written (R110, R120 to R129). -/

namespace Sys2Proof.Machine

open Sys2Proof.Spec

/-! ### The register map -/

theorem regAt_pred (c : Channel) : regAt dmemWords (0x30 + 8 * c.val) = .pred c := by
  fin_cases c <;> rfl

theorem regAt_window {a : ℕ} (ha : a < dmemWords) : regAt dmemWords (0x10000 + 8 * a) = .dmem a := by
  have hword : (0x10000 + 8 * a - windowBase) / 8 = a := by simp [windowBase]
  unfold regAt
  rw [if_pos (by simp [windowBase]), hword, if_pos ha]

theorem regAt_reserved {offset : ℕ} (h : ReservedOffset offset) : regAt dmemWords offset = .reserved := by
  unfold regAt
  rcases h with ⟨hlo, hhi⟩ | hpast
  · rw [if_neg (by simp only [windowBase]; omega)]
    split
    case h_10 => rfl
    all_goals omega
  · rw [if_pos (by simp only [windowBase]; omega), if_neg (by simp only [windowBase]; omega)]

theorem legalOffset_pred (c : Channel) : LegalOffset (0x30 + 8 * c.val) := by
  unfold LegalOffset
  omega

theorem legalOffset_window {a : ℕ} (ha : a < dmemWords) : LegalOffset (0x10000 + 8 * a) := by
  unfold dmemWords at ha
  unfold LegalOffset
  omega

/-! ### An arrival is the next step -/

/-- R231: the next event at the core is what arrives, during a command or at a free core. -/
theorem step_of_arriving {s : State} {input : HostInput} {later : List Arrival} (h : Arriving s input later) :
    step s = (s.setArrivals later).receive params input := by
  unfold step State.advance
  rcases h with ⟨hbusy, harr⟩ | ⟨hfree, hheld, n, harr⟩
  · simp only [hbusy, harr, if_true]
  · simp [hfree, hheld, harr]

theorem HostAccess.reg_of_address {a : HostAccess} {offset : ℕ} (haddr : a.address = Config.regBase + offset) :
    a.reg params = regAt dmemWords offset := by
  have hoff : a.offset params = offset := by simp [HostAccess.offset, haddr, params]
  rw [HostAccess.reg, hoff, params]

theorem HostAccess.refusal_of_legal {a : HostAccess} {offset : ℕ} (hsize : a.size = 8)
    (haddr : a.address = Config.regBase + offset) (hlegal : LegalOffset offset) : a.refusal params = none := by
  obtain ⟨halign, hbound⟩ := hlegal
  have hoff : a.offset params = offset := by simp [HostAccess.offset, haddr, params]
  have hblock : a.inBlock params := by
    simp only [HostAccess.inBlock, haddr, params, blockBytes]
    omega
  unfold HostAccess.refusal
  rw [if_neg (not_not_intro hblock), if_neg (by simp [hsize, hoff, halign])]

/-! ### One access, by the register that its offset names -/

section
variable {s : State} {a : HostAccess} {offset : ℕ} {later : List Arrival} {r : HostReg} {w : Word}

/-- R230: a legal access that arrives is held while BUSY = 1 if its register waits; otherwise it takes effect at once. -/
theorem step_access (h : ArrivingAccess s a later) (hsize : a.size = 8) (haddr : a.address = Config.regBase + offset)
    (hlegal : LegalOffset offset) (hreg : regAt dmemWords offset = r) :
    step s =
      if s.busy && r.stalls then .next ((s.setArrivals later).hold a)
      else .next ((s.setArrivals later).perform params a) := by
  obtain ⟨hreset, harriving⟩ := h
  rw [step_of_arriving harriving, State.receive, State.accept, HostAccess.refusal_of_legal hsize haddr hlegal,
    HostAccess.reg_of_address haddr, hreg]
  simp [hreset]

/-- R230: an access waits neither at a free core nor at a register that never waits. -/
theorem no_wait (hgo : s.busy = false ∨ r.stalls = false) : ¬(s.busy && r.stalls) = true := by
  rcases hgo with hfree | hpasses
  · simp [hfree]
  · simp [hpasses]

theorem step_readAt (h : ArrivingAccess s (readAt offset) later) (hlegal : LegalOffset offset)
    (hreg : regAt dmemWords offset = r) (hgo : s.busy = false ∨ r.stalls = false) :
    step s = .next ((s.setArrivals later).hostRead r) := by
  rw [step_access h rfl rfl hlegal hreg, if_neg (no_wait hgo), State.perform, HostAccess.reg_of_address rfl, hreg]

theorem step_writeAt (h : ArrivingAccess s (writeAt offset w) later) (hlegal : LegalOffset offset)
    (hreg : regAt dmemWords offset = r) (hgo : s.busy = false ∨ r.stalls = false) :
    step s = .next ((s.setArrivals later).hostWrite w r) := by
  rw [step_access h rfl rfl hlegal hreg, if_neg (no_wait hgo), State.perform, HostAccess.reg_of_address rfl, hreg]

/-- What a register reads as does not depend on what is still to arrive. -/
theorem State.readReg_setArrivals (s : State) (l : List Arrival) (r : HostReg) :
    (s.setArrivals l).readReg r = s.readReg r := by
  cases r with
  | pred c => simp [State.readReg]
  | _ => rfl

/-- R223: a read hands the host the register's word, and changes no state of the core. -/
theorem step_readAt_replied (h : ArrivingAccess s (readAt offset) later) (hlegal : LegalOffset offset)
    (hreg : regAt dmemWords offset = r) (hgo : s.busy = false ∨ r.stalls = false) (hword : s.readReg r = some w) :
    ∃ t, step s = .next t ∧ Replied s t w later := by
  refine ⟨_, step_readAt h hlegal hreg hgo, ?_⟩
  rw [State.hostRead, State.readReg_setArrivals, hword]
  rfl

/-- R230: while BUSY = 1 an access to a register that waits is held, and nothing else changes. -/
theorem step_heldAt (ha : a = readAt offset ∨ ∃ w, a = writeAt offset w) (h : ArrivingAccess s a later)
    (hlegal : LegalOffset offset) (hreg : regAt dmemWords offset = r) (hbusy : s.busy = true) (hstalls : r.stalls = true) :
    step s = .next { s with bus := { s.bus with arrivals := later, held := s.bus.held ++ [a] } } := by
  obtain ⟨hsize, haddr⟩ : a.size = 8 ∧ a.address = Config.regBase + offset := by
    rcases ha with rfl | ⟨w, rfl⟩ <;> exact ⟨rfl, rfl⟩
  rw [step_access h hsize haddr hlegal hreg, if_pos (by rw [hbusy, hstalls]; rfl)]
  rfl

end

/-! ### What a register's own operation does to the whole state -/

/-- R123: everything that a STATUS write does. -/
theorem State.writeStatus_eq (s : State) (w : Word) :
    s.writeStatus w = { s with
      done := if w.getLsbD 1 then false else s.done
      fault := if w.getLsbD 2 then false else s.fault
      fcode := if w.getLsbD 2 then 0 else s.fcode
      fcmd := if w.getLsbD 2 then 0 else s.fcmd
      finfo := if w.getLsbD 2 then 0 else s.finfo
      lost := if w.getLsbD 3 then false else s.lost } := by
  simp only [State.writeStatus]
  split <;> split <;> split <;> rfl

/-- A predictor write leaves all but the predictors as it was. -/
theorem State.setPred_eq (s : State) (c : Channel) (w : Word) :
    s.setPred c w = { s with
      pred0 := (s.setPred c w).pred0, pred1 := (s.setPred c w).pred1, pred2 := (s.setPred c w).pred2 } := by
  fin_cases c <;> rfl

/-- R124: CTRL as a word: IE_DONE, IE_FAULT, and 0 in bits 63..2. -/
theorem State.ctrlWord_layout (s : State) :
    s.ctrlWord.getLsbD 0 = s.ieDone ∧ s.ctrlWord.getLsbD 1 = s.ieFault ∧ s.ctrlWord.extractLsb' 2 62 = 0 := by
  unfold State.ctrlWord
  cases s.ieFault <;> cases s.ieDone <;> decide

end Sys2Proof.Machine
end

section
/-! PROOFS. The register block of 10_state.md section 3: the statements about STATUS, CTRL, PRED, the DMEM window, the reserved
offsets and the read-only registers. -/

namespace Sys2Proof.Spec

open Sys2Proof.Machine

/-- Settles O30: STATUS never waits, so the write takes effect at once, and `writeStatus_eq` is all that it does. -/
theorem statusWriteClears : Obligations.StatusWriteClears := by
  intro s w later h
  rw [step_writeAt h ⟨rfl, by decide⟩ (r := .status) rfl (.inr rfl), State.hostWrite, State.writeStatus_eq]
  rfl

/-- Settles O31: CTRL never waits; the write is `writeCtrl`, and the word read has the layout of `ctrlWord_layout`. -/
theorem ctrlReadWrite : Obligations.CtrlReadWrite := by
  refine fun s later => ⟨fun w h => ?_, fun h => ?_, rfl, rfl⟩
  · exact ⟨_, step_writeAt h ⟨rfl, by decide⟩ (r := .ctrl) rfl (.inr rfl), rfl, rfl⟩
  · obtain ⟨t, hstep, hreplied⟩ := step_readAt_replied h ⟨rfl, by decide⟩ (r := .ctrl) rfl (.inr rfl) rfl
    exact ⟨t, s.ctrlWord, hstep, hreplied, s.ctrlWord_layout⟩

/-- Settles O33: PREDc is the register at its offset; it waits while BUSY = 1, and a write is `setPred`. -/
theorem predRegisterAccess : Obligations.PredRegisterAccess := by
  refine fun s c later => ⟨fun hfree h => ?_, fun w hfree h => ?_, fun a ha hbusy h => ?_⟩
  · exact step_readAt_replied h (legalOffset_pred c) (regAt_pred c) (.inl hfree) rfl
  · refine ⟨_, step_writeAt h (legalOffset_pred c) (regAt_pred c) (.inl hfree), State.pred_setPred_same _ c w, ?_, ?_⟩
    · intro d hd
      simp [State.hostWrite, State.pred_setPred, hd]
    · exact State.setPred_eq _ c w
  · exact step_heldAt ha h (legalOffset_pred c) (regAt_pred c) hbusy rfl

/-- Settles O34: window offset 8·a is word a; the memory laws say what a store of one word leaves, and an unwritten word is
read as a free value. -/
theorem dmemWindowAccess : Obligations.DmemWindowAccess := by
  intro s a later ha
  have hlegal := legalOffset_window ha
  have hreg := regAt_window ha
  refine ⟨fun w hfree hword h => ?_, fun hfree hword h => ?_, fun w hfree h => ?_, fun x hx hbusy h => ?_⟩
  · exact step_readAt_replied h hlegal hreg (.inl hfree) hword
  · have hstep := step_readAt h hlegal hreg (.inl hfree)
    rw [State.hostRead, State.readReg_setArrivals, State.readReg, hword] at hstep
    exact ⟨_, _, hstep, rfl, rfl⟩
  · refine ⟨_, step_writeAt h hlegal hreg (.inl hfree), rfl, ?_, fun key hkey => ?_⟩
    · exact Memory.readWord_writeWords s.mem a 0 [w] (by simp)
    · exact Memory.readByte_writeWords_outside s.mem a [w] key hkey
  · exact step_heldAt hx h hlegal hreg hbusy rfl

/-- Settles O35: both reserved ranges map to the register that reads 0, ignores writes and never waits. -/
theorem reservedOffsetsDoNothing : Obligations.ReservedOffsetsDoNothing := by
  intro s offset later hlegal hreserved
  have hreg := regAt_reserved hreserved
  exact ⟨fun h => step_readAt_replied h hlegal hreg (.inr rfl) rfl, fun w h => step_writeAt h hlegal hreg (.inr rfl)⟩

/-- Settles O36: each offset names its register; a write to a read-only one does nothing, and of the four only CMD waits. -/
theorem readOnlyRegisters : Obligations.ReadOnlyRegisters := by
  refine fun s later => ⟨fun h => ?_, fun h => ?_, fun h => ?_, fun hfree h => ?_, fun offset w hoff h => ?_⟩
  · exact step_readAt_replied h ⟨rfl, by decide⟩ (r := .id) rfl (.inr rfl) rfl
  · exact step_readAt_replied h ⟨rfl, by decide⟩ (r := .fcmd) rfl (.inr rfl) rfl
  · exact step_readAt_replied h ⟨rfl, by decide⟩ (r := .finfo) rfl (.inr rfl) rfl
  · exact step_readAt_replied h ⟨rfl, by decide⟩ (r := .cmd) rfl (.inl hfree) rfl
  · rcases hoff with rfl | rfl | rfl
    · exact step_writeAt h ⟨rfl, by decide⟩ (r := .id) rfl (.inr rfl)
    · exact step_writeAt h ⟨rfl, by decide⟩ (r := .fcmd) rfl (.inr rfl)
    · exact step_writeAt h ⟨rfl, by decide⟩ (r := .finfo) rfl (.inr rfl)

end Sys2Proof.Spec
end

section
/-! PROOFS. The refusal of a host access that is not one aligned 64-bit access (R221). -/

namespace Sys2Proof.Machine

open Sys2Proof.Spec

section
variable {a : HostAccess} {offset : ℕ}

/-- R110: the offset of an access is counted from REG_BASE. -/
theorem HostAccess.offset_of_address (haddr : a.address = Config.regBase + offset) : a.offset params = offset := by
  rw [HostAccess.offset, haddr]
  exact Nat.add_sub_cancel_left _ _

/-- R201: an access at an offset inside the offset space goes to the register block. -/
theorem HostAccess.inBlock_of_address (haddr : a.address = Config.regBase + offset) (hbound : offset < 0x90000) :
    a.inBlock params := by
  rw [HostAccess.inBlock, haddr]
  exact ⟨Nat.le_add_right _ _, Nat.add_lt_add_left hbound _⟩

/-- R221: an access to the block is refused as a bus error if its size is not 8 bytes or its offset is misaligned. -/
theorem HostAccess.refusal_of_malformed (haddr : a.address = Config.regBase + offset) (hbound : offset < 0x90000)
    (hbad : a.size ≠ 8 ∨ offset % 8 ≠ 0) : a.refusal params = some (.busError offset a.size) := by
  rw [HostAccess.refusal, if_neg (not_not_intro (HostAccess.inBlock_of_address haddr hbound)),
    HostAccess.offset_of_address haddr, if_pos hbad]

end

/-- An arriving access that the port has a reason to refuse stops the model with that reason, whatever the state. -/
theorem step_of_refusal {s : State} {a : HostAccess} {later : List Arrival} {r : Refusal}
    (harriving : Arriving s (.access a) later) (hrefusal : a.refusal params = some r) : step s = .refused r := by
  rw [step_of_arriving harriving, State.receive, State.accept, hrefusal]

end Sys2Proof.Machine

namespace Sys2Proof.Spec

open Sys2Proof.Machine

/-- Settles O37: the access lies in the block, so the port's reason for refusing it is the bus error, at a busy core and at a
free one alike. -/
theorem malformedAccessRefused : Obligations.MalformedAccessRefused :=
  fun _ _ _ _ harriving haddr hbound hbad => step_of_refusal harriving (HostAccess.refusal_of_malformed haddr hbound hbad)

end Sys2Proof.Spec
end

section
/-! PROOFS. The encoding of 30_encoding.md: where the fields of a command lie in its word, the command-level checks in their
order, and the step that meets an illegal opcode. -/

namespace Sys2Proof

open Sys2Proof.Machine

/-! ### The command word -/

/-- R300: every field beside OP is read back from the word, the reserved and the unused ones too. -/
@[simp] theorem fieldsOf_encodeFields (op : BitVec 8) (f : Fields) : fieldsOf (encodeFields op f) = f := by
  unfold fieldsOf encodeFields
  simp (disch := decide) only [BitVec.extractLsb'_append_eq_of_le]
  simp only [Nat.reduceSub, BitVec.extractLsb'_append_eq_right, BitVec.extractLsb'_eq_self]

/-- R300: the word is its fields, each shifted to its place. -/
theorem encodeFields_eq_or_shifts (op : BitVec 8) (f : Fields) :
    encodeFields op f = (f.rsv1.setWidth 64 <<< 48) ||| (f.dst.setWidth 64 <<< 32) ||| (f.src.setWidth 64 <<< 16) |||
      (f.rsv0.setWidth 64 <<< 10) ||| (f.ch.setWidth 64 <<< 8) ||| op.setWidth 64 := by
  rw [← BitVec.setWidth_eq (encodeFields op f), encodeFields]
  simp only [BitVec.setWidth_append_eq_shiftLeft_setWidth_or, BitVec.shiftLeft_or_distrib]
  simp only [← BitVec.shiftLeft_add, Nat.reduceAdd]

/-- R300: with RSV0 and RSV1 at 0, the other four fields make up the word. -/
theorem encodeFields_of_reserved_zero {f : Fields} (op : BitVec 8) (h0 : f.rsv0 = 0) (h1 : f.rsv1 = 0) :
    encodeFields op f = op.setWidth 64 ||| (f.ch.setWidth 64 <<< 8) ||| (f.src.setWidth 64 <<< 16) |||
      (f.dst.setWidth 64 <<< 32) := by
  simp only [encodeFields_eq_or_shifts, h0, h1, BitVec.ofNat_eq_ofNat, BitVec.setWidth_zero, BitVec.zero_shiftLeft,
    BitVec.zero_or, BitVec.or_zero]
  rw [BitVec.or_comm, BitVec.or_comm _ (f.ch.setWidth 64 <<< 8), BitVec.or_comm (f.dst.setWidth 64 <<< 32),
    ← BitVec.or_assoc, ← BitVec.or_assoc]

/-- R304: a word with OP 0x0E .. 0xFF names no command. -/
theorem decode_of_illegal_opcode {w : Word} (h : 0x0E ≤ (opcodeField w).toNat) :
    decode w = .error (.illegalOpcode (opcodeField w)) := by
  unfold decode
  split
  case h_15 => rfl
  all_goals omega

end Sys2Proof

namespace Sys2Proof.Machine

open Sys2Proof.Spec

/-! ### The command-level checks, one at a time (R620, items 2 to 5) -/

section
variable {words : ℕ} {fp : Footprint} {f : Fields}

/-- R303: a reserved field is not 0, or a field that the opcode does not use. -/
abbrev ReservedFieldNonzero (fp : Footprint) (f : Fields) : Prop :=
  f.rsv0 ≠ 0 ∨ f.rsv1 ≠ 0 ∨ (fp.usesCh = false ∧ f.ch ≠ 0) ∨ (fp.srcLen = 0 ∧ f.src ≠ 0) ∨ (fp.dstLen = 0 ∧ f.dst ≠ 0)

/-- R305: CH = 3 for an opcode that uses CH. -/
abbrev ChannelBad (fp : Footprint) (f : Fields) : Prop := fp.usesCh = true ∧ f.ch = 3

/-- R310: the source footprint does not lie in DMEM. -/
abbrev SourceOutside (words : ℕ) (fp : Footprint) (f : Fields) : Prop :=
  0 < fp.srcLen ∧ words < f.src.toNat + fp.srcLen

/-- R310: the destination footprint does not lie in DMEM. -/
abbrev DestOutside (words : ℕ) (fp : Footprint) (f : Fields) : Prop :=
  0 < fp.dstLen ∧ words < f.dst.toNat + fp.dstLen

theorem commandCheck_of_reservedFieldNonzero (h : ReservedFieldNonzero fp f) :
    commandCheck words fp f = some (.reservedField, 0) := if_pos h

theorem commandCheck_of_channelBad (hr : ¬ReservedFieldNonzero fp f) (h : ChannelBad fp f) :
    commandCheck words fp f = some (.badChannel, 0) := by
  rw [commandCheck, if_neg hr, if_pos h]

theorem commandCheck_of_sourceOutside (hr : ¬ReservedFieldNonzero fp f) (hc : ¬ChannelBad fp f)
    (h : SourceOutside words fp f) : commandCheck words fp f = some (.addrRange, 0) := by
  rw [commandCheck, if_neg hr, if_neg hc, if_pos h]

theorem commandCheck_of_destOutside (hr : ¬ReservedFieldNonzero fp f) (hc : ¬ChannelBad fp f)
    (hs : ¬SourceOutside words fp f) (h : DestOutside words fp f) :
    commandCheck words fp f = some (.addrRange, 1) := by
  rw [commandCheck, if_neg hr, if_neg hc, if_neg hs, if_pos h]

/-- A command passes the check phase exactly when none of the four conditions holds. -/
theorem commandCheck_none_iff_no_condition : commandCheck words fp f = none ↔
    ¬ReservedFieldNonzero fp f ∧ ¬ChannelBad fp f ∧ ¬SourceOutside words fp f ∧ ¬DestOutside words fp f := by
  unfold commandCheck
  split_ifs with hr hc hs hd
  · exact iff_of_false nofun fun h => h.1 hr
  · exact iff_of_false nofun fun h => h.2.1 hc
  · exact iff_of_false nofun fun h => h.2.2.1 hs
  · exact iff_of_false nofun fun h => h.2.2.2 hd
  · exact iff_of_true rfl ⟨hr, hc, hs, hd⟩

end

/-- The rows of R302 as the statements write them and as the machine holds them are the same. -/
theorem opcodeRow_eq_footprintOf (i : Instr) :
    opcodeRow i = ((footprintOf i).usesCh, (footprintOf i).srcLen, (footprintOf i).dstLen) := by
  cases i <;> rfl

/-! ### The step of a command that nothing overlaps -/

theorem overlapped_of_nothingOverlaps {s : State} (h : NothingOverlaps s) : s.overlapped = false := by
  unfold State.overlapped
  split
  · rfl
  · next a later harr => simpa using (h a later harr).ne'

/-- A command in flight that nothing overlaps runs to its end in one step (R304, R620; log 7). -/
theorem step_inflight {s : State} (hbusy : s.busy = true) (h : NothingOverlaps s) : step s = s.runInflight exec :=
  State.advance_inflight hbusy (overlapped_of_nothingOverlaps h)

end Sys2Proof.Machine

namespace Sys2Proof.Spec

open Sys2Proof.Machine Sys2Proof.Laws.EncodedFields

/-- Settles O3: the fields are the ones read back from the word, and the shifted reserved fields of a legal command are 0. -/
theorem legalWordFormula : Obligations.LegalWordFormula := by
  intro i
  have hfields : fieldsOf (encode i) = i.fields := fieldsOf_encodeFields i.opcode i.fields
  refine ⟨⟨opcodeField_encode i, congrArg Fields.ch hfields, congrArg Fields.rsv0 hfields, congrArg Fields.src hfields,
    congrArg Fields.dst hfields, congrArg Fields.rsv1 hfields⟩, fun hlegal => ?_⟩
  obtain ⟨h0, h1, -⟩ := commandCheck_none ((wellFormed_iff dmemWords i).mp hlegal)
  exact ⟨h0, h1, encodeFields_of_reserved_zero i.opcode h0 h1⟩

/-- Settles O6: each condition ends the check phase with its fault, and a command that fails a check does nothing else. -/
theorem commandCheckPriority : Obligations.CommandCheckPriority := by
  intro i s
  rw [opcodeRow_eq_footprintOf]
  refine ⟨fun hr => exec_of_check (commandCheck_of_reservedFieldNonzero hr),
    fun ⟨hr, hc⟩ => exec_of_check (commandCheck_of_channelBad hr hc),
    fun ⟨hr, hc, hs⟩ => exec_of_check (commandCheck_of_sourceOutside hr hc hs),
    fun ⟨hr, hc, hs, hd⟩ => exec_of_check (commandCheck_of_destOutside hr hc hs hd), ?_⟩
  exact ((wellFormed_iff dmemWords i).trans commandCheck_none_iff_no_condition).symm

/-- Settles O7: the word decodes to no command, so the step is the raise of ILLEGAL_OPCODE, which writes the record. -/
theorem illegalOpcodeOnlyRecords : Obligations.IllegalOpcodeOnlyRecords := by
  intro s hbusy halone hop
  rw [step_inflight hbusy halone, State.runInflight, decode_of_illegal_opcode hop]
  rfl

end Sys2Proof.Spec
end

section
/-! PROOFS. What every plane and tile command has in common (R14, R302, R610, R611): its opcode, the faults of its check phase,
and its completion with the results of its datapath from DST on. -/

namespace Sys2Proof

open Sys2Proof.Laws.EncodedFields

/-! ### The opcode of a command -/

/-- R302: the decoder reads a command back from its word: OP selects the row, and every field is kept. -/
theorem decode_encode (i : Instr) : decode (encode i) = .ok i := by
  have hfields : fieldsOf (encode i) = i.fields := fieldsOf_encodeFields i.opcode i.fields
  rw [decode, opcodeField_encode, hfields]
  cases i <;> rfl

/-- R302: a word that decodes to a command carries the opcode of that command. -/
theorem opcodeField_of_decode {w : Word} {i : Instr} (h : decode w = .ok i) : opcodeField w = i.opcode := by
  unfold decode at h
  split at h
  case h_15 => cases h
  all_goals
    next hop =>
      cases h
      exact BitVec.eq_of_toNat_eq hop

end Sys2Proof

namespace Sys2Proof.Spec

open Sys2Proof.Machine

theorem hasOpcode {mk : Fields → Instr} {op : BitVec 8} (hop : ∀ f, (mk f).opcode = op)
    (hfields : ∀ f, (mk f).fields = f) : HasOpcode mk op := by
  refine ⟨fun f => ?_, fun w f h => (opcodeField_of_decode h).trans (hop f)⟩
  have h := decode_encode (mk f)
  rwa [encode, hop, hfields] at h

/-! ### The faults of the check phase -/

/-- R601: a command that does not use CH cannot fail the channel check. -/
theorem commandCheck_some_of_channelUnused {words : ℕ} {fp : Footprint} {f : Fields} {c : CoreFault} {x : Word}
    (hch : fp.usesCh = false) (h : commandCheck words fp f = some (c, x)) :
    c = .reservedField ∧ x = 0 ∨ c = .addrRange ∧ (x = 0 ∨ x = 1) := by
  rcases commandCheck_some h with hr | ⟨rfl, -⟩ | ha
  · exact .inl hr
  · have hno : ¬(fp.usesCh = true ∧ f.ch = 3) := by simp [hch]
    rw [commandCheck, if_neg hno] at h
    split_ifs at h <;> cases h
  · exact .inr ha

/-- R303, R310: an illegal command fails a check, and it ends with that fault and nothing else (R610). -/
theorem exec_of_not_wellFormed {i : Instr} (s : State) (h : i.wellFormed dmemWords = false) :
    ∃ c x, commandCheck dmemWords (footprintOf i) i.fields = some (c, x) ∧ exec i s = .next (s.raise c x) := by
  cases hc : commandCheck dmemWords (footprintOf i) i.fields with
  | none => simp [(wellFormed_iff dmemWords i).mpr hc] at h
  | some cx => exact ⟨cx.1, cx.2, rfl, exec_of_check hc⟩

theorem onlyPlainCheckFaults {mk : Fields → Instr} (hch : ∀ f, (footprintOf (mk f)).usesCh = false) :
    OnlyPlainCheckFaults mk := by
  intro f s h
  obtain ⟨c, x, hc, hexec⟩ := exec_of_not_wellFormed s h
  exact ⟨c, x, hexec, commandCheck_some_of_channelUnused (hch f) hc⟩

/-! ### Completion -/

/-- R611: storing results at DST and completing leaves all of DMEM but the result words as it was. -/
theorem completesStoring_store (s : State) (dst : ℕ) (ws : List Word) :
    CompletesStoring s (s.store dst ws).complete dst ws.length :=
  ⟨rfl, fun key hkey => Memory.readByte_writeWords_outside s.mem dst ws key hkey⟩

/-- R611: after completion result word k lies at DST + k. -/
theorem readWord_store_complete (s : State) (dst : ℕ) {ws : List Word} {k : ℕ} {w : Word} (h : ws[k]? = some w) :
    (s.store dst ws).complete.mem.readWord (dst + k) = some w := by
  obtain ⟨hk, rfl⟩ := List.getElem?_eq_some_iff.mp h
  exact Memory.readWord_writeWords s.mem dst k ws hk

/-- The command mk is the plane or tile command with opcode `op` whose datapath is `g` (R302, R311): `len` words in, `len`
words out. -/
def IsPlaneCommand (mk : Fields → Instr) (op : BitVec 8) (len : ℕ) (g : List Word → List Word) : Prop :=
  (∀ f, (mk f).opcode = op) ∧ (∀ f, (mk f).fields = f) ∧ (∀ f, footprintOf (mk f) = ⟨false, len, len⟩) ∧
    (∀ f s, exec (mk f) s = wholeCommand params len f s g) ∧ ∀ ws, (g ws).length = len

section
variable {mk : Fields → Instr} {op : BitVec 8} {len : ℕ} {g : List Word → List Word}

theorem IsPlaneCommand.commandCheck_none (h : IsPlaneCommand mk op len g) {f : Fields}
    (hlegal : (mk f).wellFormed dmemWords = true) : commandCheck params.dmemWords ⟨false, len, len⟩ f = none := by
  obtain ⟨-, hfields, hfootprint, -, -⟩ := h
  have hcheck := (wellFormed_iff dmemWords (mk f)).mp hlegal
  rwa [hfootprint, hfields] at hcheck

/-- A legal command whose source words are written stores the results of its datapath and completes. -/
theorem IsPlaneCommand.exec_of_legal (h : IsPlaneCommand mk op len g) {f : Fields} {s : State} {ws : List Word}
    (hlegal : (mk f).wellFormed dmemWords = true) (hread : s.mem.readWords f.src.toNat len = some ws) :
    exec (mk f) s = .next (s.store f.dst.toNat (g ws)).complete := by
  have hcheck := h.commandCheck_none hlegal
  obtain ⟨-, -, -, hexec, -⟩ := h
  rw [hexec, wholeCommand_of_legal hcheck hread]

/-- A legal command that ends has read its source words, and has stored the results of its datapath. -/
theorem IsPlaneCommand.next_of_legal (h : IsPlaneCommand mk op len g) {f : Fields} {s t : State}
    (hlegal : (mk f).wellFormed dmemWords = true) (hnext : exec (mk f) s = .next t) :
    ∃ ws, s.mem.readWords f.src.toNat len = some ws ∧ t = (s.store f.dst.toNat (g ws)).complete := by
  have hcheck := h.commandCheck_none hlegal
  obtain ⟨-, -, -, hexec, -⟩ := h
  rw [hexec] at hnext
  rcases wholeCommand_cases hnext with ⟨c, x, hc, -⟩ | ⟨-, hstored⟩
  · simp [hcheck] at hc
  · exact hstored

/-- All of a PlaneCommand statement but what its results are: those the datapath's words must show. -/
theorem IsPlaneCommand.planeCommand (h : IsPlaneCommand mk op len g) {result : List Word → State → ℕ → Prop}
    (hresult : ∀ ws (s : State) dst, result ws (s.store dst (g ws)).complete dst) : PlaneCommand mk op len result := by
  have hstored := @h.exec_of_legal
  obtain ⟨hop, hfields, hfootprint, -, hlength⟩ := h
  refine ⟨hasOpcode hop hfields, onlyPlainCheckFaults fun f => by rw [hfootprint], fun f s ws hlegal hread => ?_⟩
  have hframe := completesStoring_store s f.dst.toNat (g ws)
  rw [hlength] at hframe
  exact ⟨_, hstored hlegal hread, hframe, hresult ws s f.dst.toNat⟩

end

end Sys2Proof.Spec
end

section
/-! PROOFS. Exact fractions and the rationals they stand for (R12), and the colour tables of 40_color.md section 1: their entries
as rationals, and MINV as the inverse matrix of COLOR_M (R400, R404). -/

namespace Sys2Proof

/-! ### What a fraction stands for -/

/-- The fraction is a proper one, and it stands for the rational q. -/
def Frac.Denotes (a : Frac) (q : ℚ) : Prop := 0 < a.den ∧ a.toRat = q

namespace Frac.Denotes

variable {a b : Frac} {q r : ℚ}

theorem of_den_pos (h : 0 < a.den) : a.Denotes a.toRat := ⟨h, rfl⟩

theorem congr (ha : a.Denotes q) (h : q = r) : a.Denotes r := h ▸ ha

theorem ofInt (n : ℤ) : (Frac.ofInt n).Denotes n := ⟨one_pos, Frac.toRat_ofInt n⟩

theorem add (ha : a.Denotes q) (hb : b.Denotes r) : (Frac.add a b).Denotes (q + r) :=
  ⟨Frac.den_add_pos ha.1 hb.1, by rw [Frac.toRat_add ha.1 hb.1, ha.2, hb.2]⟩

theorem sub (ha : a.Denotes q) (hb : b.Denotes r) : (Frac.sub a b).Denotes (q - r) :=
  ⟨Frac.den_sub_pos ha.1 hb.1, by rw [Frac.toRat_sub ha.1 hb.1, ha.2, hb.2]⟩

theorem mul (ha : a.Denotes q) (hb : b.Denotes r) : (Frac.mul a b).Denotes (q * r) :=
  ⟨Frac.den_mul_pos ha.1 hb.1, by rw [Frac.toRat_mul, ha.2, hb.2]⟩

theorem div (ha : a.Denotes q) (hb : b.Denotes r) (hn : b.num ≠ 0) : (Frac.div a b).Denotes (q / r) :=
  ⟨Frac.den_div_pos ha.1 hn, by rw [Frac.toRat_div ha.1 hb.1 hn, ha.2, hb.2]⟩

theorem reduce (ha : a.Denotes q) : (Frac.reduce a).Denotes q :=
  ⟨Frac.den_reduce_pos ha.1, by rw [Frac.toRat_reduce, ha.2]⟩

theorem isRne (ha : a.Denotes q) : Machine.IsRne q a.rne := ha.2 ▸ Frac.rne_isRne ha.1

theorem num_ne_zero_iff (ha : a.Denotes q) : a.num ≠ 0 ↔ q ≠ 0 := by
  have hden : (a.den : ℚ) ≠ 0 := Nat.cast_ne_zero.mpr ha.1.ne'
  rw [← ha.2, Frac.toRat, div_ne_zero_iff, Int.cast_ne_zero, and_iff_left hden]

end Frac.Denotes

end Sys2Proof

namespace Sys2Proof.Machine

open Sys2Proof.Spec

/-! ### COLOR_M and MINV as matrices over ℚ -/

/-- Every entry of a table of legal triples is a proper fraction, and so is the 0 outside the table. -/
theorem colorAt_den_pos {m : List (List Frac)} (h : m.all legalTriple = true) (i j : ℕ) : 0 < (colorAt m i j).den := by
  unfold colorAt fracAt
  rw [List.getD_eq_getElem?_getD, List.getD_eq_getElem?_getD]
  cases hrow : m[i]? with
  | none => exact one_pos
  | some row =>
    have hlegal := List.all_eq_true.mp h row (List.mem_of_getElem? hrow)
    simp only [legalTriple, Bool.and_eq_true, List.all_eq_true, decide_eq_true_eq] at hlegal
    cases hentry : row[j]? with
    | none => simp [hentry]
    | some a => simpa [hentry] using hlegal.2 a (List.mem_of_getElem? hentry)

/-- COLOR_M as a matrix of rationals. -/
def ratMatrix (m : List (List Frac)) : Matrix (Fin 3) (Fin 3) ℚ := .of fun i j => (colorAt m i j).toRat

theorem ratMatrix_apply (m : List (List Frac)) (i j : Fin 3) : ratMatrix m i j = (colorAt m i j).toRat := rfl

section
variable {m : List (List Frac)} (hm : m.all legalTriple = true)
include hm

theorem colorAt_denotes (i j : Fin 3) : (colorAt m i j).Denotes (ratMatrix m i j) :=
  .of_den_pos (colorAt_den_pos hm i j)

/-- The transposed cofactors are the adjugate. -/
theorem cofactor_denotes (i j : Fin 3) : (cofactor m j i).Denotes ((ratMatrix m).adjugate i j) := by
  have h (a b : ℕ) : (colorAt m a b).Denotes _ := .of_den_pos (colorAt_den_pos hm a b)
  refine (((h _ _).mul (h _ _)).sub ((h _ _).mul (h _ _))).congr ?_
  rw [Matrix.adjugate_fin_three]
  fin_cases i <;> fin_cases j <;> simp [ratMatrix_apply] <;> ring

theorem determinant_denotes : (determinant m).Denotes (ratMatrix m).det := by
  have h (j : Fin 3) := (colorAt_denotes hm 0 j).mul (cofactor_denotes hm j 0)
  refine ((h 0).add ((h 1).add (h 2))).congr ?_
  rw [← add_assoc, ← Fin.sum_univ_three fun j => ratMatrix m 0 j * (ratMatrix m).adjugate j 0, ← Matrix.mul_apply,
    Matrix.mul_adjugate]
  simp

/-- R404: MINV is the inverse of COLOR_M (log 18). -/
theorem minvAt_denotes (hdet : (determinant m).num ≠ 0) (i j : Fin 3) :
    (minvAt m i j).Denotes ((ratMatrix m)⁻¹ i j) := by
  have h := ((cofactor_denotes hm i j).div (determinant_denotes hm) hdet).reduce
  rwa [Matrix.inv_def, Matrix.smul_apply, smul_eq_mul, Ring.inverse_eq_inv', ← div_eq_inv_mul]

/-- R400, R404: COLOR_M times MINV is the identity. -/
theorem ratMatrix_mul_inv (hdet : (determinant m).num ≠ 0) : ratMatrix m * (ratMatrix m)⁻¹ = 1 :=
  Matrix.mul_nonsing_inv _ (isUnit_iff_ne_zero.mpr ((determinant_denotes hm).num_ne_zero_iff.mp hdet))

end

/-! ### The default tables -/

theorem defaultColorM_all_legal : defaultColorM.all legalTriple = true := by decide

theorem defaultColorM_determinant_ne_zero : (determinant defaultColorM).num ≠ 0 := by decide

theorem defaultColorM_denotes (i j : Fin 3) : (colorAt defaultColorM i j).Denotes (colorMatrix i j) := by
  refine ⟨colorAt_den_pos defaultColorM_all_legal i j, ?_⟩
  fin_cases i <;> fin_cases j <;> norm_num [Frac.toRat, colorAt, fracAt, defaultColorM, colorMatrix]

theorem defaultColorOff_denotes (i : Fin 3) : (fracAt defaultColorOff i).Denotes (colorOffset i) := by
  fin_cases i <;> exact ⟨by decide, by norm_num [Frac.toRat, fracAt, defaultColorOff, colorOffset]⟩

theorem defaultRecenter_denotes (i : Fin 3) : (fracAt defaultRecenter i).Denotes 128 := by
  fin_cases i <;> exact ⟨by decide, by norm_num [Frac.toRat, fracAt, defaultRecenter]⟩

theorem ratMatrix_defaultColorM : ratMatrix defaultColorM = .of colorMatrix := by
  ext i j
  exact (defaultColorM_denotes i j).2

/-- R404: the printed table is the inverse of the default COLOR_M. -/
theorem inverseMatrix_mul_colorMatrix : Matrix.of inverseMatrix * Matrix.of colorMatrix = 1 := by
  ext i j
  simp only [Matrix.mul_apply, Fin.sum_univ_three, Matrix.of_apply]
  fin_cases i <;> fin_cases j <;> simp [inverseMatrix, colorMatrix] <;> norm_num

/-- R404: with the default COLOR_M, MINV is the printed table. -/
theorem default_minvAt_denotes (i j : Fin 3) : (minvAt defaultColorM i j).Denotes (inverseMatrix i j) := by
  have h := minvAt_denotes defaultColorM_all_legal defaultColorM_determinant_ne_zero i j
  rwa [ratMatrix_defaultColorM, Matrix.inv_eq_left_inv inverseMatrix_mul_colorMatrix] at h

end Sys2Proof.Machine

namespace Sys2Proof.Spec

open Sys2Proof.Machine

/-- Settles O59: MINV is the inverse matrix of COLOR_M, which a determinant other than 0 makes a right inverse; the printed table
is a left inverse of the default COLOR_M, so it is that inverse. -/
theorem minvIsExactInverse : Obligations.MinvIsExactInverse := by
  refine ⟨fun i j => (default_minvAt_denotes i j).2, fun p hlegal i j => ?_⟩
  simp only [Params.legal, Params.colorLegal, Bool.and_eq_true, bne_iff_ne] at hlegal
  obtain ⟨⟨-, ⟨⟨⟨-, hm⟩, -⟩, -⟩, hdet⟩, -⟩ := hlegal
  have hinv := congrFun₂ (ratMatrix_mul_inv hm hdet) i j
  simp only [Matrix.mul_apply, Matrix.one_apply, ← (minvAt_denotes hm hdet _ _).2] at hinv
  exact hinv

end Sys2Proof.Spec
end

section
/-! PROOFS. The colour transform: the results of CCFWD (R401) and CCINV (R403), and the range of the former (R402). -/

namespace Sys2Proof.Machine

open Sys2Proof.Spec

/-! ### A tile and its outputs -/

/-- R203: plane ch of a tile lies at offsets 64·ch .. 64·ch + 63. -/
theorem getElem?_tile (g : ℕ → ℕ → Word) (ch : Fin 3) (k : Fin 64) :
    ((List.range 192).map fun j => g (j / 64) (j % 64))[64 * ch.val + k.val]? = some (g ch k) := by
  have hdiv : (64 * ch.val + k.val) / 64 = ch := by omega
  have hmod : (64 * ch.val + k.val) % 64 = k := by omega
  rw [List.getElem?_map, List.getElem?_range (by omega), Option.map_some, hdiv, hmod]

/-- A row of a matrix times three samples, exact in ℚ. -/
theorem rowTimes_denotes {m : List (List Frac)} {ch : ℕ} {x : Fin 3 → Frac} {a q : Fin 3 → ℚ}
    (hm : ∀ l : Fin 3, (colorAt m ch l).Denotes (a l)) (hx : ∀ l, (x l).Denotes (q l)) :
    (rowTimes m ch (x 0) (x 1) (x 2)).Denotes (∑ l : Fin 3, a l * q l) := by
  rw [Fin.sum_univ_three, add_assoc]
  exact ((hm 0).mul (hx 0)).add (((hm 1).mul (hx 1)).add ((hm 2).mul (hx 2)))

/-! ### Bounds of a rounding -/

/-- A rounding is at most an integer that the value does not pass by half. -/
theorem IsRne.le {q : ℚ} {v n : ℤ} (h : IsRne q v) (hq : q < n + 1 / 2) : v ≤ n := by
  have hnear := (abs_le.mp h.1).1
  have hlt : (v : ℚ) < (n + 1 : ℤ) := by push_cast; linarith
  exact Int.lt_add_one_iff.mp (Int.cast_lt.mp hlt)

/-- A rounding is at least an integer that the value does not fall short of by half. -/
theorem IsRne.ge {q : ℚ} {v n : ℤ} (h : IsRne q v) (hq : n - 1 / 2 < q) : n ≤ v := by
  have hnear := (abs_le.mp h.1).2
  have hlt : (n : ℚ) < (v + 1 : ℤ) := by push_cast; linarith
  exact Int.lt_add_one_iff.mp (Int.cast_lt.mp hlt)

/-! ### CCFWD -/

/-- R302, R401: CCFWD is the whole-tile command with opcode 0x01. -/
theorem isPlaneCommand_ccfwd : IsPlaneCommand .ccfwd 0x01 192 (ccfwdWords params) :=
  ⟨fun _ => rfl, fun _ => rfl, fun _ => rfl, fun _ _ => rfl, fun ws => by simp [ccfwdWords]⟩

/-- The exact value that output k of plane ch of CCFWD is rounded from, with the default tables (R401). -/
def ccfwdValue (ws : List Word) (ch : Fin 3) (k : Fin 64) : ℚ :=
  ∑ l : Fin 3, colorMatrix ch l * (saturate 0 255 (intAt ws (64 * l.val + k.val)) : ℚ) + colorOffset ch - 128

/-- R401: a sample of CCFWD is a word of the tile, saturated to 0 .. SAMPLE_MAX. -/
theorem ccfwd_sample_denotes (ws : List Word) (i : ℕ) :
    (Frac.ofInt (clamp (s64 (wordAt ws i)) 0 sampleMax)).Denotes (saturate 0 255 (intAt ws i)) := by
  refine (Frac.Denotes.ofInt _).congr (congrArg Int.cast ?_)
  rw [clamp_eq_max_min (by decide), min_comm]
  rfl

/-- R401: an output of CCFWD is the rounding of its exact value. -/
theorem ccfwdWord_isRne (ws : List Word) (ch : Fin 3) (k : Fin 64) :
    ∃ v : ℤ, IsRne (ccfwdValue ws ch k) v ∧ ccfwdWord params ws ch k = BitVec.ofInt 64 v := by
  have hrow := rowTimes_denotes (defaultColorM_denotes ch) fun l => ccfwd_sample_denotes ws (64 * l.val + k.val)
  exact ⟨_, ((hrow.add (defaultColorOff_denotes ch)).sub (defaultRecenter_denotes ch)).isRne, rfl⟩

/-- R401: where the outputs of a completed CCFWD lie. -/
theorem readWord_ccfwd (ws : List Word) (s : State) (dst : ℕ) (ch : Fin 3) (k : Fin 64) :
    ∃ v : ℤ, IsRne (ccfwdValue ws ch k) v ∧
      (s.store dst (ccfwdWords params ws)).complete.mem.readWord (dst + (64 * ch.val + k.val)) =
        some (BitVec.ofInt 64 v) := by
  obtain ⟨v, hv, hword⟩ := ccfwdWord_isRne ws ch k
  exact ⟨v, hv, hword ▸ readWord_store_complete s dst (getElem?_tile (ccfwdWord params ws) ch k)⟩

/-- R402: samples in 0 .. 255 give row values of COLOR_M, offset and recentred, in these bounds. -/
theorem colorMatrix_row_bounds {x : Fin 3 → ℚ} (hx : ∀ l, 0 ≤ x l ∧ x l ≤ 255) (ch : Fin 3) :
    -128 ≤ ∑ l : Fin 3, colorMatrix ch l * x l + colorOffset ch - 128 ∧
      ∑ l : Fin 3, colorMatrix ch l * x l + colorOffset ch - 128 ≤ if ch = 0 then 127 else 255 / 2 := by
  obtain ⟨hr, hr'⟩ := hx 0
  obtain ⟨hg, hg'⟩ := hx 1
  obtain ⟨hb, hb'⟩ := hx 2
  rw [Fin.sum_univ_three]
  fin_cases ch
  all_goals
    simp only [colorMatrix, colorOffset, Fin.reduceFinMk, Fin.zero_eta, Fin.reduceEq, reduceIte, Matrix.cons_val]
    norm_num
    constructor <;> linarith

/-- R402: every saturated sample is in 0 .. 255, whatever the tile holds, so what CCFWD rounds is in the bounds of a row. -/
theorem ccfwdValue_bounds (ws : List Word) (ch : Fin 3) (k : Fin 64) :
    -128 ≤ ccfwdValue ws ch k ∧ ccfwdValue ws ch k ≤ if ch = 0 then 127 else 255 / 2 := by
  refine colorMatrix_row_bounds (fun l => ?_) ch
  unfold saturate
  constructor <;> norm_cast <;> omega

/-- R402: the bounds that the rounding leaves. -/
theorem ccfwd_rounding_bounds {ws : List Word} {ch : Fin 3} {k : Fin 64} {v : ℤ} (h : IsRne (ccfwdValue ws ch k) v) :
    -128 ≤ v ∧ v ≤ if ch = 0 then 127 else 128 := by
  obtain ⟨hlow, hhigh⟩ := ccfwdValue_bounds ws ch k
  refine ⟨h.ge (by push_cast; linarith), h.le ?_⟩
  split_ifs at hhigh ⊢ <;> push_cast <;> linarith

/-! ### CCINV -/

/-- R302, R403: CCINV is the whole-tile command with opcode 0x02. -/
theorem isPlaneCommand_ccinv : IsPlaneCommand .ccinv 0x02 192 (ccinvWords params) :=
  ⟨fun _ => rfl, fun _ => rfl, fun _ => rfl, fun _ _ => rfl, fun ws => by simp [ccinvWords]⟩

/-- R404: the table MINV holds the entries that minvAt computes. -/
theorem colorAt_minv (m : List (List Frac)) (i j : Fin 3) : colorAt (minv m) i j = minvAt m i j := by
  fin_cases i <;> fin_cases j <;> rfl

/-- R403: an input of CCINV is a coefficient word over 2^32, moved back by RECENTER and COLOR_OFF. -/
theorem ccinv_input_denotes (ws : List Word) (l : Fin 3) (i : ℕ) :
    (Frac.sub (Frac.add ⟨s64 (wordAt ws i), 2 ^ fracBits⟩ (fracAt defaultRecenter l)) (fracAt defaultColorOff l)).Denotes
      ((intAt ws i : ℚ) / 2 ^ 32 + 128 - colorOffset l) := by
  have hcoef : Frac.Denotes ⟨s64 (wordAt ws i), 2 ^ fracBits⟩ ((intAt ws i : ℚ) / 2 ^ 32) :=
    ⟨Nat.two_pow_pos _, by rw [Frac.toRat, Nat.cast_pow]; rfl⟩
  exact (hcoef.add (defaultRecenter_denotes l)).sub (defaultColorOff_denotes l)

/-- R403: an output of CCINV is the saturated rounding of its exact value. -/
theorem ccinvWord_isRne (ws : List Word) (ch : Fin 3) (k : Fin 64) :
    ∃ v : ℤ, IsRne (∑ l : Fin 3, inverseMatrix ch l *
        ((intAt ws (64 * l.val + k.val) : ℚ) / 2 ^ 32 + 128 - colorOffset l)) v ∧
      ccinvWord params (minv defaultColorM) ws ch k = BitVec.ofInt 64 (saturate 0 255 v) := by
  have hminv (l : Fin 3) : (colorAt (minv defaultColorM) ch l).Denotes (inverseMatrix ch l) :=
    colorAt_minv defaultColorM ch l ▸ default_minvAt_denotes ch l
  have hrow := rowTimes_denotes hminv fun l => ccinv_input_denotes ws l (64 * l.val + k.val)
  refine ⟨_, hrow.isRne, ?_⟩
  rw [ccinvWord, clamp_eq_max_min (by decide), min_comm]
  rfl

end Sys2Proof.Machine

namespace Sys2Proof.Spec

open Sys2Proof.Machine

/-- Settles O8: CCFWD is a plane command whose datapath rounds the exact row values of COLOR_M. -/
theorem ccfwdResult : Obligations.CcfwdResult :=
  isPlaneCommand_ccfwd.planeCommand readWord_ccfwd

/-- Settles O9: CCINV is a plane command whose datapath rounds the exact row values of MINV, the printed inverse, and saturates
the rounding. -/
theorem ccinvResult : Obligations.CcinvResult := by
  refine isPlaneCommand_ccinv.planeCommand fun ws s dst ch k => ?_
  obtain ⟨v, hv, hword⟩ := ccinvWord_isRne ws ch k
  exact ⟨v, hv, hword ▸ readWord_store_complete s dst (getElem?_tile (ccinvWord params (minv defaultColorM) ws) ch k)⟩

/-- Settles O55: a CCFWD that ends has stored its outputs, each the rounding of a value in the bounds of R402. -/
theorem ccfwdRange : Obligations.CcfwdRange := by
  intro f s t hlegal hnext ch k
  obtain ⟨ws, -, rfl⟩ := isPlaneCommand_ccfwd.next_of_legal hlegal hnext
  obtain ⟨v, hv, hread⟩ := readWord_ccfwd ws s f.dst.toNat ch k
  obtain ⟨hlow, hhigh⟩ := ccfwd_rounding_bounds hv
  have hmax : v ≤ 128 := hhigh.trans (by split <;> decide)
  have hint : (BitVec.ofInt 64 v).toInt = v := s64_u64 (by omega) (by omega)
  refine ⟨_, hread, ?_⟩
  rw [hint, saturate]
  exact ⟨hlow, hhigh, by omega⟩

end Sys2Proof.Spec
end

section
/-! PROOFS. The datapath of the block transform as matrices over ℤ: KD, a plane, and A · M · Aᵀ rounded once per entry
(R420, R421, R423). -/

namespace Sys2Proof.Machine

open Sys2Proof.Spec Matrix

/-! ### KD, planes and results as matrices -/

/-- KD as a matrix (R420). -/
def kdMatrix : Matrix (Fin 8) (Fin 8) ℤ := .of kdEntry

/-- What KDᵀ · KD differs by from 2^80 times the identity: the columns of KD are orthogonal and of length 2^40 up to what the
rounding of its entries costs, so each entry of the defect is small (R420). -/
def kdDefect : {E : Matrix (Fin 8) (Fin 8) ℤ // ∀ x x', |E x x'| ≤ 2 ^ 42} :=
  ⟨kdMatrixᵀ * kdMatrix - (2 ^ 80 : ℤ) • 1, by decide⟩

/-- Entry (x, y) of a plane lies at offset 8·x + y (R15). -/
def planeMatrix (plane : List ℤ) : Matrix (Fin 8) (Fin 8) ℤ := .of fun x y => plane.getD (8 * x.val + y.val) 0

/-- Every entry of A · M · Aᵀ over 2^shift, rounded (R421, R423). -/
def roundedTransform (A : Matrix (Fin 8) (Fin 8) ℤ) (shift : ℕ) (M : Matrix (Fin 8) (Fin 8) ℤ) :
    Matrix (Fin 8) (Fin 8) ℤ :=
  .of fun i j => rneDiv ((A * M * Aᵀ) i j) (2 ^ shift)

/-- The operand plane of a transform, each word saturated to lo .. hi (R421, R423). -/
def operandMatrix (lo hi : ℤ) (ws : List Word) : Matrix (Fin 8) (Fin 8) ℤ :=
  .of fun x y => saturate lo hi (intAt ws (8 * x.val + y.val))

/-- The rounded results of DCTF (R421). -/
def dctfMatrix (ws : List Word) : Matrix (Fin 8) (Fin 8) ℤ :=
  roundedTransform kdMatrix 48 (operandMatrix (-32768) 32767 ws)

/-- The rounded results of DCTI (R423). -/
def dctiMatrix (ws : List Word) : Matrix (Fin 8) (Fin 8) ℤ :=
  roundedTransform kdMatrixᵀ 80 (operandMatrix (-2 ^ 52) (2 ^ 52 - 1) ws)

/-- The eight basis vectors of a transform are the rows of a matrix. -/
structure BasisRows (basis : List (List ℤ)) (A : Matrix (Fin 8) (Fin 8) ℤ) : Prop where
  length_eq : basis.length = 8
  getElem?_eq : ∀ i : Fin 8, basis[i.val]? = some (List.ofFn (A i))

/-! ### The two-dimensional transform -/

/-- The offset of a plane entry names its row and its column. -/
theorem exists_row_column (k : Fin 64) : ∃ i j : Fin 8, k.val = 8 * i.val + j.val :=
  ⟨⟨k / 8, Nat.div_lt_of_lt_mul k.isLt⟩, ⟨k % 8, Nat.mod_lt _ (by decide)⟩, (Nat.div_add_mod k.val 8).symm⟩

/-- A sum over the offsets of a plane is the sum over its rows and columns. -/
theorem sum_range_plane (g : ℕ → ℤ) : ∑ k ∈ Finset.range 64, g k = ∑ x : Fin 8, ∑ y : Fin 8, g (8 * x.val + y.val) := by
  rw [Finset.sum_range, ← (finProdFinEquiv (m := 8) (n := 8)).sum_comp, Fintype.sum_prod_type]
  exact Finset.sum_congr rfl fun x _ => Finset.sum_congr rfl fun y _ => congrArg g (add_comm _ _)

/-- Two nested passes over lists give entry (i, j) at i times the inner length, plus j. -/
theorem getElem?_flatMap_map {α β γ : Type} {f : α → β → γ} {as : List α} {bs : List β} {i j : ℕ} {a : α} {b : β}
    (hi : as[i]? = some a) (hj : bs[j]? = some b) :
    (as.flatMap fun a => bs.map (f a))[bs.length * i + j]? = some (f a b) := by
  induction as generalizing i with
  | nil => cases hi
  | cons a' as ih =>
    rw [List.flatMap_cons]
    cases i with
    | zero =>
      cases hi
      rw [Nat.mul_zero, Nat.zero_add, List.getElem?_append_left, List.getElem?_map, hj, Option.map_some]
      exact (List.getElem?_eq_some_iff.mp hj).1.trans_eq (List.length_map _).symm
    | succ i =>
      have hindex : bs.length * (i + 1) + j = (bs.map (f a')).length + (bs.length * i + j) := by
        rw [List.length_map, Nat.mul_succ, Nat.add_comm _ bs.length, Nat.add_assoc]
      rw [hindex, List.getElem?_append_right (Nat.le_add_right _ _), Nat.add_sub_cancel_left, ih hi]

/-- `dot_eq_sum` for lists of any lengths: the sum runs over the first list, and the second one counts as 0 past its end. -/
theorem dot_eq_sum_getD (as bs : List ℤ) : dot as bs = ∑ k ∈ Finset.range as.length, as.getD k 0 * bs.getD k 0 := by
  induction as generalizing bs with
  | nil => rfl
  | cons a as ih =>
    cases bs with
    | nil => exact (Finset.sum_eq_zero fun k _ => mul_zero _).symm
    | cons b bs =>
      rw [dot, ih, List.length_cons, Finset.sum_range_succ', add_comm]
      rfl

/-- An entry of A · M · Bᵀ as a double sum, the shape of R421 and R423. -/
theorem mul_mul_transpose_apply (A M B : Matrix (Fin 8) (Fin 8) ℤ) (i j : Fin 8) :
    (A * M * Bᵀ) i j = ∑ x, ∑ y, A i x * B j y * M x y := by
  simp only [Matrix.mul_apply, Finset.sum_mul, transpose_apply]
  rw [Finset.sum_comm]
  exact Finset.sum_congr rfl fun x _ => Finset.sum_congr rfl fun y _ => mul_right_comm _ _ _

/-- Entry i of the list of a row. -/
theorem getElem?_ofFn_val {α : Type} {n : ℕ} (f : Fin n → α) (i : Fin n) : (List.ofFn f)[i.val]? = some (f i) := by
  rw [List.getElem?_ofFn, dif_pos i.isLt]

/-- The products of two basis vectors against a plane give an entry of A · M · Aᵀ. -/
theorem dot_outer (A : Matrix (Fin 8) (Fin 8) ℤ) (plane : List ℤ) (i j : Fin 8) :
    dot (outer (List.ofFn (A i)) (List.ofFn (A j))) plane = (A * planeMatrix plane * Aᵀ) i j := by
  have hlength : (outer (List.ofFn (A i)) (List.ofFn (A j))).length = 64 := rfl
  rw [dot_eq_sum_getD, hlength, sum_range_plane, mul_mul_transpose_apply]
  refine Finset.sum_congr rfl fun x _ => Finset.sum_congr rfl fun y _ => congrArg (· * _) ?_
  have hentry := getElem?_flatMap_map (f := fun a b : ℤ => a * b) (getElem?_ofFn_val (A i) x) (getElem?_ofFn_val (A j) y)
  rw [List.length_ofFn] at hentry
  rw [outer, List.getD_eq_getElem?_getD, hentry, Option.getD_some]

/-- A transform whose basis vectors are the rows of A gives the rounded entries of A · M · Aᵀ for the plane M. -/
theorem BasisRows.getElem?_transform2d {basis : List (List ℤ)} {A : Matrix (Fin 8) (Fin 8) ℤ} (h : BasisRows basis A)
    (shift : ℕ) (plane : List ℤ) (i j : Fin 8) :
    (transform2d basis shift plane)[8 * i.val + j.val]? = some (roundedTransform A shift (planeMatrix plane) i j) := by
  have hentry := getElem?_flatMap_map (f := transformPoint shift plane) (h.getElem?_eq i) (h.getElem?_eq j)
  rw [h.length_eq] at hentry
  rw [transform2d, hentry, transformPoint, dot_outer]
  rfl

/-- Each entry of a rounded transform is the rounding of its exact value (R12). -/
theorem roundedTransform_isRne (A M : Matrix (Fin 8) (Fin 8) ℤ) (shift : ℕ) (i j : Fin 8) :
    IsRne (((A * M * Aᵀ) i j : ℚ) / 2 ^ shift) (roundedTransform A shift M i j) := by
  have h := rneDiv_isRne ((A * M * Aᵀ) i j) (Nat.two_pow_pos shift)
  rwa [Nat.cast_pow] at h

/-! ### DCTF and DCTI -/

/-- R420, R421: the basis vectors of DCTF are the rows of KD. -/
theorem basisRows_kd : BasisRows kd kdMatrix := ⟨rfl, by decide⟩

/-- R420, R423: the basis vectors of DCTI are the columns of KD. -/
theorem basisRows_kdColumns : BasisRows kdColumns kdMatrixᵀ := ⟨rfl, by decide⟩

/-- A plane of saturated words as a matrix; a word that is not there counts as 0. -/
theorem planeMatrix_map {lo hi : ℤ} (hlo : lo ≤ 0) (hhi : 0 ≤ hi) (ws : List Word) :
    planeMatrix (ws.map fun w => clamp (s64 w) lo hi) = operandMatrix lo hi ws := by
  ext x y
  have hzero : clamp (s64 0) lo hi = 0 := clamp_of_mem hlo hhi
  simp only [planeMatrix, operandMatrix, of_apply]
  rw [← hzero, List.getD_map, clamp_eq_max_min (hlo.trans hhi), min_comm]
  rfl

/-- R421: where the results of DCTF lie. -/
theorem getElem?_dctfWords (ws : List Word) (u v : Fin 8) :
    (dctfWords ws)[8 * u.val + v.val]? = some (u64 (dctfMatrix ws u v)) := by
  rw [dctfWords, List.getElem?_map, basisRows_kd.getElem?_transform2d]
  exact congrArg (fun M => some (u64 (roundedTransform kdMatrix 48 M u v))) (planeMatrix_map (by decide) (by decide) ws)

/-- R423: where the results of DCTI lie. -/
theorem getElem?_dctiWords (ws : List Word) (x y : Fin 8) :
    (dctiWords ws)[8 * x.val + y.val]? = some (u64 (dctiMatrix ws x y)) := by
  rw [dctiWords, List.getElem?_map, basisRows_kdColumns.getElem?_transform2d]
  exact congrArg (fun M => some (u64 (roundedTransform kdMatrixᵀ 80 M x y))) (planeMatrix_map (by decide) (by decide) ws)

/-- R302, R421: DCTF is the plane command with opcode 0x03. -/
theorem isPlaneCommand_dctf : IsPlaneCommand .dctf 0x03 64 dctfWords :=
  ⟨fun _ => rfl, fun _ => rfl, fun _ => rfl, fun _ _ => rfl, fun _ => rfl⟩

/-- R302, R423: DCTI is the plane command with opcode 0x04. -/
theorem isPlaneCommand_dcti : IsPlaneCommand .dcti 0x04 64 dctiWords :=
  ⟨fun _ => rfl, fun _ => rfl, fun _ => rfl, fun _ _ => rfl, fun _ => rfl⟩

end Sys2Proof.Machine

namespace Sys2Proof.Spec

open Sys2Proof.Machine Matrix

/-- Settles O10: DCTF is a plane command whose datapath rounds the entries of KD · X · KDᵀ. -/
theorem dctfResult : Obligations.DctfResult := by
  refine isPlaneCommand_dctf.planeCommand fun ws s dst u v => ⟨dctfMatrix ws u v, ?_, ?_⟩
  · have h := roundedTransform_isRne kdMatrix (operandMatrix (-32768) 32767 ws) 48 u v
    rwa [mul_mul_transpose_apply] at h
  · exact readWord_store_complete s dst (getElem?_dctfWords ws u v)

/-- Settles O11: DCTI is a plane command whose datapath rounds the entries of KDᵀ · Y · KD. -/
theorem dctiResult : Obligations.DctiResult := by
  refine isPlaneCommand_dcti.planeCommand fun ws s dst x y => ⟨dctiMatrix ws x y, ?_, ?_⟩
  · have h := roundedTransform_isRne kdMatrixᵀ (operandMatrix (-2 ^ 52) (2 ^ 52 - 1) ws) 80 x y
    rwa [mul_mul_transpose_apply] at h
  · exact readWord_store_complete s dst (getElem?_dctiWords ws x y)

end Sys2Proof.Spec
end

section
/-! PROOFS. DCTI of DCTF (R424): KDᵀ · KD is 2^80 times the identity up to a small defect, so DCTI gives back the plane up to
that defect and the two roundings. -/

namespace Sys2Proof.Machine

open Sys2Proof.Spec Matrix

/-! ### Bounds of a transform -/

/-- Bounds of the entries of A, B and M bound each of the 64 products in an entry of A · M · Bᵀ. -/
theorem abs_mul_mul_transpose_apply_le {A B M : Matrix (Fin 8) (Fin 8) ℤ} {α β μ : ℤ} (hA : ∀ i j, |A i j| ≤ α)
    (hB : ∀ i j, |B i j| ≤ β) (hM : ∀ i j, |M i j| ≤ μ) (i j : Fin 8) : |(A * M * Bᵀ) i j| ≤ 64 * (α * β * μ) := by
  have hα : 0 ≤ α := (abs_nonneg _).trans (hA 0 0)
  have hβ : 0 ≤ β := (abs_nonneg _).trans (hB 0 0)
  have hproduct (x y : Fin 8) : |A i x * B j y * M x y| ≤ α * β * μ := by
    rw [abs_mul, abs_mul]
    exact mul_le_mul (mul_le_mul (hA i x) (hB j y) (abs_nonneg _) hα) (hM x y) (abs_nonneg _) (mul_nonneg hα hβ)
  calc |(A * M * Bᵀ) i j|
      ≤ ∑ x, ∑ y, |A i x * B j y * M x y| := by
        rw [mul_mul_transpose_apply]
        exact (Finset.abs_sum_le_sum_abs _ _).trans (Finset.sum_le_sum fun _ _ => Finset.abs_sum_le_sum_abs _ _)
    _ ≤ ∑ _x : Fin 8, ∑ _y : Fin 8, α * β * μ := Finset.sum_le_sum fun x _ => Finset.sum_le_sum fun y _ => hproduct x y
    _ = 64 * (α * β * μ) := by
        rw [Fin.sum_const, Fin.sum_const, smul_smul, nsmul_eq_mul]
        rfl

/-- A rounded transform, scaled back, is off by at most half a unit. -/
theorem abs_transform_sub_rounded_le (A M : Matrix (Fin 8) (Fin 8) ℤ) {shift : ℕ} {half : ℤ} (hhalf : half * 2 = 2 ^ shift)
    (i j : Fin 8) : |(A * M * Aᵀ - (2 ^ shift : ℤ) • roundedTransform A shift M) i j| ≤ half := by
  obtain ⟨hnear, -⟩ := roundedTransform_isRne A M shift i j
  have hpow : (0 : ℚ) < 2 ^ shift := by positivity
  rw [div_sub' hpow.ne', abs_div, abs_of_pos hpow, div_le_div_iff₀ hpow two_pos, one_mul] at hnear
  rw [Matrix.sub_apply, Matrix.smul_apply, smul_eq_mul]
  refine le_of_mul_le_mul_right ?_ two_pos
  rw [hhalf]
  exact_mod_cast hnear

/-! ### KD -/

theorem kdDefect_val : kdDefect.val = kdMatrixᵀ * kdMatrix - (2 ^ 80 : ℤ) • 1 := rfl

theorem abs_kdMatrix_le : ∀ u x, |kdMatrix u x| ≤ 2 ^ 39 := by decide

theorem abs_two_pow_smul_one_le : ∀ x x', |((2 ^ 80 : ℤ) • (1 : Matrix (Fin 8) (Fin 8) ℤ)) x x'| ≤ 2 ^ 80 := by decide

/-! ### DCTI of DCTF -/

/-- What the inverse transform of a plane Y leaves of X, when Y is nearly a⁻¹ times the transform of X: the defect of the basis
on either side of X and on both, and the inverse transform of what Y lacks. -/
theorem inverse_transform_error (K X Y : Matrix (Fin 8) (Fin 8) ℤ) (a c : ℤ) :
    a • (Kᵀ * Y * Kᵀᵀ) - (c * c) • X =
      (Kᵀ * K - c • 1) * X * (Kᵀ * K - c • 1)ᵀ + (Kᵀ * K - c • 1) * X * (c • 1)ᵀ + c • 1 * X * (Kᵀ * K - c • 1)ᵀ -
        Kᵀ * (K * X * Kᵀ - a • Y) * Kᵀᵀ := by
  simp only [transpose_sub, transpose_mul, transpose_transpose, transpose_smul, transpose_one, sub_mul, mul_sub,
    Matrix.smul_mul, Matrix.mul_smul, one_mul, mul_one, mul_assoc]
  module

section
variable {X : Matrix (Fin 8) (Fin 8) ℤ}

/-- DCTF of entries of magnitude at most 256 stays far below the limit of DCTI's operands. -/
theorem abs_dctf_le (hX : ∀ x y, |X x y| ≤ 256) (u v : Fin 8) : |roundedTransform kdMatrix 48 X u v| ≤ 2 ^ 45 := by
  have hexact := abs_le.mp (abs_mul_mul_transpose_apply_le abs_kdMatrix_le abs_kdMatrix_le hX u v)
  have hround := abs_le.mp (abs_transform_sub_rounded_le kdMatrix X (shift := 48) (half := 2 ^ 47) rfl u v)
  rw [Matrix.sub_apply, Matrix.smul_apply, smul_eq_mul] at hround
  exact abs_le.mpr (by omega)

/-- R424 in ℤ: the defect of the basis and the two roundings move an entry by at most 2^10, which is 2^−22 in real value. -/
theorem abs_dcti_dctf_sub_le (hX : ∀ x y, |X x y| ≤ 256) (x y : Fin 8) :
    |roundedTransform kdMatrixᵀ 80 (roundedTransform kdMatrix 48 X) x y - 2 ^ 32 * X x y| ≤ 2 ^ 10 := by
  have hsplit := congrFun₂ (inverse_transform_error kdMatrix X (roundedTransform kdMatrix 48 X) (2 ^ 48) (2 ^ 80)) x y
  have hboth := abs_le.mp (abs_mul_mul_transpose_apply_le kdDefect.property kdDefect.property hX x y)
  have hleft := abs_le.mp (abs_mul_mul_transpose_apply_le kdDefect.property abs_two_pow_smul_one_le hX x y)
  have hright := abs_le.mp (abs_mul_mul_transpose_apply_le abs_two_pow_smul_one_le kdDefect.property hX x y)
  have hkd (x u : Fin 8) : |kdMatrixᵀ x u| ≤ 2 ^ 39 := abs_kdMatrix_le u x
  have hdctf := abs_le.mp (abs_mul_mul_transpose_apply_le hkd hkd
    (abs_transform_sub_rounded_le kdMatrix X (shift := 48) (half := 2 ^ 47) rfl) x y)
  have hdcti := abs_le.mp
    (abs_transform_sub_rounded_le kdMatrixᵀ (roundedTransform kdMatrix 48 X) (shift := 80) (half := 2 ^ 79) rfl x y)
  rw [← kdDefect_val] at hsplit
  simp only [Matrix.sub_apply, Matrix.add_apply, Matrix.smul_apply, smul_eq_mul] at hsplit
  rw [Matrix.sub_apply, Matrix.smul_apply, smul_eq_mul] at hdcti
  exact abs_le.mpr (by omega)

end

/-! ### DCTI of what DCTF stored -/

/-- Saturation leaves a value between the limits as it is. -/
theorem saturate_of_mem {lo hi v : ℤ} (hlo : lo ≤ v) (hhi : v ≤ hi) : saturate lo hi v = v := by
  rw [saturate, min_eq_right hhi, max_eq_right hlo]

section
variable {ws : List Word} (hsmall : ∀ k : Fin 64, |intAt ws k.val| ≤ 256)
include hsmall

theorem abs_intAt_row_column_le (x y : Fin 8) : |intAt ws (8 * x.val + y.val)| ≤ 256 :=
  hsmall ⟨8 * x.val + y.val, by omega⟩

/-- R421: DCTF saturates no entry of magnitude at most 256. -/
theorem dctf_operand_of_small (x y : Fin 8) :
    operandMatrix (-32768) 32767 ws x y = intAt ws (8 * x.val + y.val) := by
  obtain ⟨hlow, hhigh⟩ := abs_le.mp (abs_intAt_row_column_le hsmall x y)
  exact saturate_of_mem (by omega) (by omega)

theorem abs_dctf_operand_le (x y : Fin 8) : |operandMatrix (-32768) 32767 ws x y| ≤ 256 :=
  dctf_operand_of_small hsmall x y ▸ abs_intAt_row_column_le hsmall x y

/-- R423: DCTI reads what DCTF rounded, neither wrapped nor saturated. -/
theorem dcti_operand_dctfWords : operandMatrix (-2 ^ 52) (2 ^ 52 - 1) (dctfWords ws) = dctfMatrix ws := by
  ext u v
  obtain ⟨hlow, hhigh⟩ : -2 ^ 45 ≤ dctfMatrix ws u v ∧ dctfMatrix ws u v ≤ 2 ^ 45 :=
    abs_le.mp (abs_dctf_le (abs_dctf_operand_le hsmall) u v)
  have hword : intAt (dctfWords ws) (8 * u.val + v.val) = dctfMatrix ws u v := by
    rw [intAt, List.getD_eq_getElem?_getD, getElem?_dctfWords]
    exact s64_u64 (by omega) (by omega)
  rw [operandMatrix, Matrix.of_apply, hword]
  exact saturate_of_mem (by omega) (by omega)

/-- R424 for the stored words, in units of 2^−32. -/
theorem abs_dctiMatrix_dctfWords_sub_le (x y : Fin 8) :
    |dctiMatrix (dctfWords ws) x y - 2 ^ 32 * intAt ws (8 * x.val + y.val)| ≤ 2 ^ 10 := by
  rw [dctiMatrix, dcti_operand_dctfWords hsmall, ← dctf_operand_of_small hsmall]
  exact abs_dcti_dctf_sub_le (abs_dctf_operand_le hsmall) x y

/-- The result of DCTI fits in a word. -/
theorem toInt_dctiMatrix_dctfWords (x y : Fin 8) :
    (u64 (dctiMatrix (dctfWords ws) x y)).toInt = dctiMatrix (dctfWords ws) x y := by
  have herror := abs_le.mp (abs_dctiMatrix_dctfWords_sub_le hsmall x y)
  have hentry := abs_le.mp (abs_intAt_row_column_le hsmall x y)
  exact s64_u64 (by omega) (by omega)

end

end Sys2Proof.Machine

namespace Sys2Proof.Spec

open Sys2Proof.Machine

/-- Settles O58: DCTI reads what DCTF rounded; the defect of KDᵀ · KD and the two roundings are then the whole error. -/
theorem transformNearInverse : Obligations.TransformNearInverse := by
  intro f g s ws hf hg hsrc hread hsmall
  have hreadback : (s.store f.dst.toNat (dctfWords ws)).complete.mem.readWords g.src.toNat 64 = some (dctfWords ws) :=
    hsrc ▸ Memory.readWords_writeWords s.mem f.dst.toNat (dctfWords ws)
  refine ⟨_, _, isPlaneCommand_dctf.exec_of_legal hf hread, isPlaneCommand_dcti.exec_of_legal hg hreadback, fun k => ?_⟩
  obtain ⟨x, y, hk⟩ := exists_row_column k
  refine ⟨_, hk ▸ readWord_store_complete _ _ (getElem?_dctiWords (dctfWords ws) x y), ?_⟩
  have herror : (|dctiMatrix (dctfWords ws) x y - 2 ^ 32 * intAt ws k.val| : ℚ) ≤ 2 ^ 10 := by
    rw [hk]
    exact_mod_cast abs_dctiMatrix_dctfWords_sub_le hsmall x y
  rw [toInt_dctiMatrix_dctfWords hsmall, div_sub' (by positivity), abs_div, abs_of_pos (by positivity : (0 : ℚ) < 2 ^ 32),
    div_le_iff₀ (by positivity)]
  exact herror.trans_eq (by norm_num)

end Sys2Proof.Spec
end

section
/-! PROOFS. The quantiser: the results of QDIV (R441) and QMUL (R443), word by word against QTAB. -/

namespace Sys2Proof.Machine

open Sys2Proof.Spec

/-! ### The datapath, word by word -/

/-- A datapath that reads only the operand may be replaced by one that agrees with it on operands of full length (R311). -/
theorem wholeCommand_congr {p : Params} {len : ℕ} {g g' : List Word → List Word} (f : Fields) (s : State)
    (h : ∀ ws, ws.length = len → g ws = g' ws) : wholeCommand p len f s g = wholeCommand p len f s g' := by
  refine congrArg (checked p _ f s) ?_
  cases hread : s.mem.readWords f.src.toNat len with
  | none => rw [withWords_of_none hread, withWords_of_none hread]
  | some ws => rw [withWords_of_some hread, withWords_of_some hread, h ws (Memory.readWords_length hread)]

/-- The 64 results of a quantiser: `word` of QTAB[k] and of word k of the operand. -/
def perStep (word : ℕ → Word → Word) (qtab : List ℕ) (ws : List Word) : List Word :=
  List.ofFn fun k : Fin 64 => word (qtab.getD k.val 0) (ws.getD k.val 0)

theorem getElem?_perStep (word : ℕ → Word → Word) (qtab : List ℕ) (ws : List Word) (k : Fin 64) :
    (perStep word qtab ws)[k.val]? = some (word (qtab.getD k.val 0) (ws.getD k.val 0)) :=
  getElem?_ofFn_val _ k

/-- R440: a table and an operand of 64 entries each are walked in step. -/
theorem zipWith_eq_perStep {word : ℕ → Word → Word} {qtab : List ℕ} {ws : List Word} (hq : qtab.length = 64)
    (hw : ws.length = 64) : List.zipWith word qtab ws = perStep word qtab ws := by
  refine List.ext_getElem (by simp [perStep, hq, hw]) fun k hk _ => ?_
  have hkq := List.lt_length_left_of_zipWith hk
  have hkw := List.lt_length_right_of_zipWith hk
  simp only [perStep, List.getElem_zipWith, List.getElem_ofFn, List.getD_eq_getElem _ _ hkq, List.getD_eq_getElem _ _ hkw]

/-- With a table of 64 steps a quantiser is the plane command with the datapath `perStep`. -/
theorem wholeCommand_zipWith {p : Params} (word : ℕ → Word → Word) (hq : p.qtab.length = 64) (f : Fields) (s : State) :
    wholeCommand p 64 f s (List.zipWith word p.qtab) = wholeCommand p 64 f s (perStep word p.qtab) :=
  wholeCommand_congr f s fun _ hw => zipWith_eq_perStep hq hw

/-- R302, R441: QDIV is the plane command with opcode 0x05. -/
theorem isPlaneCommand_qdiv : IsPlaneCommand .qdiv 0x05 64 (perStep qdivWord defaultQtab) :=
  ⟨fun _ => rfl, fun _ => rfl, fun _ => rfl, wholeCommand_zipWith (p := params) qdivWord rfl, fun _ => List.length_ofFn⟩

/-- R302, R443: QMUL is the plane command with opcode 0x06. -/
theorem isPlaneCommand_qmul : IsPlaneCommand .qmul 0x06 64 (perStep qmulWord defaultQtab) :=
  ⟨fun _ => rfl, fun _ => rfl, fun _ => rfl, wholeCommand_zipWith (p := params) qmulWord rfl, fun _ => List.length_ofFn⟩

/-! ### One word -/

theorem clamp_eq_saturate {v lo hi : ℤ} (h : lo ≤ hi) : clamp v lo hi = saturate lo hi v := by
  rw [clamp_eq_max_min h, min_comm, saturate]

/-- R441: a level is the saturated rounding of the coefficient over its step, in units of 2^−32. -/
theorem qdivWord_isRne {step : ℕ} (hstep : 0 < step) (w : Word) :
    ∃ v : ℤ, IsRne ((w.toInt : ℚ) / (step * 2 ^ 32)) v ∧ qdivWord step w = BitVec.ofInt 64 (saturate (-128) 127 v) := by
  have hrne := rneDiv_isRne w.toInt (Nat.mul_pos hstep (Nat.two_pow_pos 32))
  rw [Nat.cast_mul, Nat.cast_pow, Nat.cast_ofNat] at hrne
  exact ⟨_, hrne, congrArg (BitVec.ofInt 64) (clamp_eq_saturate (by decide))⟩

/-- R443: a coefficient is the saturated product of the level and its step, as Q31.32. -/
theorem qmulWord_eq (step : ℕ) (w : Word) :
    qmulWord step w = BitVec.ofInt 64 (saturate (-2 ^ 20) (2 ^ 20 - 1) (w.toInt * step) * 2 ^ 32) :=
  congrArg (fun v => BitVec.ofInt 64 (v * 2 ^ 32)) (clamp_eq_saturate (by decide))

theorem quantStep_pos : ∀ k, 0 < quantStep k := by decide

end Sys2Proof.Machine

namespace Sys2Proof.Spec

open Sys2Proof.Machine

/-- Settles O12: QDIV is a plane command whose datapath divides word k by QTAB[k], which is not 0, rounds and saturates. -/
theorem qdivResult : Obligations.QdivResult := by
  refine isPlaneCommand_qdiv.planeCommand fun ws s dst k => ?_
  obtain ⟨v, hv, hword⟩ := qdivWord_isRne (quantStep_pos k) (ws.getD k.val 0)
  exact ⟨v, hv, hword ▸ readWord_store_complete s dst (getElem?_perStep qdivWord defaultQtab ws k)⟩

/-- Settles O13: QMUL is a plane command whose datapath multiplies word k by QTAB[k] and saturates. -/
theorem qmulResult : Obligations.QmulResult := by
  refine isPlaneCommand_qmul.planeCommand fun ws s dst k => ?_
  have hword := qmulWord_eq (quantStep k) (ws.getD k.val 0)
  exact hword ▸ readWord_store_complete s dst (getElem?_perStep qmulWord defaultQtab ws k)

end Sys2Proof.Spec
end

section
/-! PROOFS. The zigzag scanner: ZZ as a permutation of the plane offsets (R460), the results of ZZSCAN (R461) and ZZUNSCAN
(R462), and that the two undo each other (R463). -/

namespace Sys2Proof.Machine

open Sys2Proof.Spec

/-! ### The table ZZ -/

/-- R460: ZZ visits each of the 64 offsets of a plane once. -/
theorem zz_perm_range : zz.Perm (List.range 64) := by decide

theorem zz_nodup : zz.Nodup := zz_perm_range.nodup_iff.mpr List.nodup_range

theorem getElem?_zz (i : Fin 64) : zz[i.val]? = some (zigzag i) := by
  rw [zigzag, List.getD_eq_getElem zz 0 i.isLt]
  exact List.getElem?_eq_getElem i.isLt

theorem zigzag_lt (i : Fin 64) : zigzag i < 64 :=
  List.mem_range.mp (zz_perm_range.mem_iff.mp (List.mem_of_getElem? (getElem?_zz i)))

theorem idxOf_zigzag (i : Fin 64) : zz.idxOf (zigzag i) = i.val := by
  obtain ⟨hi, hentry⟩ := List.getElem?_eq_some_iff.mp (getElem?_zz i)
  rw [← hentry, zz_nodup.idxOf_getElem i.val hi]

theorem exists_zigzag_eq {k : ℕ} (hk : k < 64) : ∃ i, zigzag i = k := by
  obtain ⟨i, hi, hentry⟩ := List.mem_iff_getElem.mp (zz_perm_range.mem_iff.mpr (List.mem_range.mpr hk))
  exact ⟨⟨i, hi⟩, (List.getD_eq_getElem zz 0 hi).trans hentry⟩

/-! ### The datapaths, word by word -/

/-- R461: result i of ZZSCAN is source word ZZ[i]. -/
theorem getElem?_zzscanWords (ws : List Word) (i : Fin 64) : (zzscanWords ws)[i.val]? = some (ws.getD (zigzag i) 0) := by
  rw [zzscanWords, List.getElem?_map, getElem?_zz, Option.map_some]

/-- R462: result ZZ[i] of ZZUNSCAN is source word i. -/
theorem getElem?_zzunscanWords (ws : List Word) (i : Fin 64) : (zzunscanWords ws)[zigzag i]? = some (ws.getD i.val 0) := by
  rw [zzunscanWords, List.getElem?_map, List.getElem?_range (zigzag_lt i), Option.map_some, idxOf_zigzag]

/-- R302, R461: ZZSCAN is the plane command with opcode 0x07. -/
theorem isPlaneCommand_zzscan : IsPlaneCommand .zzscan 0x07 64 zzscanWords :=
  ⟨fun _ => rfl, fun _ => rfl, fun _ => rfl, fun _ _ => rfl, fun _ => rfl⟩

/-- R302, R462: ZZUNSCAN is the plane command with opcode 0x08. -/
theorem isPlaneCommand_zzunscan : IsPlaneCommand .zzunscan 0x08 64 zzunscanWords :=
  ⟨fun _ => rfl, fun _ => rfl, fun _ => rfl, fun _ _ => rfl, fun _ => rfl⟩

/-! ### The round trips -/

/-- 64 results that are the words of an operand of full length, one by one, are the operand. -/
theorem eq_of_getElem?_eq_getD {us ws : List Word} (hus : us.length = 64) (hws : ws.length = 64)
    (h : ∀ k < 64, us[k]? = some (ws.getD k 0)) : us = ws := by
  refine List.ext_getElem (hus.trans hws.symm) fun k hkus hkws => ?_
  have hk := h k (hus ▸ hkus)
  rwa [List.getElem?_eq_getElem hkus, List.getD_eq_getElem ws 0 hkws, Option.some_inj] at hk

/-- R463, a plane: every offset is ZZ[i] for some i, and ZZUNSCAN puts back there what ZZSCAN took from there. -/
theorem zzunscanWords_zzscanWords {ws : List Word} (hws : ws.length = 64) : zzunscanWords (zzscanWords ws) = ws := by
  refine eq_of_getElem?_eq_getD rfl hws fun k hk => ?_
  obtain ⟨i, rfl⟩ := exists_zigzag_eq hk
  rw [getElem?_zzunscanWords, List.getD_eq_getElem?_getD, getElem?_zzscanWords, Option.getD_some]

/-- R463, a sequence: ZZSCAN takes element i from offset ZZ[i], where ZZUNSCAN put it. -/
theorem zzscanWords_zzunscanWords {ws : List Word} (hws : ws.length = 64) : zzscanWords (zzunscanWords ws) = ws := by
  refine eq_of_getElem?_eq_getD rfl hws fun k hk => ?_
  rw [getElem?_zzscanWords _ ⟨k, hk⟩, List.getD_eq_getElem?_getD, getElem?_zzunscanWords, Option.getD_some]

end Sys2Proof.Machine

namespace Sys2Proof.Spec

open Sys2Proof.Machine

/-- R611: after completion a read of the result words gives the results. -/
theorem readWords_store_complete (s : State) (dst : ℕ) {ws : List Word} {len : ℕ} (h : ws.length = len) :
    (s.store dst ws).complete.mem.readWords dst len = some ws :=
  h ▸ Memory.readWords_writeWords s.mem dst ws

section
variable {mk mk' : Fields → Instr} {op op' : BitVec 8} {len : ℕ} {g g' : List Word → List Word}

/-- Two legal plane commands, the second reading where the first wrote, complete; if the second datapath undoes the first on
the source words, these end up at the second DST. -/
theorem IsPlaneCommand.exec_exec_of_undo (h : IsPlaneCommand mk op len g) (h' : IsPlaneCommand mk' op' len g')
    {f f' : Fields} {s : State} {ws : List Word} (hlegal : (mk f).wellFormed dmemWords = true)
    (hlegal' : (mk' f').wellFormed dmemWords = true) (hsrc : f'.src = f.dst)
    (hread : s.mem.readWords f.src.toNat len = some ws) (hundo : g' (g ws) = ws) :
    ∃ t u, exec (mk f) s = .next t ∧ exec (mk' f') t = .next u ∧ u.mem.readWords f'.dst.toNat len = some ws := by
  have hfirst := h.exec_of_legal hlegal hread
  obtain ⟨-, -, -, -, hlength⟩ := h
  have hreadback : (s.store f.dst.toNat (g ws)).complete.mem.readWords f'.src.toNat len = some (g ws) :=
    hsrc ▸ readWords_store_complete s f.dst.toNat (hlength ws)
  refine ⟨_, _, hfirst, h'.exec_of_legal hlegal' hreadback, ?_⟩
  rw [hundo]
  exact readWords_store_complete _ _ (Memory.readWords_length hread)

end

/-- Settles O14: ZZ is the walk of R460, and ZZSCAN is a plane command whose datapath reads at ZZ[i]. -/
theorem zzscanResult : Obligations.ZzscanResult :=
  ⟨by decide, isPlaneCommand_zzscan.planeCommand fun ws s dst i => readWord_store_complete s dst (getElem?_zzscanWords ws i)⟩

/-- Settles O15: ZZUNSCAN is a plane command whose datapath writes at ZZ[i]. -/
theorem zzunscanResult : Obligations.ZzunscanResult :=
  isPlaneCommand_zzunscan.planeCommand fun ws s dst i => readWord_store_complete s dst (getElem?_zzunscanWords ws i)

/-- Settles O45: either datapath undoes the other on the 64 words that a command reads. -/
theorem zigzagRoundTrip : Obligations.ZigzagRoundTrip := by
  intro f g s ws hf hg hsrc hread
  have hws := Memory.readWords_length hread
  exact ⟨isPlaneCommand_zzscan.exec_exec_of_undo isPlaneCommand_zzunscan hf hg hsrc hread
      (zzunscanWords_zzscanWords hws),
    isPlaneCommand_zzunscan.exec_exec_of_undo isPlaneCommand_zzscan hf hg hsrc hread
      (zzscanWords_zzunscanWords hws)⟩

end Sys2Proof.Spec
end

section
/-! PROOFS. The run-length symbol packer on words: a sequence as its DC value and its (run, value) pairs, the stream that holds
them (R480 to R482), and what the pair loop of the unpacker does with such a stream (R485). -/

namespace Sys2Proof.Machine

open Sys2Proof.Spec

/-! ### Words and integers -/

theorem s64_eq_zero_iff {w : Word} : s64 w = 0 ↔ w = 0 := BitVec.toInt_inj (y := 0)

theorem map_s64_replicate_zero (k : ℕ) : (List.replicate k 0).map s64 = List.replicate k 0 := List.map_replicate

theorem u64_natCast (k : ℕ) : u64 k = BitVec.ofNat 64 k := BitVec.ofInt_natCast 64 k

theorem u64_s64_sub (a b : Word) : u64 (s64 a - s64 b) = a - b := by
  rw [u64, sub_eq_add_neg, BitVec.ofInt_add, BitVec.ofInt_neg, ← u64, ← u64, u64_s64, u64_s64, BitVec.sub_eq_add_neg]

/-- R20: adding two words as integers and wrapping is the addition of words. -/
theorem wrap64_s64_add (a b : Word) : wrap64 (s64 a + s64 b) = s64 (a + b) := by
  rw [wrap64, u64, BitVec.ofInt_add, ← u64, ← u64, u64_s64, u64_s64]

theorem s64_ofNat {k : ℕ} (h : k < 64) : s64 (BitVec.ofNat 64 k) = k := by
  rw [← u64_natCast]
  exact s64_u64 (by omega) (by omega)

theorem map_u64_map_s64 (ws : List Word) : (ws.map s64).map u64 = ws := by
  simp [Function.comp_def]

/-! ### The pairs of a sequence -/

/-- The (run, value) pairs of AC words from left to right; `run` zeros lie between the last pair and the first word (R481). -/
def acPairs : ℕ → List Word → List (ℕ × Word)
  | _, [] => []
  | run, v :: rest => if v = 0 then acPairs (run + 1) rest else (run, v) :: acPairs 0 rest

/-- R481: the packer's symbols after the DC delta are the pairs and the terminator. -/
theorem map_u64_packPairs (l : List Word) (run : ℕ) :
    (packPairs run (l.map s64)).map u64 = pairSymbols (acPairs run l) ++ [0, 0] := by
  induction l generalizing run with
  | nil => rfl
  | cons v rest ih =>
    rw [List.map_cons, packPairs, acPairs]
    by_cases hv : v = 0
    · rw [if_pos hv, if_pos (s64_eq_zero_iff.mpr hv), ih]
    · rw [if_neg hv, if_neg (mt s64_eq_zero_iff.mp hv), List.map_cons, List.map_cons, ih, u64_natCast, u64_s64]
      rfl

/-- R482: there is one pair for each word that is not 0. -/
theorem acPairs_length (l : List Word) (run : ℕ) : (acPairs run l).length = (l.filter (· != 0)).length := by
  induction l generalizing run with
  | nil => rfl
  | cons v rest ih =>
    rw [acPairs, List.filter_cons]
    by_cases hv : v = 0
    · rw [if_pos hv, if_neg (by simp [hv]), ih]
    · rw [if_neg hv, if_pos (by simpa using hv), List.length_cons, List.length_cons, ih]

theorem acPairs_value_ne_zero {l : List Word} {run : ℕ} : ∀ rv ∈ acPairs run l, rv.2 ≠ 0 := by
  induction l generalizing run with
  | nil => exact nofun
  | cons v rest ih =>
    rw [acPairs]
    split
    · exact ih
    · next hv => exact List.forall_mem_cons.mpr ⟨hv, ih⟩

theorem pairElements_cons (rv : ℕ × Word) (pairs : List (ℕ × Word)) :
    pairElements (rv :: pairs) = List.replicate rv.1 0 ++ [rv.2] ++ pairElements pairs := rfl

/-- R485: the pairs expand to the zeros before the first word, the words, and no more than that: the zeros after the last pair
are left out. -/
theorem pairElements_acPairs (l : List Word) (run : ℕ) :
    ∃ k, List.replicate run 0 ++ l = pairElements (acPairs run l) ++ List.replicate k 0 := by
  induction l generalizing run with
  | nil => exact ⟨run, by simp [acPairs, pairElements]⟩
  | cons v rest ih =>
    rw [acPairs]
    split
    · next hv =>
      obtain ⟨k, hk⟩ := ih (run + 1)
      exact ⟨k, by rw [← hk, hv, List.replicate_succ', List.append_assoc, List.singleton_append]⟩
    · obtain ⟨k, hk⟩ := ih 0
      rw [List.replicate_zero, List.nil_append] at hk
      exact ⟨k, by rw [pairElements_cons, List.append_assoc, ← hk, List.append_assoc, List.singleton_append]⟩

/-- A run is the distance between the positions of two words that are not 0, less one: the pairs of the words from position k
on, when the last pair ended at position `prev` (R481). -/
theorem zipWith_positions_eq_acPairs {ws l : List Word} {prev k : ℕ} (hl : ws.drop k = l) (hk : prev < k) :
    List.zipWith (fun p i => (i - p - 1, ws.getD i 0))
        (prev :: (List.range' k l.length).filter fun i => ws.getD i 0 != 0)
        ((List.range' k l.length).filter fun i => ws.getD i 0 != 0) =
      acPairs (k - prev - 1) l := by
  induction l generalizing prev k with
  | nil => rfl
  | cons v rest ih =>
    have hv : ws.getD k 0 = v := by
      rw [List.getD_eq_getElem?_getD, ← List.head?_drop, hl, List.head?_cons, Option.getD_some]
    have hrest : ws.drop (k + 1) = rest := by rw [← List.tail_drop, hl, List.tail_cons]
    rw [List.length_cons, List.range'_succ, List.filter_cons, acPairs, hv]
    by_cases hz : v = 0
    · have hrun : k + 1 - prev - 1 = k - prev - 1 + 1 := by omega
      rw [if_neg (by simp [hz]), if_pos hz, ih hrest (by omega), hrun]
    · have hrun : k + 1 - k - 1 = 0 := by omega
      rw [if_pos (by simpa using hz), if_neg hz, List.zipWith_cons_cons, ih hrest (by omega), hv, hrun]

/-- The positions of the AC words that are not 0 start at 1. -/
theorem nonzeroAc_eq_range' (ws : List Word) :
    nonzeroAc ws = (List.range' 1 63).filter fun i => ws.getD i 0 != 0 := by
  rw [nonzeroAc, List.range_eq_range', List.range'_succ, List.filter_cons_of_neg (by simp)]
  refine List.filter_congr fun i hi => ?_
  rw [decide_eq_true (List.mem_range'_1.mp hi).1, Bool.true_and]

section
variable {ws : List Word} (hws : ws.length = 64)
include hws

/-- R481: the pairs by position, and the pairs from left to right, of a whole sequence. -/
theorem zipWith_nonzeroAc : List.zipWith (fun p i => (i - p - 1, ws.getD i 0)) (0 :: nonzeroAc ws) (nonzeroAc ws) =
    acPairs 0 ws.tail := by
  have htail : ws.tail.length = 63 := by simp [hws]
  rw [nonzeroAc_eq_range', ← htail]
  exact zipWith_positions_eq_acPairs (List.drop_one) one_pos

theorem nonzeroAc_length : (nonzeroAc ws).length = (acPairs 0 ws.tail).length := by
  rw [← zipWith_nonzeroAc hws, List.length_zipWith, List.length_cons]
  omega

theorem runValuePairs_eq : runValuePairs ws = pairSymbols (acPairs 0 ws.tail) := by
  rw [← zipWith_nonzeroAc hws, pairSymbols, List.flatMap, List.map_zipWith]
  rfl

/-- R482: a sequence has 63 AC words. -/
theorem acPairs_tail_length_le : (acPairs 0 ws.tail).length ≤ 63 := by
  rw [acPairs_length]
  exact (List.length_filter_le ..).trans (by simp [hws])

end

/-! ### The stream of a sequence -/

/-- The symbols of DC delta `delta` and pairs `pairs`, with the terminator (R480, R481). -/
def terminatedSymbols (delta : Word) (pairs : List (ℕ × Word)) : List Word := [delta] ++ pairSymbols pairs ++ [0, 0]

theorem pairSymbols_length (pairs : List (ℕ × Word)) : (pairSymbols pairs).length = 2 * pairs.length := by
  simp [pairSymbols, List.length_flatMap, mul_comm]

theorem terminatedSymbols_length (delta : Word) (pairs : List (ℕ × Word)) :
    (terminatedSymbols delta pairs).length = 3 + 2 * pairs.length := by
  simp only [terminatedSymbols, List.length_append, List.length_cons, List.length_nil, pairSymbols_length]
  omega

/-- The count word of a stream of pairs (R482). -/
def streamCount (pairs : List (ℕ × Word)) : Word := BitVec.ofNat 64 (3 + 2 * pairs.length)

/-- The pairs of a sequence are too few for the count to wrap. -/
theorem streamCount_toNat {pairs : List (ℕ × Word)} (h : pairs.length ≤ 63) :
    (streamCount pairs).toNat = 3 + 2 * pairs.length := by
  rw [streamCount, BitVec.toNat_ofNat, Nat.mod_eq_of_lt (by omega)]

/-- A packed stream as it lies in DMEM: the count word, then the symbols (R204). -/
def packedStream (delta : Word) (pairs : List (ℕ × Word)) : List Word := streamCount pairs :: terminatedSymbols delta pairs

theorem packedStream_length (delta : Word) (pairs : List (ℕ × Word)) :
    (packedStream delta pairs).length = 4 + 2 * pairs.length := by
  rw [packedStream, List.length_cons, terminatedSymbols_length]
  omega

/-- R204: a stored stream is read back as its count word and its symbols. -/
theorem reads_of_packedStream (m : Memory) (a : ℕ) (delta : Word) (pairs : List (ℕ × Word)) :
    (m.writeWords a (packedStream delta pairs)).readWord a = some (streamCount pairs) ∧
      (m.writeWords a (packedStream delta pairs)).readWords (a + 1) (3 + 2 * pairs.length) =
        some (terminatedSymbols delta pairs) := by
  refine ⟨Memory.readWord_writeWords m a 0 (packedStream delta pairs) (by simp [packedStream]), ?_⟩
  have hread := Memory.readWords_writeWords_inside m a [streamCount pairs] (terminatedSymbols delta pairs) []
  rwa [List.append_nil, List.singleton_append, List.length_singleton, terminatedSymbols_length] at hread

/-- R204, R481: the words that RLPACK stores for a sequence that is not empty. -/
theorem streamWords_packStream (p : Word) {ws : List Word} (hws : ws ≠ []) :
    streamWords (packStream (s64 p) (ws.map s64)) = packedStream (ws.headD 0 - p) (acPairs 0 ws.tail) := by
  have hsymbols : (packStream (s64 p) (ws.map s64)).map u64 = terminatedSymbols (ws.headD 0 - p) (acPairs 0 ws.tail) := by
    obtain ⟨v, rest, rfl⟩ := List.exists_cons_of_ne_nil hws
    simp [packStream, terminatedSymbols, map_u64_packPairs, u64_s64_sub]
  have hlen := terminatedSymbols_length (ws.headD 0 - p) (acPairs 0 ws.tail)
  rw [← hsymbols, List.length_map] at hlen
  rw [streamWords, hsymbols, hlen, u64_natCast, packedStream, streamCount]

/-! ### One round of the pair loop -/

section
variable {n : Word} {i : ℕ} {run val : ℤ} {rest seq : List ℤ}

theorem unpackPairs_of_short {l : List ℤ} (h : l.length < 2) : unpackPairs n i l seq = .error (.missingTerminator, n) := by
  match l, h with
  | [], _ => rfl
  | [_], _ => rfl

theorem unpackPairs_terminator : unpackPairs n i (0 :: 0 :: rest) seq = .ok seq := by
  rw [unpackPairs, if_pos ⟨rfl, rfl⟩]

theorem unpackPairs_of_negative (hne : ¬(run = 0 ∧ val = 0)) (hneg : run < 0) :
    unpackPairs n i (run :: val :: rest) seq = .error (.negativeRun, u64 i) := by
  rw [unpackPairs, if_neg hne, if_pos hneg]

theorem unpackPairs_of_overflow (hne : ¬(run = 0 ∧ val = 0)) (hrun : 0 ≤ run) (hover : 64 < (seq.length : ℤ) + run + 1) :
    unpackPairs n i (run :: val :: rest) seq = .error (.seqOverflow, u64 i) := by
  rw [unpackPairs, if_neg hne, if_neg hrun.not_gt, if_pos hover]

theorem unpackPairs_of_fits (hne : ¬(run = 0 ∧ val = 0)) (hrun : 0 ≤ run) (hfits : (seq.length : ℤ) + run + 1 ≤ 64) :
    unpackPairs n i (run :: val :: rest) seq =
      unpackPairs n (i + 2) rest (seq ++ List.replicate run.toNat 0 ++ [val]) := by
  rw [unpackPairs, if_neg hne, if_neg hrun.not_gt, if_neg hfits.not_gt]

end

/-! ### Accepted pairs -/

theorem pairSymbols_cons (rv : ℕ × Word) (pairs : List (ℕ × Word)) :
    pairSymbols (rv :: pairs) = BitVec.ofNat 64 rv.1 :: rv.2 :: pairSymbols pairs := rfl

/-- R485: the pair loop takes pairs that are no terminators and fit, and goes on with the symbols after them. -/
theorem unpackPairs_append_pairs (n : Word) (pairs : List (ℕ × Word)) (rest seq : List Word) (i : ℕ)
    (hne : ∀ rv ∈ pairs, ¬(rv.1 = 0 ∧ rv.2 = 0)) (hfits : seq.length + (pairElements pairs).length ≤ 64) :
    unpackPairs n i ((pairSymbols pairs ++ rest).map s64) (seq.map s64) =
      unpackPairs n (i + 2 * pairs.length) (rest.map s64) ((seq ++ pairElements pairs).map s64) := by
  induction pairs generalizing seq i with
  | nil => simp [pairSymbols, pairElements]
  | cons rv pairs ih =>
    obtain ⟨run, val⟩ := rv
    obtain ⟨hne1, hne⟩ := List.forall_mem_cons.mp hne
    rw [pairElements_cons] at hfits ⊢
    rw [← List.append_assoc]
    simp only [List.length_append, List.length_replicate, List.length_singleton] at hfits
    have hrun : s64 (BitVec.ofNat 64 run) = run := s64_ofNat (by omega)
    have hstep : unpackPairs n i (run :: s64 val :: (pairSymbols pairs ++ rest).map s64) (seq.map s64) =
        unpackPairs n (i + 2) ((pairSymbols pairs ++ rest).map s64) ((seq ++ (List.replicate run 0 ++ [val])).map s64) := by
      rw [unpackPairs_of_fits (by simpa [s64_eq_zero_iff] using hne1) (Int.natCast_nonneg run)
        (by rw [List.length_map]; omega), Int.toNat_natCast]
      simp only [List.map_append, map_s64_replicate_zero, List.append_assoc, List.map_cons, List.map_nil]
    rw [pairSymbols_cons, List.cons_append, List.cons_append, List.map_cons, List.map_cons, hrun, hstep,
      ih _ _ hne (by simp; omega), List.length_cons]
    congr 1
    omega

section
variable {n delta p : Word} {pairs : List (ℕ × Word)} {rest : List Word} (h : AcceptedPairs pairs)
include h

/-- R485: a stream with accepted pairs sets the loop to the symbols after them, with the DC value and the pairs' elements. -/
theorem unpackPairs_stream :
    unpackPairs n 1 (([delta] ++ pairSymbols pairs ++ rest).map s64).tail
        [wrap64 ((([delta] ++ pairSymbols pairs ++ rest).map s64).headD 0 + s64 p)] =
      unpackPairs n (1 + 2 * pairs.length) (rest.map s64) (([delta + p] ++ pairElements pairs).map s64) := by
  obtain ⟨hne, hfits⟩ := h
  have hloop := unpackPairs_append_pairs n pairs rest [delta + p] 1 hne (by simpa using hfits)
  simpa [wrap64_s64_add] using hloop

/-- R485: where the loop faults after the accepted pairs, the stream does. -/
theorem unpackStream_of_error {e : CoreFault × Word}
    (he : unpackPairs n (1 + 2 * pairs.length) (rest.map s64) (([delta + p] ++ pairElements pairs).map s64) = .error e) :
    unpackStream n (s64 p) (([delta] ++ pairSymbols pairs ++ rest).map s64) = .error e := by
  rw [unpackStream, unpackPairs_stream h, he]

/-- R485: where the loop ends after the accepted pairs, what it has is filled up with zeros. -/
theorem unpackStream_of_ok {seq : List ℤ}
    (hseq : unpackPairs n (1 + 2 * pairs.length) (rest.map s64) (([delta + p] ++ pairElements pairs).map s64) = .ok seq) :
    unpackStream n (s64 p) (([delta] ++ pairSymbols pairs ++ rest).map s64) =
      .ok (seq ++ List.replicate (64 - seq.length) 0) := by
  rw [unpackStream, unpackPairs_stream h, hseq]

end

/-- The 64 words of a DC value and pairs, filled up with zeros (R485). -/
def unpackedWords (dc : Word) (pairs : List (ℕ × Word)) : List Word :=
  [dc] ++ pairElements pairs ++ List.replicate (64 - (1 + (pairElements pairs).length)) 0

theorem unpackedWords_length {pairs : List (ℕ × Word)} (h : AcceptedPairs pairs) (dc : Word) :
    (unpackedWords dc pairs).length = 64 := by
  have hfits := h.2
  simp only [unpackedWords, List.length_append, List.length_singleton, List.length_replicate]
  omega

/-- R485: a terminator after the accepted pairs ends the stream, whatever follows. -/
theorem unpackStream_of_terminator {n delta p : Word} {pairs : List (ℕ × Word)} (ignored : List Word)
    (h : AcceptedPairs pairs) :
    unpackStream n (s64 p) (([delta] ++ pairSymbols pairs ++ ([0, 0] ++ ignored)).map s64) =
      .ok ((unpackedWords (delta + p) pairs).map s64) := by
  have hseq := unpackStream_of_ok (n := n) (delta := delta) (p := p) (rest := [0, 0] ++ ignored) h unpackPairs_terminator
  rw [hseq, List.length_map, ← map_s64_replicate_zero, ← List.map_append, unpackedWords, List.length_append,
    List.length_singleton]

/-! ### Packing and unpacking -/

section
variable {ws : List Word} (hws : ws.length = 64)
include hws

/-- The pairs of a sequence, filled up with zeros, are its AC words. -/
theorem unpackedWords_acPairs : unpackedWords (ws.getD 0 0) (acPairs 0 ws.tail) = ws := by
  obtain ⟨v, rest, rfl⟩ := List.exists_cons_of_length_pos (by omega : 0 < ws.length)
  obtain ⟨k, hk⟩ := pairElements_acPairs rest 0
  have hlen := congrArg List.length hk
  simp only [List.replicate_zero, List.nil_append, List.length_append, List.length_replicate, List.length_cons] at hk hlen hws
  have hzeros : 64 - (1 + (pairElements (acPairs 0 rest)).length) = k := by omega
  rw [unpackedWords, List.tail_cons, hzeros, List.append_assoc, ← hk]
  rfl

/-- R487: the unpacker accepts the pairs of a sequence. -/
theorem acceptedPairs_acPairs : AcceptedPairs (acPairs 0 ws.tail) := by
  refine ⟨fun rv hrv hz => acPairs_value_ne_zero rv hrv hz.2, ?_⟩
  have hlen := congrArg List.length (unpackedWords_acPairs hws)
  simp only [unpackedWords, List.length_append, List.length_singleton, hws] at hlen
  omega

end

end Sys2Proof.Machine
end

section
/-! PROOFS. RLPACK (R481, R482) and RLUNPACK (R485) as commands, and the round trip (R487). -/

namespace Sys2Proof.Spec

open Sys2Proof.Machine

/-! ### What both commands have in common -/

/-- R601: an illegal command that uses CH ends with one of the faults of the check phase. -/
theorem onlyChannelCheckFaults (mk : Fields → Instr) : OnlyChannelCheckFaults mk := by
  intro f s h
  obtain ⟨c, x, hc, hexec⟩ := exec_of_not_wellFormed s h
  exact ⟨c, x, hexec, commandCheck_some hc⟩

/-- R104: CH names channel c by its number. -/
theorem channelOf_of_toNat {ch : BitVec 2} {c : Channel} (h : ch.toNat = c.val) : channelOf ch = some c := by
  revert ch c
  decide

/-- R611: the end of a packer command, which has stored words from DST on and set PRED[c]. -/
def packerEnd (s : State) (dst : ℕ) (ws : List Word) (c : Channel) (w : Word) : State :=
  ((s.store dst ws).setPred c w).complete

section
variable {s : State} {dst : ℕ} {ws : List Word} {c : Channel} {w : Word}

@[simp] theorem packerEnd_mem : (packerEnd s dst ws c w).mem = s.mem.writeWords dst ws := by
  simp [packerEnd]

@[simp] theorem packerEnd_pred : (packerEnd s dst ws c w).pred c = w := by
  simp [packerEnd]

/-- Nothing but memory, PRED[c], DONE and BUSY has changed. -/
theorem packerEnd_eq :
    packerEnd s dst ws c w =
      { s.setPred c w with mem := (packerEnd s dst ws c w).mem, done := true, busy := false } := by
  fin_cases c <;> rfl

/-- The stored words are read back. -/
theorem readWords_packerEnd {len : ℕ} (h : ws.length = len) :
    (packerEnd s dst ws c w).mem.readWords dst len = some ws := by
  rw [packerEnd_mem, ← h]
  exact Memory.readWords_writeWords s.mem dst ws

/-- Every byte outside the stored words reads as before. -/
theorem readByte_packerEnd {len : ℕ} (h : ws.length = len) (key : ℕ) (hkey : key < 8 * dst ∨ 8 * (dst + len) ≤ key) :
    (packerEnd s dst ws c w).mem.readByte key = s.mem.readByte key := by
  rw [packerEnd_mem]
  exact Memory.readByte_writeWords_outside s.mem dst ws key (h ▸ hkey)

end

/-! ### RLPACK -/

/-- R481: a legal RLPACK whose source words are written stores the stream of the sequence and keeps its DC value. -/
theorem exec_rlpack_of_legal {f : Fields} {s : State} {c : Channel} {ws : List Word}
    (hlegal : (Instr.rlpack f).wellFormed dmemWords = true) (hch : f.ch.toNat = c.val)
    (hread : s.mem.readWords f.src.toNat 64 = some ws) :
    exec (.rlpack f) s =
      .next (packerEnd s f.dst.toNat (packedStream (ws.getD 0 0 - s.pred c) (acPairs 0 ws.tail)) c (ws.getD 0 0)) := by
  have hcheck : commandCheck params.dmemWords ⟨true, 64, 130⟩ f = none := (wellFormed_iff dmemWords (.rlpack f)).mp hlegal
  have hws := Memory.readWords_length hread
  have hne : ws ≠ [] := List.ne_nil_of_length_pos (by omega)
  rw [exec, execRlpack, rlpackAt, checked_of_none hcheck, withChannel_of_some (channelOf_of_toNat hch),
    withWords_of_some hread]
  simp only [streamWords_packStream _ hne, List.headD_eq_getD]
  rfl

/-- R305: a legal RLPACK names a channel. -/
theorem exists_channel_of_legal {f : Fields} (hlegal : (Instr.rlpack f).wellFormed dmemWords = true) :
    ∃ c : Channel, f.ch.toNat = c.val := by
  obtain ⟨-, -, -, -, -, hch, -⟩ := commandCheck_none ((wellFormed_iff dmemWords (.rlpack f)).mp hlegal)
  have hlt : ∀ ch : BitVec 2, ch ≠ 3 → ch.toNat < 3 := by decide
  exact ⟨⟨f.ch.toNat, hlt f.ch (hch rfl)⟩, rfl⟩

/-- Settles O16: the pairs by position are the pairs that the packer finds from left to right. -/
theorem rlpackResult : Obligations.RlpackResult := by
  refine ⟨hasOpcode (fun _ => rfl) fun _ => rfl, onlyChannelCheckFaults _, fun f s ws c hlegal hch hread => ?_⟩
  have hws := Memory.readWords_length hread
  refine ⟨_, exec_rlpack_of_legal hlegal hch hread, packerEnd_eq, ?_⟩
  obtain ⟨hcount, hsymbols⟩ :=
    reads_of_packedStream s.mem f.dst.toNat (ws.getD 0 0 - s.pred c) (acPairs 0 ws.tail)
  rw [← packerEnd_mem (c := c) (w := ws.getD 0 0)] at hcount hsymbols
  rw [nonzeroAc_length hws, runValuePairs_eq hws]
  exact ⟨hcount, hsymbols, fun key hkey => readByte_packerEnd (packedStream_length ..) key (by omega)⟩

/-- Settles O53: the count word of O16, which does not wrap, for at most 63 pairs. -/
theorem rlpackStreamLength : Obligations.RlpackStreamLength := by
  intro f s t ws hlegal hread hnext
  have hws := Memory.readWords_length hread
  have hpairs := acPairs_tail_length_le hws
  obtain ⟨c, hch⟩ := exists_channel_of_legal hlegal
  rw [exec_rlpack_of_legal hlegal hch hread] at hnext
  cases hnext
  refine ⟨streamCount (acPairs 0 ws.tail), packerEnd_mem ▸ (reads_of_packedStream ..).1, ?_⟩
  rw [← acPairs_length ws.tail 0, streamCount_toNat hpairs]
  omega

/-! ### RLUNPACK -/

/-- How RLUNPACK ends, given what it makes of the stream (R485, R610, R611). -/
def unpackEnd (s : State) (dst : ℕ) (c : Channel) : Except (CoreFault × Word) (List ℤ) → Result
  | .error (code, info) => .next (s.raise code info)
  | .ok seq => .next (packerEnd s dst (seq.map u64) c (u64 (seq.headD 0)))

section
variable {f : Fields} {s : State} {n : Word} {c : Channel} (hlegal : (Instr.rlunpack f).wellFormed dmemWords = true)
  (hch : f.ch.toNat = c.val) (hcount : s.mem.readWord f.src.toNat = some n)
include hlegal hch

/-- R485: a legal RLUNPACK reads its stream and ends as the stream says. -/
theorem exec_rlunpack_of_legal :
    exec (.rlunpack f) s = withStream s f.src.toNat 1 fun n ws =>
      unpackEnd s f.dst.toNat c (unpackStream n (s64 (s.pred c)) (ws.map s64)) := by
  have hcheck : commandCheck params.dmemWords ⟨true, 130, 64⟩ f = none :=
    (wellFormed_iff dmemWords (.rlunpack f)).mp hlegal
  rw [exec, execRlunpack, rlunpackAt, checked_of_none hcheck, withChannel_of_some (channelOf_of_toNat hch)]
  rfl

include hcount

theorem exec_rlunpack_of_stream {ws : List Word} (hlow : 1 ≤ n.toNat) (hhigh : n.toNat ≤ 129)
    (hread : s.mem.readWords (f.src.toNat + 1) n.toNat = some ws) :
    exec (.rlunpack f) s = unpackEnd s f.dst.toNat c (unpackStream n (s64 (s.pred c)) (ws.map s64)) := by
  rw [exec_rlunpack_of_legal hlegal hch, withStream_of_good hcount hlow hhigh hread]

/-- R485: the pair loop's fault after accepted pairs is how the command ends. -/
theorem exec_rlunpack_of_error {delta : Word} {pairs : List (ℕ × Word)} {rest : List Word} {code : CoreFault} {info : Word}
    (hlow : 1 ≤ n.toNat) (hhigh : n.toNat ≤ 129) (hacc : AcceptedPairs pairs)
    (hread : s.mem.readWords (f.src.toNat + 1) n.toNat = some ([delta] ++ pairSymbols pairs ++ rest))
    (herror : unpackPairs n (1 + 2 * pairs.length) (rest.map s64)
      (([delta + s.pred c] ++ pairElements pairs).map s64) = .error (code, info)) :
    exec (.rlunpack f) s = .next (s.raise code info) := by
  rw [exec_rlunpack_of_stream hlegal hch hcount hlow hhigh hread, unpackStream_of_error hacc herror, unpackEnd]

/-- R485: a terminator after accepted pairs completes the command. -/
theorem exec_rlunpack_of_terminator {delta : Word} {pairs : List (ℕ × Word)} {ignored : List Word}
    (hlow : 1 ≤ n.toNat) (hhigh : n.toNat ≤ 129) (hacc : AcceptedPairs pairs)
    (hread : s.mem.readWords (f.src.toNat + 1) n.toNat = some ([delta] ++ pairSymbols pairs ++ ([0, 0] ++ ignored))) :
    exec (.rlunpack f) s =
      .next (packerEnd s f.dst.toNat (unpackedWords (delta + s.pred c) pairs) c (delta + s.pred c)) := by
  have hhead : u64 (((unpackedWords (delta + s.pred c) pairs).map s64).headD 0) = delta + s.pred c := u64_s64 _
  rw [exec_rlunpack_of_stream hlegal hch hcount hlow hhigh hread, unpackStream_of_terminator ignored hacc, unpackEnd,
    map_u64_map_s64, hhead]

end

/-- Settles O17: accepted pairs set the pair loop to the symbols after them, and one round of it says which way it ends. -/
theorem rlunpackResult : Obligations.RlunpackResult := by
  refine ⟨hasOpcode (fun _ => rfl) fun _ => rfl, onlyChannelCheckFaults _, fun f s n c hlegal hch hcount =>
    ⟨fun hbad => ?_, fun delta pairs rest hhigh hacc hread => ?_⟩⟩
  · rw [exec_rlunpack_of_legal hlegal hch]
    exact withStream_of_bad hcount (hbad.imp_left fun h => by omega)
  have hlow : 1 ≤ n.toNat := by
    have hlen := Memory.readWords_length hread
    simp only [List.length_append, List.length_singleton] at hlen
    omega
  have hfault {code info} := exec_rlunpack_of_error (code := code) (info := info) hlegal hch hcount hlow hhigh hacc hread
  refine ⟨?_, fun hshort => ?_, ?_, ?_⟩
  · rintro ignored rfl
    have hlen := unpackedWords_length hacc (delta + s.pred c)
    exact ⟨_, exec_rlunpack_of_terminator hlegal hch hcount hlow hhigh hacc hread, packerEnd_eq,
      readWords_packerEnd hlen, readByte_packerEnd hlen⟩
  · exact hfault (unpackPairs_of_short (by rwa [List.length_map]))
  · rintro run val more rfl hne hneg
    rw [← u64_natCast]
    exact hfault (unpackPairs_of_negative (by rwa [s64_eq_zero_iff, s64_eq_zero_iff]) hneg)
  · rintro run val more rfl hne hrun hover
    rw [← u64_natCast]
    refine hfault (unpackPairs_of_overflow (by rwa [s64_eq_zero_iff, s64_eq_zero_iff]) hrun ?_)
    rw [List.length_map, List.length_append, List.length_singleton]
    push_cast
    exact hover

/-! ### The round trip -/

/-- Settles O46: the unpacker accepts the pairs that the packer stored, and they expand to the sequence. -/
theorem packerRoundTrip : Obligations.PackerRoundTrip := by
  intro f g s c ws hf hg hsrc hch hgch hread
  have hws := Memory.readWords_length hread
  have hpairs := acPairs_tail_length_le hws
  have hacc := acceptedPairs_acPairs hws
  have hcount := streamCount_toNat hpairs
  have hpack := exec_rlpack_of_legal hf hch hread
  set t := packerEnd s f.dst.toNat (packedStream (ws.getD 0 0 - s.pred c) (acPairs 0 ws.tail)) c (ws.getD 0 0)
  have hmem : (t.setPred c (s.pred c)).mem =
      s.mem.writeWords g.src.toNat (packedStream (ws.getD 0 0 - s.pred c) (acPairs 0 ws.tail)) := by
    rw [State.setPred_mem, packerEnd_mem, hsrc]
  obtain ⟨hreadCount, hreadSymbols⟩ := hmem ▸ reads_of_packedStream s.mem g.src.toNat (ws.getD 0 0 - s.pred c) _
  rw [← hcount] at hreadSymbols
  have hunpack := exec_rlunpack_of_terminator (ignored := []) hg (hgch ▸ hch) hreadCount (by omega) (by omega) hacc
    hreadSymbols
  rw [State.pred_setPred_same, BitVec.sub_add_cancel, unpackedWords_acPairs hws] at hunpack
  exact ⟨t, _, hpack, hunpack, readWords_packerEnd hws, packerEnd_pred⟩

end Sys2Proof.Spec
end

section
/-! PROOFS. The probability table of the arithmetic coder (R500) and the symbol of a value in [0, 1) (R501): what every legal
CUM has in common, the decoder's lookup by counts, and the same symbol by rational intervals. -/

namespace Sys2Proof.Spec

open Sys2Proof.Machine

/-- R500, R10: 65 counts that rise strictly from 0 to 2^16. -/
structure CumLegal (cum : List ℕ) : Prop where
  length_eq : cum.length = 65
  first : cumAt cum 0 = 0
  last : cumAt cum 64 = 65536
  lt_succ : ∀ k < 64, cumAt cum k < cumAt cum (k + 1)

theorem cumLegal_of_legal {p : Params} (h : p.legal = true) : CumLegal p.cum := by
  simp only [Params.legal, Params.cumLegal, Bool.and_eq_true, beq_iff_eq, List.all_eq_true, List.mem_range,
    decide_eq_true_eq] at h
  obtain ⟨-, ⟨⟨hlen, hfirst⟩, hlast⟩, hrise⟩ := h
  refine ⟨hlen, ?_, hlast, hrise⟩
  rwa [List.getD_eq_getElem _ _ (by omega), ← List.getD_eq_getElem _ 0] at hfirst

theorem cumLegal_default : CumLegal defaultCum := ⟨rfl, rfl, rfl, by decide⟩

/-! ### The lookup by counts -/

/-- R508: the lookup is the place of the first upper bound above t. -/
theorem symbolAt_eq_findIdx (cum : List ℕ) (t : ℕ) : symbolAt cum t = cum.tail.findIdx fun c => decide (t < c) := by
  have hnot : (fun c => !decide (c ≤ t)) = fun c => decide (t < c) := by
    funext c
    rw [← decide_not, decide_eq_decide, not_le]
  rw [symbolAt, List.takeWhile_eq_take_findIdx_not, List.length_take, min_eq_left List.findIdx_le_length, hnot]

theorem getElem_tail_eq_cumAt {cum : List ℕ} {k : ℕ} (hk : k < cum.tail.length) : cum.tail[k] = cumAt cum (k + 1) := by
  rw [List.getElem_tail, cumAt, List.getD_eq_getElem]

section
variable {cum : List ℕ} (hc : CumLegal cum)
include hc

theorem CumLegal.mono {i j : ℕ} (hij : i ≤ j) (hj : j ≤ 64) : cumAt cum i ≤ cumAt cum j := by
  induction j, hij using Nat.le_induction with
  | base => exact le_rfl
  | succ j _ ih => exact (ih (by omega)).trans (hc.lt_succ j (by omega)).le

theorem CumLegal.tail_length : cum.tail.length = 64 := by
  rw [List.length_tail, hc.length_eq]

/-- R501: below 2^16 the lookup finds an upper bound. -/
theorem CumLegal.symbolAt_lt {t : ℕ} (ht : t < 65536) : symbolAt cum t < 64 := by
  have htop : 63 < cum.tail.length := by simp [hc.tail_length]
  rw [symbolAt_eq_findIdx, ← hc.tail_length, List.findIdx_lt_length]
  refine ⟨cum.tail[63], List.getElem_mem htop, ?_⟩
  rw [getElem_tail_eq_cumAt, hc.last]
  exact decide_eq_true ht

/-- R501: the lookup finds symbol number k exactly when the counts of k enclose t. -/
theorem CumLegal.symbolAt_eq_iff {k t : ℕ} (hk : k < 64) :
    symbolAt cum t = k ↔ cumAt cum k ≤ t ∧ t < cumAt cum (k + 1) := by
  rw [symbolAt_eq_findIdx, List.findIdx_eq (hc.tail_length.symm ▸ hk), and_comm]
  simp only [getElem_tail_eq_cumAt, decide_eq_true_eq, decide_eq_false_iff_not, not_lt]
  refine and_congr_left' ⟨fun h => ?_, fun h j hj => (hc.mono (by omega) hk.le).trans h⟩
  cases k with
  | zero => simp [hc.first]
  | succ j => exact h j j.lt_succ_self

end

/-! ### The symbol of a value -/

/-- R501: sym(v), as the decoder looks it up from floor(2^16 · v). -/
def symbolOf (cum : List ℕ) (v : ℚ) : ℤ := (symbolAt cum ⌊2 ^ 16 * v⌋.toNat : ℤ) - 32

theorem toNat_symbol_add_32 (k : ℕ) : ((k : ℤ) - 32 + 32).toNat = k := by omega

theorem toNat_symbol_add_33 (k : ℕ) : ((k : ℤ) - 32 + 33).toNat = k + 1 := by omega

theorem lowBound_eq (cum : List ℕ) (k : ℕ) : lowBound cum ((k : ℤ) - 32) = (cumAt cum k : ℚ) / 65536 := by
  rw [lowBound, toNat_symbol_add_32, cumAt]

theorem highBound_eq (cum : List ℕ) (k : ℕ) : highBound cum ((k : ℤ) - 32) = (cumAt cum (k + 1) : ℚ) / 65536 := by
  rw [highBound, toNat_symbol_add_33, cumAt]

/-- R500: a symbol in −32 .. 31 is its number less 32. -/
theorem exists_symbol_number {s : ℤ} (hlo : -32 ≤ s) (hhi : s ≤ 31) : ∃ k : ℕ, k < 64 ∧ s = (k : ℤ) - 32 :=
  ⟨(s + 32).toNat, by omega, by omega⟩

/-- R501: bounds in units of 2^−16 are integers, so the interval of a symbol holds v exactly when its counts enclose
floor(2^16 · v). -/
theorem interval_holds_iff_counts_enclose (cum : List ℕ) (k : ℕ) (v : ℚ) :
    (lowBound cum ((k : ℤ) - 32) ≤ v ∧ v < highBound cum ((k : ℤ) - 32)) ↔
      (cumAt cum k : ℤ) ≤ ⌊2 ^ 16 * v⌋ ∧ ⌊2 ^ 16 * v⌋ < (cumAt cum (k + 1) : ℤ) := by
  rw [lowBound_eq, highBound_eq, Int.le_floor, Int.floor_lt, div_le_iff₀' (by norm_num), lt_div_iff₀' (by norm_num)]
  norm_num

section
variable {cum : List ℕ} (hc : CumLegal cum)
include hc

theorem CumLegal.lowBound_lt_highBound {s : ℤ} (hlo : -32 ≤ s) (hhi : s ≤ 31) : lowBound cum s < highBound cum s := by
  obtain ⟨k, hk, rfl⟩ := exists_symbol_number hlo hhi
  rw [lowBound_eq, highBound_eq]
  exact div_lt_div_of_pos_right (by exact_mod_cast hc.lt_succ k hk) (by norm_num)

theorem CumLegal.highBound_le_one {s : ℤ} (hlo : -32 ≤ s) (hhi : s ≤ 31) : highBound cum s ≤ 1 := by
  obtain ⟨k, hk, rfl⟩ := exists_symbol_number hlo hhi
  rw [highBound_eq, div_le_one (by norm_num)]
  exact_mod_cast (hc.mono (by omega) le_rfl : cumAt cum (k + 1) ≤ cumAt cum 64).trans_eq hc.last

variable {v : ℚ} (hv : v ∈ Set.Ico (0 : ℚ) 1)
include hv

theorem CumLegal.symbolOf_mem : -32 ≤ symbolOf cum v ∧ symbolOf cum v ≤ 31 := by
  have ht : ⌊2 ^ 16 * v⌋ < 65536 := by
    rw [Int.floor_lt]
    norm_num
    linarith [hv.2]
  have hlt := hc.symbolAt_lt (t := ⌊2 ^ 16 * v⌋.toNat) (by omega)
  unfold symbolOf
  omega

/-- R501: the counts of symbol number k enclose floor(2^16 · v) exactly when k is the symbol that is looked up. -/
theorem CumLegal.counts_enclose_iff {k : ℕ} (hk : k < 64) :
    ((cumAt cum k : ℤ) ≤ ⌊2 ^ 16 * v⌋ ∧ ⌊2 ^ 16 * v⌋ < (cumAt cum (k + 1) : ℤ)) ↔ (k : ℤ) - 32 = symbolOf cum v := by
  obtain ⟨t, ht⟩ := Int.eq_ofNat_of_zero_le (Int.floor_nonneg.mpr (by linarith [hv.1] : 0 ≤ 2 ^ 16 * v))
  rw [symbolOf, ht, Int.toNat_natCast, sub_left_inj, Int.natCast_inj, eq_comm, hc.symbolAt_eq_iff hk, Nat.cast_le, Nat.cast_lt]

/-- R501: exactly one symbol's interval holds v. -/
theorem CumLegal.interval_holds_iff {s : ℤ} (hlo : -32 ≤ s) (hhi : s ≤ 31) :
    (lowBound cum s ≤ v ∧ v < highBound cum s) ↔ s = symbolOf cum v := by
  obtain ⟨k, hk, rfl⟩ := exists_symbol_number hlo hhi
  rw [interval_holds_iff_counts_enclose, hc.counts_enclose_iff hv hk]

end

/-- Settles O52: the symbol is the one that the decoder looks up; intervals hold v as counts enclose floor(2^16 · v). -/
theorem symbolLookupUnique : Obligations.SymbolLookupUnique := by
  intro p v hp hv0 hv1
  have hc := cumLegal_of_legal hp
  have hv : v ∈ Set.Ico (0 : ℚ) 1 := ⟨hv0, hv1⟩
  refine ⟨symbolOf p.cum v, hc.symbolOf_mem hv, fun s hlo hhi => ⟨hc.interval_holds_iff hv hlo hhi, ?_⟩, rfl⟩
  obtain ⟨k, hk, rfl⟩ := exists_symbol_number hlo hhi
  rw [toNat_symbol_add_32, toNat_symbol_add_33, ← hc.counts_enclose_iff hv hk, cumAt, cumAt]

end Sys2Proof.Spec
end

section
/-! PROOFS. A codeword as a number, as 33 words and as a rational (R205). -/

namespace Sys2Proof.Machine

open Sys2Proof.Spec

/-- R205: the low `count` words of a number give back its low 64 · count bits. -/
theorem codewordOf_words (count cw : ℕ) :
    codewordOf ((List.range count).map fun k => BitVec.ofNat 64 (cw / 2 ^ (64 * k))) = cw % 2 ^ (64 * count) := by
  induction count generalizing cw with
  | zero => simp [codewordOf, Nat.mod_one]
  | succ count ih =>
    have hshift : ∀ k, cw / 2 ^ (64 * (k + 1)) = cw / 2 ^ 64 / 2 ^ (64 * k) := fun k => by
      rw [Nat.div_div_eq_div_mul, ← pow_add, mul_add, add_comm, mul_one]
    rw [List.range_succ_eq_map, List.map_cons, List.map_map, codewordOf, mul_add, mul_one, add_comm (64 * count), pow_add,
      Nat.mod_mul, ← ih, BitVec.toNat_ofNat, mul_zero, pow_zero, Nat.div_one]
    simp only [Function.comp_def, Nat.succ_eq_add_one, hshift]

/-- R205: 33 words hold every codeword. -/
theorem codewordOf_codewordWords {cw : ℕ} (h : cw < 2 ^ 2112) : codewordOf (codewordWords cw) = cw := by
  rw [codewordWords, codewordOf_words, show 64 * cwWords = 2112 from rfl, Nat.mod_eq_of_lt h]

theorem codewordWords_length (cw : ℕ) : (codewordWords cw).length = 33 := by
  rw [codewordWords, List.length_map, List.length_range, cwWords]

theorem getElem?_codewordWords (cw : ℕ) {k : ℕ} (hk : k < 33) :
    (codewordWords cw)[k]? = some (BitVec.ofNat 64 (cw / 2 ^ (64 * k))) := by
  rw [codewordWords, cwWords, List.getElem?_map, List.getElem?_range hk, Option.map_some]

theorem codewordOf_lt (ws : List Word) : codewordOf ws < 2 ^ (64 * ws.length) := by
  induction ws with
  | nil => exact Nat.one_pos
  | cons w ws ih =>
    have hw := w.isLt
    rw [codewordOf, List.length_cons, mul_add, mul_one, add_comm (64 * ws.length), pow_add]
    calc w.toNat + 2 ^ 64 * codewordOf ws < 2 ^ 64 * (codewordOf ws + 1) := by rw [mul_add, mul_one]; omega
      _ ≤ 2 ^ 64 * 2 ^ (64 * ws.length) := Nat.mul_le_mul_left _ ih

theorem codewordOf_eq_sum (ws : List Word) :
    codewordOf ws = ∑ k ∈ Finset.range ws.length, (ws.getD k 0).toNat * 2 ^ (64 * k) := by
  induction ws with
  | nil => rfl
  | cons w ws ih =>
    rw [codewordOf, ih, List.length_cons, Finset.sum_range_succ', Finset.mul_sum, add_comm]
    refine congrArg₂ (· + ·) (Finset.sum_congr rfl fun k _ => ?_) (by simp)
    rw [List.getD_cons_succ, mul_add, pow_add]
    ring

section
variable {ws : List Word} (hws : ws.length = 33)
include hws

theorem codewordOf_lt_of_length : codewordOf ws < 2 ^ 2112 := by
  have h := codewordOf_lt ws
  rwa [hws, show 64 * 33 = 2112 from rfl] at h

/-- R205: the value of a codeword is its number over 2^2112. -/
theorem codewordValue_eq : codewordValue ws = (codewordOf ws : ℚ) / (2 ^ 2112 : ℕ) := by
  rw [codewordValue, codewordOf_eq_sum, hws]
  simp only [Nat.cast_sum, Nat.cast_mul, Nat.cast_pow, Nat.cast_ofNat]

end

end Sys2Proof.Machine
end

section
/-! PROOFS. The interval of a list of symbols (R503, R504): in exact rationals, where a first symbol maps the interval of the
rest into its own, and in the integers that the encoder computes with (R507). -/

namespace Sys2Proof.Spec

open Sys2Proof.Machine

theorem saturate_mem {lo hi : ℤ} (h : lo ≤ hi) (v : ℤ) : lo ≤ saturate lo hi v ∧ saturate lo hi v ≤ hi :=
  ⟨le_max_left .., max_le h (min_le_left ..)⟩

/-- The part of [low, high) that symbol s owns, after clipping (R503). -/
def narrowRat (cum : List ℕ) (lh : ℚ × ℚ) (s : ℤ) : ℚ × ℚ :=
  (lh.1 + (lh.2 - lh.1) * lowBound cum (saturate (-32) 31 s), lh.1 + (lh.2 - lh.1) * highBound cum (saturate (-32) 31 s))

theorem ratInterval_eq_foldl (cum : List ℕ) (symbols : List ℤ) :
    ratInterval cum symbols = symbols.foldl (narrowRat cum) (0, 1) := rfl

theorem ratInterval_append_singleton (cum : List ℕ) (symbols : List ℤ) (s : ℤ) :
    ratInterval cum (symbols ++ [s]) = narrowRat cum (ratInterval cum symbols) s := by
  rw [ratInterval_eq_foldl, ratInterval_eq_foldl, List.foldl_append, List.foldl_cons, List.foldl_nil]

/-- A point of [0, 1) carried into [low, high). -/
def within (lh : ℚ × ℚ) (x : ℚ) : ℚ := lh.1 + (lh.2 - lh.1) * x

/-- Narrowing keeps proportions. -/
theorem foldl_narrowRat_within (cum : List ℕ) (symbols : List ℤ) (lh ab : ℚ × ℚ) :
    symbols.foldl (narrowRat cum) (within lh ab.1, within lh ab.2) =
      (within lh (symbols.foldl (narrowRat cum) ab).1, within lh (symbols.foldl (narrowRat cum) ab).2) := by
  induction symbols generalizing ab with
  | nil => rfl
  | cons s rest ih =>
    have hstep : narrowRat cum (within lh ab.1, within lh ab.2) s =
        (within lh (narrowRat cum ab s).1, within lh (narrowRat cum ab s).2) := by
      ext <;> simp only [narrowRat, within] <;> ring
    rw [List.foldl_cons, List.foldl_cons, hstep, ih]

/-- The interval of a list is that of its tail, carried into the interval of its first symbol. -/
theorem ratInterval_cons (cum : List ℕ) (s : ℤ) (rest : List ℤ) :
    ratInterval cum (s :: rest) =
      (within (lowBound cum (saturate (-32) 31 s), highBound cum (saturate (-32) 31 s)) (ratInterval cum rest).1,
        within (lowBound cum (saturate (-32) 31 s), highBound cum (saturate (-32) 31 s)) (ratInterval cum rest).2) := by
  rw [ratInterval_eq_foldl, ratInterval_eq_foldl, ← foldl_narrowRat_within, List.foldl_cons]
  simp only [narrowRat, within, sub_zero, one_mul, zero_add, mul_zero, add_zero, mul_one, add_sub_cancel]

theorem lowBound_nonneg (cum : List ℕ) (s : ℤ) : 0 ≤ lowBound cum s := by
  unfold lowBound
  positivity

section
variable {cum : List ℕ} (hc : CumLegal cum)
include hc

/-- R504: the interval of any list has a width, and it lies in [0, 1). -/
theorem CumLegal.ratInterval_bounds (symbols : List ℤ) :
    0 ≤ (ratInterval cum symbols).1 ∧ (ratInterval cum symbols).1 < (ratInterval cum symbols).2 ∧
      (ratInterval cum symbols).2 ≤ 1 := by
  induction symbols with
  | nil => simp [ratInterval]
  | cons s rest ih =>
    obtain ⟨hlo, hhi⟩ := saturate_mem (by decide : (-32 : ℤ) ≤ 31) s
    have hlow := lowBound_nonneg cum (saturate (-32) 31 s)
    have hwidth := sub_pos.mpr (hc.lowBound_lt_highBound hlo hhi)
    have hhigh := hc.highBound_le_one hlo hhi
    obtain ⟨h0, h1, h2⟩ := ih
    rw [ratInterval_cons]
    simp only [within]
    exact ⟨by positivity, by nlinarith, by nlinarith⟩

/-- R509: a value in the interval of symbols in −32 .. 31 decodes to them: it lies in the interval of the first, and rescaled it
lies in the interval of the rest. -/
theorem CumLegal.decodesTo_of_mem {symbols : List ℤ} (hs : ∀ s ∈ symbols, -32 ≤ s ∧ s ≤ 31) {v : ℚ}
    (hlo : (ratInterval cum symbols).1 ≤ v) (hhi : v < (ratInterval cum symbols).2) : DecodesTo cum v symbols := by
  induction symbols generalizing v with
  | nil => trivial
  | cons s rest ih =>
    obtain ⟨⟨hs1, hs2⟩, hrest⟩ := List.forall_mem_cons.mp hs
    have hwidth := sub_pos.mpr (hc.lowBound_lt_highBound hs1 hs2)
    obtain ⟨h0, -, h1⟩ := hc.ratInterval_bounds rest
    rw [ratInterval_cons, saturate_of_mem hs1 hs2] at hlo hhi
    simp only [within] at hlo hhi
    refine ⟨hs1, hs2, by nlinarith, by nlinarith, ih hrest ?_ ?_⟩
    · rw [le_div_iff₀ hwidth]
      linarith
    · rw [div_lt_iff₀ hwidth]
      linarith

end

/-! ### The integers of the encoder (R507) -/

/-- R503: a symbol's number after clipping. -/
theorem symbolIndex_spec (s : ℤ) : symbolIndex s < 64 ∧ saturate (-32) 31 s = (symbolIndex s : ℤ) - 32 := by
  obtain ⟨hlo, hhi⟩ := saturate_mem (by decide : (-32 : ℤ) ≤ 31) s
  unfold symbolIndex symMin symMax
  rw [clamp_eq_saturate (by decide)]
  omega

section
variable {cum : List ℕ} (hc : CumLegal cum)
include hc

/-- R507: with (L, W) of n symbols, low = L / 2^(16·n) and high − low = W / 2^(16·n). -/
theorem CumLegal.ratInterval_eq (symbols : List ℤ) :
    ratInterval cum symbols = (((interval cum symbols).1 : ℚ) / 2 ^ (16 * symbols.length),
      ((interval cum symbols).1 + (interval cum symbols).2 : ℚ) / 2 ^ (16 * symbols.length)) := by
  induction symbols using List.reverseRecOn with
  | nil => simp [ratInterval, interval]
  | append_singleton symbols s ih =>
    obtain ⟨hk, hs⟩ := symbolIndex_spec s
    have hle := (hc.lt_succ _ hk).le
    have hinterval : interval cum (symbols ++ [s]) = narrow cum (interval cum symbols) s := by
      rw [interval, interval, List.foldl_append, List.foldl_cons, List.foldl_nil]
    have hpow : (2 : ℚ) ^ (16 * (symbols ++ [s]).length) = 2 ^ (16 * symbols.length) * 65536 := by
      rw [List.length_append, List.length_singleton, mul_add, pow_add]
      norm_num
    rw [ratInterval_append_singleton, ih, hinterval, hpow, narrowRat, hs, lowBound_eq, highBound_eq, narrow, pBits]
    ext
    · push_cast
      field_simp
      ring
    · push_cast [Nat.cast_sub hle]
      field_simp
      ring

/-- R503, R504: the codeword of at most 129 symbols is the midpoint of their interval, times 2^2112. -/
theorem CumLegal.encodeSymbols_eq_midpoint {symbols : List ℤ} (hn : symbols.length ≤ 129) :
    (encodeSymbols cum symbols : ℚ) = ((ratInterval cum symbols).1 + (ratInterval cum symbols).2) / 2 * 2 ^ 2112 := by
  obtain ⟨e, he⟩ : ∃ e, cwFrac = e + 1 + 16 * symbols.length := ⟨cwFrac - 16 * symbols.length - 1, by unfold cwFrac; omega⟩
  have hpow : (2 : ℚ) ^ 2112 = 2 ^ e * 2 * 2 ^ (16 * symbols.length) := by
    rw [← pow_succ, ← pow_add, ← he]
    rfl
  have hexp : cwFrac - 16 * symbols.length - 1 = e := by omega
  rw [hc.ratInterval_eq, hpow, encodeSymbols, hexp]
  push_cast
  field_simp
  ring

section
variable {symbols : List ℤ} (hn : symbols.length ≤ 129)
include hn

/-- R504: the midpoint lies strictly inside the interval. -/
theorem CumLegal.encodeSymbols_mem :
    (ratInterval cum symbols).1 < (encodeSymbols cum symbols : ℚ) / (2 ^ 2112 : ℕ) ∧
      (encodeSymbols cum symbols : ℚ) / (2 ^ 2112 : ℕ) < (ratInterval cum symbols).2 := by
  obtain ⟨-, hlt, -⟩ := hc.ratInterval_bounds symbols
  have hmid : (encodeSymbols cum symbols : ℚ) / (2 ^ 2112 : ℕ) =
      ((ratInterval cum symbols).1 + (ratInterval cum symbols).2) / 2 := by
    rw [hc.encodeSymbols_eq_midpoint hn, Nat.cast_pow, Nat.cast_ofNat, mul_div_cancel_right₀ _ (by positivity)]
  rw [hmid]
  constructor <;> linarith

/-- R504: a codeword fits in 2112 bits. -/
theorem CumLegal.encodeSymbols_lt : encodeSymbols cum symbols < 2 ^ 2112 := by
  obtain ⟨-, -, hle⟩ := hc.ratInterval_bounds symbols
  obtain ⟨-, hlt⟩ := hc.encodeSymbols_mem hn
  have h := hlt.trans_le hle
  rw [div_lt_one (by positivity)] at h
  exact_mod_cast h

end

end

end Sys2Proof.Spec
end

section
/-! PROOFS. The decoding loop (R505, R508): one round in exact rationals, where the decoding of a value stops, and that the loop
computes it. -/

namespace Sys2Proof.Spec

open Sys2Proof.Machine

/-! ### The terminator test -/

/-- R506: with one more symbol the test looks at it and at the last one before it. -/
theorem endsHere_append_singleton (pre : List ℤ) (s : ℤ) :
    EndsHere (pre ++ [s]) ↔ 3 ≤ pre.length + 1 ∧ (pre.length + 1) % 2 = 1 ∧ s = 0 ∧ pre.getLast? = some 0 := by
  have hlast : (pre ++ [s]).getD (pre.length + 1 - 1) 1 = s := by simp
  have hprev : 3 ≤ pre.length + 1 → ((pre ++ [s]).getD (pre.length + 1 - 2) 1 = 0 ↔ pre.getLast? = some 0) := fun h => by
    rw [List.getLast?_eq_getElem?, List.getD_eq_getElem?_getD, List.getElem?_append_left (by omega),
      show pre.length + 1 - 2 = pre.length - 1 by omega, List.getElem?_eq_getElem (by omega)]
    simp
  rw [EndsHere, List.length_append, List.length_singleton, hlast]
  constructor
  · rintro ⟨h3, hodd, h2, h1⟩
    exact ⟨h3, hodd, h1, (hprev h3).mp h2⟩
  · rintro ⟨h3, hodd, h1, h2⟩
    exact ⟨h3, hodd, (hprev h3).mpr h2, h1⟩

/-- R506: the test after the first k symbols of a list. -/
theorem endsHere_take_iff {symbols : List ℤ} {k : ℕ} (hk : k ≤ symbols.length) :
    EndsHere (symbols.take k) ↔ 3 ≤ k ∧ k % 2 = 1 ∧ symbols.getD (k - 2) 1 = 0 ∧ symbols.getD (k - 1) 1 = 0 := by
  rw [EndsHere, List.length_take, min_eq_left hk]
  refine and_congr_right fun h3 => ?_
  simp only [List.getD_eq_getElem?_getD, List.getElem?_take_of_lt (by omega : k - 2 < k),
    List.getElem?_take_of_lt (by omega : k - 1 < k)]

theorem not_endsHere_nil : ¬EndsHere [] := fun h => absurd h.1 (by decide)

/-! ### One round -/

/-- R505: the value after its first symbol has been taken out. -/
def rescaled (cum : List ℕ) (v : ℚ) : ℚ :=
  (v - lowBound cum (symbolOf cum v)) / (highBound cum (symbolOf cum v) - lowBound cum (symbolOf cum v))

theorem ratio_mem_unit {N D : ℕ} (hN : N < D) : (N : ℚ) / D ∈ Set.Ico (0 : ℚ) 1 :=
  ⟨by positivity, (div_lt_one (by exact_mod_cast Nat.zero_lt_of_lt hN)).mpr (by exact_mod_cast hN)⟩

/-- R508: with v = N / D, floor(2^16 · v) is an integer quotient. -/
theorem symbolAt_quotient (cum : List ℕ) (N D : ℕ) :
    (symbolAt cum (N * 2 ^ pBits / D) : ℤ) + symMin = symbolOf cum ((N : ℚ) / D) := by
  have hv : (2 : ℚ) ^ 16 * (N / D) = ((N * 2 ^ pBits : ℕ) : ℚ) / (D : ℕ) := by
    rw [pBits]
    push_cast
    ring
  rw [symbolOf, hv, Int.floor_toNat, Nat.floor_div_eq_div]
  rfl

section
variable {cum : List ℕ} (hc : CumLegal cum)
include hc

section
variable {v : ℚ} (hv : v ∈ Set.Ico (0 : ℚ) 1)
include hv

theorem CumLegal.symbolOf_holds : lowBound cum (symbolOf cum v) ≤ v ∧ v < highBound cum (symbolOf cum v) :=
  have ⟨hlo, hhi⟩ := hc.symbolOf_mem hv
  (hc.interval_holds_iff hv hlo hhi).mpr rfl

/-- R505: the rescale keeps 0 ≤ v < 1. -/
theorem CumLegal.rescaled_mem : rescaled cum v ∈ Set.Ico (0 : ℚ) 1 := by
  obtain ⟨hlo, hhi⟩ := hc.symbolOf_holds hv
  have hwidth := sub_pos.mpr (hlo.trans_lt hhi)
  exact ⟨div_nonneg (sub_nonneg.mpr hlo) hwidth.le, (div_lt_one hwidth).mpr (by linarith)⟩

/-- R501, R505: the first symbol that a value decodes to is sym(v), and the rest comes from the rescaled value. -/
theorem CumLegal.decodesTo_cons_iff {s : ℤ} {rest : List ℤ} :
    DecodesTo cum v (s :: rest) ↔ s = symbolOf cum v ∧ DecodesTo cum (rescaled cum v) rest := by
  constructor
  · rintro ⟨hs1, hs2, hlo, hhi, hrest⟩
    obtain rfl := (hc.interval_holds_iff hv hs1 hs2).mp ⟨hlo, hhi⟩
    exact ⟨rfl, hrest⟩
  · rintro ⟨rfl, hrest⟩
    obtain ⟨hs1, hs2⟩ := hc.symbolOf_mem hv
    obtain ⟨hlo, hhi⟩ := hc.symbolOf_holds hv
    exact ⟨hs1, hs2, hlo, hhi, hrest⟩

end

/-- R508: the loop's next numerator and denominator stand for the rescaled value, which is again below 1. -/
theorem CumLegal.next_quotient {N D c : ℕ} (hN : N < D) (hsymbol : symbolAt cum (N * 2 ^ pBits / D) = c) :
    N * 2 ^ pBits - cumAt cum c * D < D * (cumAt cum (c + 1) - cumAt cum c) ∧
      ((N * 2 ^ pBits - cumAt cum c * D : ℕ) : ℚ) / (D * (cumAt cum (c + 1) - cumAt cum c) : ℕ) = rescaled cum (N / D) := by
  have hD : 0 < D := Nat.zero_lt_of_lt hN
  have hc64 : c < 64 := hsymbol ▸ hc.symbolAt_lt ((Nat.div_lt_iff_lt_mul hD).mpr (by unfold pBits; omega))
  obtain ⟨hlow, hhigh⟩ := (hc.symbolAt_eq_iff hc64).mp hsymbol
  rw [Nat.le_div_iff_mul_le hD] at hlow
  rw [Nat.div_lt_iff_lt_mul hD] at hhigh
  have hfreq := hc.lt_succ c hc64
  constructor
  · rw [Nat.mul_sub, mul_comm D, mul_comm D]
    omega
  · have hD' : (D : ℚ) ≠ 0 := by positivity
    have hfreq' : (cumAt cum (c + 1) : ℚ) - cumAt cum c ≠ 0 := sub_ne_zero.mpr (by exact_mod_cast hfreq.ne')
    have hs : symbolOf cum (N / D) = (c : ℤ) - 32 := by rw [← symbolAt_quotient, hsymbol]; rfl
    rw [rescaled, hs, lowBound_eq, highBound_eq, Nat.cast_sub hlow, Nat.cast_mul D, Nat.cast_sub hfreq.le, pBits]
    push_cast
    field_simp

/-- R508: a round of the loop takes sym(v) out of v = N / D, and ends there or goes on with the rescaled value. -/
theorem CumLegal.decodeLoop_succ {N D : ℕ} (hN : N < D) (fuel : ℕ) (acc : List ℤ) :
    (EndsHere (acc.reverse ++ [symbolOf cum (N / D)]) →
      decodeLoop cum (fuel + 1) N D acc = some (acc.reverse ++ [symbolOf cum (N / D)])) ∧
    (¬EndsHere (acc.reverse ++ [symbolOf cum (N / D)]) → ∃ N' D' : ℕ, N' < D' ∧ (N' : ℚ) / D' = rescaled cum (N / D) ∧
      decodeLoop cum (fuel + 1) N D acc = decodeLoop cum fuel N' D' (symbolOf cum (N / D) :: acc)) := by
  obtain ⟨hlt, hvalue⟩ := hc.next_quotient hN rfl
  rw [endsHere_append_singleton, List.length_reverse, List.getLast?_reverse, decodeLoop]
  simp only [symbolAt_quotient]
  exact ⟨fun h => if_pos h, fun h => ⟨_, _, hlt, hvalue, if_neg h⟩⟩

end

/-! ### Where a decoding stops -/

/-- R505: after the symbols `pre`, whose value left is v, decoding goes on with `symbols` and stops after them: at the first
terminator, or without one after `fuel` symbols. -/
structure DecodesUntilStop (cum : List ℕ) (fuel : ℕ) (v : ℚ) (pre symbols : List ℤ) : Prop where
  decodes : DecodesTo cum v symbols
  goes_on : ∀ k < symbols.length, ¬EndsHere (pre ++ symbols.take k)
  stops : symbols.length ≤ fuel ∧ EndsHere (pre ++ symbols) ∨ symbols.length = fuel ∧ ¬EndsHere (pre ++ symbols)

/-- R505: with no rounds left nothing more is decoded. -/
theorem decodesUntilStop_zero_iff {cum : List ℕ} {v : ℚ} {pre symbols : List ℤ} (hpre : ¬EndsHere pre) :
    DecodesUntilStop cum 0 v pre symbols ↔ symbols = [] := by
  constructor
  · rintro ⟨-, -, ⟨hlen, -⟩ | ⟨hlen, -⟩⟩
    · exact List.length_eq_zero_iff.mp (Nat.le_zero.mp hlen)
    · exact List.length_eq_zero_iff.mp hlen
  · rintro rfl
    exact ⟨trivial, nofun, .inr ⟨rfl, by rwa [List.append_nil]⟩⟩

section
variable {cum : List ℕ} (hc : CumLegal cum)
include hc

/-- R505: a round appends sym(v), and it is the last one or decoding goes on with the rescaled value. -/
theorem CumLegal.decodesUntilStop_succ_iff {fuel : ℕ} {v : ℚ} (hv : v ∈ Set.Ico (0 : ℚ) 1) {pre symbols : List ℤ}
    (hpre : ¬EndsHere pre) :
    DecodesUntilStop cum (fuel + 1) v pre symbols ↔
      EndsHere (pre ++ [symbolOf cum v]) ∧ symbols = [symbolOf cum v] ∨
        ¬EndsHere (pre ++ [symbolOf cum v]) ∧ ∃ rest, symbols = symbolOf cum v :: rest ∧
          DecodesUntilStop cum fuel (rescaled cum v) (pre ++ [symbolOf cum v]) rest := by
  constructor
  · rintro ⟨hdecodes, hgo, hstops⟩
    cases symbols with
    | nil => simp [hpre] at hstops
    | cons s rest =>
      obtain ⟨rfl, hrest⟩ := (hc.decodesTo_cons_iff hv).mp hdecodes
      by_cases hend : EndsHere (pre ++ [symbolOf cum v])
      · cases rest with
        | nil => exact .inl ⟨hend, rfl⟩
        | cons _ _ => exact absurd hend (hgo 1 (by simp))
      · refine .inr ⟨hend, rest, rfl, hrest, fun k hk => ?_, ?_⟩
        · simpa using hgo (k + 1) (by simpa using hk)
        · simpa using hstops
  · rintro (⟨hend, rfl⟩ | ⟨hend, rest, rfl, hrest, hgo, hstops⟩)
    · exact ⟨(hc.decodesTo_cons_iff hv).mpr ⟨rfl, trivial⟩, by simpa using hpre, .inl ⟨by simp, hend⟩⟩
    · refine ⟨(hc.decodesTo_cons_iff hv).mpr ⟨rfl, hrest⟩, fun k hk => ?_, by simpa using hstops⟩
      cases k with
      | zero => simpa using hpre
      | succ k => simpa using hgo k (by simpa using hk)

/-- R505: every value decodes until a stop. -/
theorem CumLegal.exists_decodesUntilStop {v : ℚ} (hv : v ∈ Set.Ico (0 : ℚ) 1) (fuel : ℕ) {pre : List ℤ} (hpre : ¬EndsHere pre) :
    ∃ symbols, DecodesUntilStop cum fuel v pre symbols := by
  induction fuel generalizing v pre with
  | zero => exact ⟨[], (decodesUntilStop_zero_iff hpre).mpr rfl⟩
  | succ fuel ih =>
    simp only [hc.decodesUntilStop_succ_iff hv hpre]
    by_cases hend : EndsHere (pre ++ [symbolOf cum v])
    · exact ⟨_, .inl ⟨hend, rfl⟩⟩
    · obtain ⟨rest, hrest⟩ := ih (hc.rescaled_mem hv) hend
      exact ⟨_, .inr ⟨hend, rest, rfl, hrest⟩⟩

/-- R508: the loop computes the decoding of v = N / D, and tells whether it stopped at a terminator. -/
theorem CumLegal.decodeLoop_of_decodesUntilStop {fuel N D : ℕ} (hN : N < D) {acc symbols : List ℤ} (hacc : ¬EndsHere acc.reverse)
    (h : DecodesUntilStop cum fuel (N / D) acc.reverse symbols) :
    (EndsHere (acc.reverse ++ symbols) → decodeLoop cum fuel N D acc = some (acc.reverse ++ symbols)) ∧
      (¬EndsHere (acc.reverse ++ symbols) → decodeLoop cum fuel N D acc = none) := by
  induction fuel generalizing N D acc symbols with
  | zero =>
    obtain rfl := (decodesUntilStop_zero_iff hacc).mp h
    rw [List.append_nil]
    exact ⟨fun hend => absurd hend hacc, fun _ => rfl⟩
  | succ fuel ih =>
    obtain ⟨hstop, hgo⟩ := hc.decodeLoop_succ hN fuel acc
    rcases (hc.decodesUntilStop_succ_iff (ratio_mem_unit hN) hacc).mp h with ⟨hend, rfl⟩ | ⟨hend, rest, rfl, hrest⟩
    · exact ⟨fun _ => hstop hend, fun hne => absurd hend hne⟩
    · obtain ⟨N', D', hN', hvalue, hloop⟩ := hgo hend
      rw [← List.reverse_cons, ← hvalue] at hrest
      rw [← List.reverse_cons] at hend
      have hrounds := ih hN' hend hrest
      rwa [List.reverse_cons, List.append_assoc, List.singleton_append, ← hloop] at hrounds

/-- R505, R508: a codeword below 2^2112 decodes to the symbols of the rational decoding, or to none. -/
theorem CumLegal.decodeSymbols_of_decodesUntilStop {cw : ℕ} (hcw : cw < 2 ^ 2112) {symbols : List ℤ}
    (h : DecodesUntilStop cum 129 (cw / (2 ^ 2112 : ℕ)) [] symbols) :
    (EndsHere symbols → decodeSymbols cum cw = some symbols) ∧ (¬EndsHere symbols → decodeSymbols cum cw = none) := by
  rw [decodeSymbols, maxSymbols, cwFrac]
  exact hc.decodeLoop_of_decodesUntilStop hcw (acc := []) not_endsHere_nil h

end

end Sys2Proof.Spec
end

section
/-! PROOFS. AENC (R503) and ADEC (R505) as commands, what their results depend on (R502), and the round trip (R509). -/

namespace Sys2Proof.Spec

open Sys2Proof.Machine

/-! ### How both commands end -/

/-- R610, R611: the end of a coder command, given its fault with the information word, or the words that it stores from DST
on. -/
def coderEnd (s : State) (dst : ℕ) : Except (CoreFault × Word) (List Word) → State
  | .error (c, x) => s.raise c x
  | .ok ws => (s.store dst ws).complete

/-- R503: what AENC makes of a count word and the symbols. -/
def encodedWords (cum : List ℕ) (n : Word) (ws : List Word) : Except (CoreFault × Word) (List Word) :=
  if maxSymbols < n.toNat then .error (.streamLength, n) else .ok (codewordWords (encodeSymbols cum (ws.map s64)))

/-- R505: what ADEC makes of the words of a codeword. -/
def decodedWords (cum : List ℕ) (ws : List Word) : Except (CoreFault × Word) (List Word) :=
  match decodeSymbols cum (codewordOf ws) with
  | none => .error (.decOverrun, BitVec.ofNat 64 maxSymbols)
  | some symbols => .ok (streamWords symbols)

section
variable {p : Params} {f : Fields} {s : State}

/-- R503: an AENC whose operand is written ends as the count word and the symbols say, unless a check fails. -/
theorem aencAt_of_reads {n : Word} {ws : List Word} (hcount : s.mem.readWord f.src.toNat = some n)
    (hread : s.mem.readWords (f.src.toNat + 1) n.toNat = some ws) :
    aencAt p f s = checked p ⟨false, 130, 33⟩ f s (.next (coderEnd s f.dst.toNat (encodedWords p.cum n ws))) := by
  refine congrArg (checked p _ f s) ?_
  unfold encodedWords
  split
  · next hlong => exact withStream_of_bad hcount (.inr hlong)
  · next hshort => exact withStream_of_good hcount n.toNat.zero_le (not_lt.mp hshort) hread

/-- R505: an ADEC whose operand is written ends as the codeword says, unless a check fails. -/
theorem adecAt_of_read {ws : List Word} (hread : s.mem.readWords f.src.toNat 33 = some ws) :
    adecAt p f s = checked p ⟨false, 33, 130⟩ f s (.next (coderEnd s f.dst.toNat (decodedWords p.cum ws))) := by
  refine congrArg (checked p _ f s) ((withWords_of_some hread).trans ?_)
  unfold decodedWords
  cases decodeSymbols p.cum (codewordOf ws) <;> rfl

/-- A legal command passes the check phase (R310, R313). -/
theorem checked_of_wellFormed {i : Instr} (h : i.wellFormed p.dmemWords = true) (s : State) (body : Result) :
    checked p (footprintOf i) i.fields s body = body :=
  checked_of_none ((wellFormed_iff p.dmemWords i).mp h)

/-- R503: a legal AENC of at most 129 written symbols stores their codeword. -/
theorem aencAt_of_legal {n : Word} {ws : List Word} (hlegal : (Instr.aenc f).wellFormed p.dmemWords = true)
    (hcount : s.mem.readWord f.src.toNat = some n) (hn : n.toNat ≤ 129)
    (hread : s.mem.readWords (f.src.toNat + 1) n.toNat = some ws) :
    aencAt p f s = .next (s.store f.dst.toNat (codewordWords (encodeSymbols p.cum (ws.map s64)))).complete := by
  refine (aencAt_of_reads hcount hread).trans ((checked_of_wellFormed hlegal s _).trans ?_)
  rw [encodedWords, maxSymbols, if_neg (not_lt.mpr hn), coderEnd]

/-- R503: a legal AENC with a count above 129 raises STREAM_LENGTH, whatever follows the count. -/
theorem aencAt_of_long {n : Word} (hlegal : (Instr.aenc f).wellFormed p.dmemWords = true)
    (hcount : s.mem.readWord f.src.toNat = some n) (hn : 129 < n.toNat) : aencAt p f s = .next (s.raise .streamLength n) :=
  (checked_of_wellFormed hlegal s _).trans (withStream_of_bad hcount (.inr hn))

section
variable {ws : List Word} (hlegal : (Instr.adec f).wellFormed p.dmemWords = true)
  (hread : s.mem.readWords f.src.toNat 33 = some ws)
include hlegal hread

/-- R505: a legal ADEC stores the symbols that its codeword decodes to. -/
theorem adecAt_of_some {symbols : List ℤ} (h : decodeSymbols p.cum (codewordOf ws) = some symbols) :
    adecAt p f s = .next (s.store f.dst.toNat (streamWords symbols)).complete := by
  refine (adecAt_of_read hread).trans ((checked_of_wellFormed hlegal s _).trans ?_)
  rw [decodedWords, h, coderEnd]

/-- R505: a legal ADEC whose codeword holds no terminator raises DEC_OVERRUN(129). -/
theorem adecAt_of_none (h : decodeSymbols p.cum (codewordOf ws) = none) :
    adecAt p f s = .next (s.raise .decOverrun 129) := by
  refine (adecAt_of_read hread).trans ((checked_of_wellFormed hlegal s _).trans ?_)
  rw [decodedWords, h, coderEnd]
  rfl

end

end

/-! ### Stored streams and codewords -/

theorem streamWords_length (symbols : List ℤ) : (streamWords symbols).length = symbols.length + 1 := by
  rw [streamWords, List.length_cons, List.length_map]

/-- R204: a stored stream is read back as its count word and its symbols. -/
theorem reads_of_streamWords (m : Memory) (a : ℕ) (symbols : List ℤ) :
    (m.writeWords a (streamWords symbols)).readWord a = some (BitVec.ofNat 64 symbols.length) ∧
      (m.writeWords a (streamWords symbols)).readWords (a + 1) symbols.length = some (symbols.map u64) := by
  rw [← u64_natCast]
  refine ⟨Memory.readWord_writeWords m a 0 (streamWords symbols) (by simp [streamWords]), ?_⟩
  have hread := Memory.readWords_writeWords_inside m a [u64 symbols.length] (symbols.map u64) []
  rwa [List.append_nil, List.singleton_append, List.length_singleton, List.length_map] at hread

/-- R205: a stored codeword. -/
theorem holdsCodeword_store (s : State) (dst : ℕ) {cw : ℕ} (h : cw < 2 ^ 2112) :
    HoldsCodeword (s.store dst (codewordWords cw)).complete dst cw :=
  ⟨h, fun _ hk => readWord_store_complete s dst (getElem?_codewordWords cw hk)⟩

/-- Settles O18: the integers of the encoder are the midpoint of the rational interval, and 33 words hold it. -/
theorem aencResult : Obligations.AencResult := by
  refine ⟨hasOpcode (fun _ => rfl) fun _ => rfl, onlyPlainCheckFaults fun _ => rfl, fun f s n hlegal hcount =>
    ⟨aencAt_of_long (p := params) hlegal hcount, fun ws hn hread => ?_⟩⟩
  have hlen : (ws.map s64).length ≤ 129 := by rwa [List.length_map, Memory.readWords_length hread]
  have hframe := completesStoring_store s f.dst.toNat (codewordWords (encodeSymbols defaultCum (ws.map s64)))
  rw [codewordWords_length] at hframe
  exact ⟨_, _, aencAt_of_legal (p := params) hlegal hcount hn hread, hframe,
    holdsCodeword_store s f.dst.toNat (cumLegal_default.encodeSymbols_lt hlen),
    cumLegal_default.encodeSymbols_eq_midpoint hlen⟩

/-- Settles O19: the value of a codeword lies in [0, 1), so it decodes until a stop, and the loop computes that decoding. -/
theorem adecResult : Obligations.AdecResult := by
  refine ⟨hasOpcode (fun _ => rfl) fun _ => rfl, onlyPlainCheckFaults fun _ => rfl, fun f s ws hlegal hread => ?_⟩
  have hlen := Memory.readWords_length hread
  have hcw := codewordOf_lt_of_length hlen
  rw [codewordValue_eq hlen]
  refine ⟨?_, fun symbols hdecodes hgo => ⟨fun hle hend => ?_, fun heq hend => ?_⟩⟩
  · obtain ⟨symbols, hdecodes, hgo, hstops⟩ :=
      cumLegal_default.exists_decodesUntilStop (ratio_mem_unit hcw) 129 not_endsHere_nil
    exact ⟨symbols, hdecodes, hgo, hstops⟩
  · have hsome := (cumLegal_default.decodeSymbols_of_decodesUntilStop hcw ⟨hdecodes, hgo, .inl ⟨hle, hend⟩⟩).1 hend
    have hframe := completesStoring_store s f.dst.toNat (streamWords symbols)
    rw [streamWords_length] at hframe
    exact ⟨_, adecAt_of_some (p := params) hlegal hread hsome, hframe, reads_of_streamWords ..⟩
  · have hnone := (cumLegal_default.decodeSymbols_of_decodesUntilStop hcw ⟨hdecodes, hgo, .inr ⟨heq, hend⟩⟩).2 hend
    exact adecAt_of_none (p := params) hlegal hread hnone

/-! ### What the results depend on -/

section
variable {s s' t t' : State} {dst : ℕ} {o : Except (CoreFault × Word) (List Word)}

/-- R502: from two states a command with one fault or result ends alike, and so it does if a check fails, which depends only on
the command word (R310). -/
theorem checked_coderEnd_agree {p : Params} {fp : Footprint} {f : Fields}
    (h : checked p fp f s (.next (coderEnd s dst o)) = .next t)
    (h' : checked p fp f s' (.next (coderEnd s' dst o)) = .next t') :
    ∃ o', t = coderEnd s dst o' ∧ t' = coderEnd s' dst o' ∧ ∀ ws, o' = .ok ws → o = .ok ws := by
  cases hcheck : commandCheck p.dmemWords fp f with
  | some e =>
    rw [checked_of_some hcheck] at h h'
    cases h
    cases h'
    exact ⟨.error e, rfl, rfl, nofun⟩
  | none =>
    rw [checked_of_none hcheck] at h h'
    cases h
    cases h'
    exact ⟨o, rfl, rfl, fun _ => id⟩

/-- R610: with no fault recorded before, the fault record afterwards is that of the fault raised, if any. -/
theorem coderEnd_record_agree (hs : s.fault = false) (hs' : s'.fault = false) :
    (coderEnd s dst o).fault = (coderEnd s' dst o).fault ∧ ((coderEnd s dst o).fault = true →
      (coderEnd s dst o).fcode = (coderEnd s' dst o).fcode ∧ (coderEnd s dst o).finfo = (coderEnd s' dst o).finfo) := by
  match o with
  | .error (c, x) => exact ⟨rfl, fun _ => ⟨rfl, rfl⟩⟩
  | .ok ws =>
    have hfault : ((s.store dst ws).complete).fault = false := hs
    exact ⟨hs.trans hs'.symm, fun h => absurd (hfault.symm.trans h) (by decide)⟩

theorem coderEnd_of_no_fault (h : (coderEnd s dst o).fault = false) : ∃ ws, o = .ok ws := by
  match o with
  | .error (c, x) => exact absurd ((State.raise_fault s c x).symm.trans h) (by decide)
  | .ok ws => exact ⟨ws, rfl⟩

end

/-- R505: no stream that ADEC stores is longer than 129 symbols. -/
theorem decodedWords_ok {cum : List ℕ} {ws out : List Word} (h : decodedWords cum ws = .ok out) :
    ∃ symbols, symbols.length ≤ 129 ∧ out = streamWords symbols := by
  unfold decodedWords at h
  split at h
  · cases h
  · next symbols hsymbols =>
    cases h
    exact ⟨symbols, by simpa [maxSymbols] using decodeLoop_length hsymbols, rfl⟩

theorem encodedWords_ok {cum : List ℕ} {n : Word} {ws out : List Word} (h : encodedWords cum n ws = .ok out) :
    out.length = 33 := by
  unfold encodedWords at h
  split at h
  · cases h
  · cases h
    exact codewordWords_length _

/-- Settles O49: either command ends in both states with the one fault or result that its operand words determine. -/
theorem coderDependsOnlyOnOperands : Obligations.CoderDependsOnlyOnOperands := by
  intro s s' t t'
  refine ⟨fun f n ws hcount hcount' hread hread' h h' => ?_, fun f ws hread hread' h h' => ?_⟩
  · obtain ⟨o, rfl, rfl, hok⟩ := checked_coderEnd_agree (p := params)
      ((aencAt_of_reads hcount hread).symm.trans h) ((aencAt_of_reads hcount' hread').symm.trans h')
    refine ⟨coderEnd_record_agree, fun _ hno => ?_⟩
    obtain ⟨out, rfl⟩ := coderEnd_of_no_fault hno
    have hlen := encodedWords_ok (hok out rfl)
    exact (readWords_store_complete s _ hlen).trans (readWords_store_complete s' _ hlen).symm
  · obtain ⟨o, rfl, rfl, hok⟩ := checked_coderEnd_agree (p := params)
      ((adecAt_of_read hread).symm.trans h) ((adecAt_of_read hread').symm.trans h')
    refine ⟨coderEnd_record_agree, fun _ hno => ?_⟩
    obtain ⟨out, rfl⟩ := coderEnd_of_no_fault hno
    obtain ⟨symbols, hlen, rfl⟩ := decodedWords_ok (hok out rfl)
    obtain ⟨hcount, hsymbols⟩ := reads_of_streamWords s.mem f.dst.toNat symbols
    obtain ⟨hcount', hsymbols'⟩ := reads_of_streamWords s'.mem f.dst.toNat symbols
    have htoNat : (BitVec.ofNat 64 symbols.length).toNat = symbols.length := by
      rw [BitVec.toNat_ofNat, Nat.mod_eq_of_lt (by omega)]
    refine ⟨_, hcount, hcount', ?_⟩
    rw [htoNat]
    exact hsymbols.trans hsymbols'.symm

/-! ### The round trip -/

/-- R509: the codeword lies in the interval of its symbols, so it decodes to them, up to the first terminator. -/
theorem CumLegal.decodeSymbols_encodeSymbols {cum : List ℕ} (hc : CumLegal cum) {symbols : List ℤ}
    (hdomain : ∀ s ∈ symbols, -32 ≤ s ∧ s ≤ 31) (hn : symbols.length ≤ 129) (hend : EndsHere symbols)
    (hgo : ∀ k < symbols.length, ¬EndsHere (symbols.take k)) :
    decodeSymbols cum (encodeSymbols cum symbols) = some symbols := by
  obtain ⟨hlo, hhi⟩ := hc.encodeSymbols_mem hn
  have hdecodes := hc.decodesTo_of_mem hdomain hlo.le hhi
  exact (hc.decodeSymbols_of_decodesUntilStop (hc.encodeSymbols_lt hn) ⟨hdecodes, hgo, .inl ⟨hn, hend⟩⟩).1 hend

/-- A symbol word is 0 as an integer exactly when it is 0, and 1 stands in for a missing one on both sides. -/
theorem getD_map_s64_eq_zero_iff (ws : List Word) (k : ℕ) : (ws.map s64).getD k 1 = 0 ↔ ws.getD k 1 = 0 := by
  rw [show (1 : ℤ) = s64 1 from rfl, List.getD_map, s64_eq_zero_iff]

section
variable {ws : List Word} (h : RoundTripStream ws)
include h

theorem RoundTripStream.endsHere : EndsHere (ws.map s64) := by
  obtain ⟨-, h3, -, hodd, h2, h1, -⟩ := h
  rw [EndsHere, List.length_map, getD_map_s64_eq_zero_iff, getD_map_s64_eq_zero_iff]
  exact ⟨h3, hodd, h2, h1⟩

/-- R509: the test does not end the decoding before the last pair. -/
theorem RoundTripStream.not_endsHere_take (k : ℕ) (hk : k < (ws.map s64).length) : ¬EndsHere ((ws.map s64).take k) := by
  obtain ⟨-, -, -, -, -, -, hearlier⟩ := h
  rw [endsHere_take_iff hk.le, getD_map_s64_eq_zero_iff, getD_map_s64_eq_zero_iff]
  rintro ⟨h3, hodd, h2, h1⟩
  rw [List.length_map] at hk
  refine hearlier (k - 2) (by omega) (by omega) ⟨h2, ?_⟩
  rwa [show k - 2 + 1 = k - 1 by omega]

/-- R509, for the words of a stream. -/
theorem RoundTripStream.decodeSymbols_encodeSymbols {cum : List ℕ} (hc : CumLegal cum) :
    decodeSymbols cum (encodeSymbols cum (ws.map s64)) = some (ws.map s64) := by
  have hend := h.endsHere
  have hgo := h.not_endsHere_take
  obtain ⟨hdomain, -, hn, -⟩ := h
  exact hc.decodeSymbols_encodeSymbols (List.forall_mem_map.mpr hdomain) (by rwa [List.length_map]) hend hgo

end

/-- Settles O47: ADEC reads back the codeword that AENC stored, and it decodes to the symbols encoded. -/
theorem coderRoundTrip : Obligations.CoderRoundTrip := by
  intro p f g s n ws hp hf hg hsrc hcount hread hstream
  have hc := cumLegal_of_legal hp
  have hlen := Memory.readWords_length hread
  have ⟨_, _, hle, _⟩ := hstream
  set cw := encodeSymbols p.cum (ws.map s64)
  set t := (s.store f.dst.toNat (codewordWords cw)).complete
  have hcodeword : t.mem.readWords g.src.toNat 33 = some (codewordWords cw) :=
    hsrc ▸ readWords_store_complete s f.dst.toNat (codewordWords_length cw)
  have hdecode : decodeSymbols p.cum (codewordOf (codewordWords cw)) = some (ws.map s64) := by
    rw [codewordOf_codewordWords (hc.encodeSymbols_lt (by rwa [List.length_map])), hstream.decodeSymbols_encodeSymbols hc]
  refine ⟨t, _, aencAt_of_legal hf hcount (hlen ▸ hle) hread, adecAt_of_some hg hcodeword hdecode, ?_⟩
  obtain ⟨hcount', hsymbols⟩ := reads_of_streamWords t.mem g.dst.toNat (ws.map s64)
  rw [List.length_map, hlen, map_u64_map_s64] at hsymbols
  rw [List.length_map, hlen, BitVec.ofNat_toNat, BitVec.setWidth_eq] at hcount'
  exact ⟨hcount', hsymbols⟩

end Sys2Proof.Spec
end

section
/-! PROOFS. The control commands of 46_control.md: a command without operands is legal in its bare word only (R303), and then
its effect is all it does. -/

namespace Sys2Proof

/-- The fields of a word that is nothing but its opcode (R303). -/
def bareFields : Fields := ⟨0, 0, 0, 0, 0⟩

/-- R300: with every other field at 0 the word is its opcode. -/
theorem encodeFields_bareFields (op : BitVec 8) : encodeFields op bareFields = op.setWidth 64 := by
  rw [encodeFields_of_reserved_zero op rfl rfl]
  simp [bareFields]

/-- R300: a word is its opcode only when every other field is 0, since each field is read back from the word. -/
theorem encodeFields_eq_opcode_iff (op : BitVec 8) (f : Fields) :
    encodeFields op f = op.setWidth 64 ↔ f = bareFields := by
  rw [← encodeFields_bareFields op]
  constructor
  · intro h
    simpa using congrArg fieldsOf h
  · exact congrArg (encodeFields op)

end Sys2Proof

namespace Sys2Proof.Machine

/-- R303: for a command without operands RESERVED_FIELD is the condition that some field is not 0. -/
theorem reservedFieldNonzero_bare_iff (f : Fields) : ReservedFieldNonzero ⟨false, 0, 0⟩ f ↔ f ≠ bareFields := by
  obtain ⟨ch, rsv0, src, dst, rsv1⟩ := f
  simp only [bareFields, ne_eq, Fields.mk.injEq]
  tauto

/-- R303, R620: the one check that a command without operands can fail. -/
theorem commandCheck_bare (words : ℕ) (f : Fields) :
    commandCheck words ⟨false, 0, 0⟩ f = if f = bareFields then none else some (.reservedField, 0) := by
  split
  · next h => subst h; rfl
  · next h => exact commandCheck_of_reservedFieldNonzero ((reservedFieldNonzero_bare_iff f).mpr h)

end Sys2Proof.Machine

namespace Sys2Proof.Spec

open Sys2Proof.Machine

/-- The command mk is the command without operands with opcode `op` that does `effect` (R302, R540, R541). -/
structure IsBareCommand (mk : Fields → Instr) (op : BitVec 8) (effect : State → State) : Prop where
  opcode (f : Fields) : (mk f).opcode = op
  fields (f : Fields) : (mk f).fields = f
  footprint (f : Fields) : footprintOf (mk f) = ⟨false, 0, 0⟩
  exec_eq_checked (f : Fields) (s : State) : exec (mk f) s = checked params ⟨false, 0, 0⟩ f s (.next (effect s))

section
variable {mk : Fields → Instr} {op : BitVec 8} {effect : State → State} (h : IsBareCommand mk op effect)
include h

theorem IsBareCommand.encode_eq_opcode_iff (f : Fields) : encode (mk f) = op.setWidth 64 ↔ f = bareFields := by
  rw [encode, h.opcode, h.fields, encodeFields_eq_opcode_iff]

/-- R303: the bare opcode is the only legal word. -/
theorem IsBareCommand.wellFormed_iff (f : Fields) :
    (mk f).wellFormed dmemWords = true ↔ encode (mk f) = op.setWidth 64 := by
  rw [Machine.wellFormed_iff, h.footprint, h.fields, commandCheck_bare, h.encode_eq_opcode_iff]
  simp

/-- R303, R610: the bare opcode does the effect, any other word raises RESERVED_FIELD and does nothing else. -/
theorem IsBareCommand.exec_eq (f : Fields) (s : State) :
    exec (mk f) s =
      if encode (mk f) = op.setWidth 64 then .next (effect s) else .next (s.raise .reservedField 0) := by
  have hcheck := commandCheck_bare params.dmemWords f
  simp only [h.exec_eq_checked, h.encode_eq_opcode_iff]
  split
  · next hbare => exact checked_of_none (hcheck.trans (if_pos hbare))
  · next hbare => exact checked_of_some (hcheck.trans (if_neg hbare))

end

/-- R540: the effect of NOP is its completion. -/
theorem isBareCommand_nop : IsBareCommand .nop 0x00 State.complete where
  opcode _ := rfl
  fields _ := rfl
  footprint _ := rfl
  exec_eq_checked _ _ := rfl

/-- R541: the effect of PRDRST is the reset of the three predictors, and its completion. -/
theorem isBareCommand_prdrst :
    IsBareCommand .prdrst 0x0D fun s => (((s.setPred 0 0).setPred 1 0).setPred 2 0).complete where
  opcode _ := rfl
  fields _ := rfl
  footprint _ := rfl
  exec_eq_checked _ _ := rfl

/-- Settles O20: NOP is the command without operands whose effect is completion alone. -/
theorem nopResult : Obligations.NopResult :=
  have h := isBareCommand_nop
  ⟨hasOpcode h.opcode h.fields, h.wellFormed_iff, h.exec_eq⟩

/-- Settles O21: PRDRST is the command without operands whose effect is the reset of the predictors and completion. -/
theorem prdrstResult : Obligations.PrdrstResult :=
  have h := isBareCommand_prdrst
  ⟨hasOpcode h.opcode h.fields, h.wellFormed_iff, h.exec_eq⟩

end Sys2Proof.Spec
end

section
/-! PROOFS. How a command ends and how the next one begins (60_exceptions.md): a fault record or a completion (R610, R611), the
interrupt output (R640), and the issue of a CMD write (R650). -/

namespace Sys2Proof.Machine

open Sys2Proof.Spec

/-! ### The end of a command -/

/-- R601: the fault codes are 1 .. 9. -/
theorem CoreFault.code_mem_range (c : CoreFault) : 1 ≤ c.code.toNat ∧ c.code.toNat ≤ 9 := by
  cases c <;> decide

/-- From s to u nothing but DMEM and the predictors has changed. -/
def OnlyDmemAndPred (s u : State) : Prop :=
  u = { s with mem := u.mem, pred0 := u.pred0, pred1 := u.pred1, pred2 := u.pred2 }

theorem OnlyDmemAndPred.refl (s : State) : OnlyDmemAndPred s s := rfl

theorem onlyDmemAndPred_store (s : State) (dst : ℕ) (ws : List Word) : OnlyDmemAndPred s (s.store dst ws) := rfl

section
variable {s u : State}

theorem OnlyDmemAndPred.setPred (h : OnlyDmemAndPred s u) (c : Channel) (w : Word) : OnlyDmemAndPred s (u.setPred c w) := by
  rw [OnlyDmemAndPred, State.setPred_mem]
  exact (State.setPred_eq u c w).trans (by rw [h])

/-- R611: completion after a change of DMEM and the predictors changes them, DONE and BUSY. -/
theorem OnlyDmemAndPred.complete_eq (h : OnlyDmemAndPred s u) :
    u.complete = { s with
      mem := u.complete.mem, pred0 := u.complete.pred0, pred1 := u.complete.pred1, pred2 := u.complete.pred2,
      done := true, busy := false } :=
  congrArg State.complete h

end

/-- R610, R611: a command that ends, ends in the raise of a fault or in the completion of a change of DMEM and PRED. -/
theorem exec_raises_or_completes {i : Instr} {s t : State} (h : exec i s = .next t) :
    (∃ c x, t = s.raise c x) ∨ ∃ u, OnlyDmemAndPred s u ∧ t = u.complete := by
  rcases exec_cases h with ⟨c, x, -, ht⟩ | ⟨-, ⟨c, x, -, ht⟩ | ⟨-, ws, -, hstore⟩ | ⟨-, -, ht⟩ | ⟨-, -, ht⟩⟩
  · exact .inl ⟨c, x, ht⟩
  · exact .inl ⟨c, x, ht⟩
  · have hu := onlyDmemAndPred_store s i.fields.dst.toNat ws
    rcases hstore with ⟨-, ht⟩ | ⟨-, c, w, -, ht⟩
    · exact .inr ⟨_, hu, ht⟩
    · exact .inr ⟨_, hu.setPred c w, ht⟩
  · exact .inr ⟨s, .refl s, ht⟩
  · exact .inr ⟨_, (((OnlyDmemAndPred.refl s).setPred 0 0).setPred 1 0).setPred 2 0, ht⟩

/-! ### The interrupt output -/

/-- R640: with neither DONE nor FAULT there is no interrupt, whatever CTRL enables. -/
theorem State.irq_of_no_flag {s : State} (hdone : s.done = false) (hfault : s.fault = false) : s.irq = false := by
  simp [State.irq, hdone, hfault]

/-- R640: with both causes masked there is no interrupt, whatever STATUS holds. -/
theorem State.irq_of_masked {s : State} (hdone : s.ieDone = false) (hfault : s.ieFault = false) : s.irq = false := by
  simp [State.irq, hdone, hfault]

/-! ### The issue of a command -/

/-- R650: a CMD write takes effect as an issue. -/
theorem State.perform_writeCmd (s : State) (w : Word) : s.perform params (writeAt 0x08 w) = s.issue w := by
  rw [State.perform, HostAccess.reg_of_address rfl]
  rfl

/-- R230: at a free core the oldest held access takes effect next. -/
theorem step_of_held {s : State} {a : HostAccess} {later : List HostAccess} (hfree : s.busy = false)
    (hheld : s.bus.held = a :: later) : step s = .next ((s.setHeld later).drain params a) := by
  unfold step State.advance
  simp [hfree, hheld]

section
variable {s : State} {w : Word}

/-- R650: a CMD write whose turn comes while FAULT = 1 is dropped, and LOST is set. -/
theorem State.drain_writeCmd_of_fault (hfree : s.busy = false) (hfault : s.fault = true) :
    s.drain params (writeAt 0x08 w) = { s with lost := true } := by
  rw [State.drain, State.perform_writeCmd, State.issue_of_fault w hfault]
  exact if_neg (by simp [hfree])

/-- R650: a CMD write whose turn comes with no fault recorded issues its word; the next arrival counts from it (log 8). -/
theorem State.drain_writeCmd_of_noFault (hfault : s.fault = false) :
    s.drain params (writeAt 0x08 w) =
      ({ s with inflight := w, done := false, busy := true } : State).setArrivals (oneDone s.bus.arrivals) := by
  rw [State.drain, State.perform_writeCmd, State.issue_of_noFault w hfault]
  exact if_pos rfl

/-- R304, R650: the word in flight, when nothing overlaps it, is executed in the next step, or it is no command and raises
ILLEGAL_OPCODE. -/
theorem step_runs_inflight (hbusy : s.busy = true) (halone : NothingOverlaps s) :
    (∀ i, decode s.inflight = .ok i → step s = exec i s) ∧
      ∀ e, decode s.inflight = .error e → step s = .next (s.raise .illegalOpcode 0) := by
  rw [step_inflight hbusy halone, State.runInflight]
  refine ⟨fun i hi => ?_, fun e he => ?_⟩
  · rw [hi]
  · rw [he]

end

end Sys2Proof.Machine

namespace Sys2Proof.Spec

open Sys2Proof.Machine

/-- Settles O22: both ways to end are record updates that the statement writes out. -/
theorem faultOrCompletion : Obligations.FaultOrCompletion := by
  intro i s t h
  rcases exec_raises_or_completes h with ⟨c, x, rfl⟩ | ⟨u, hu, rfl⟩
  · obtain ⟨hlow, hhigh⟩ := c.code_mem_range
    exact .inl ⟨c, x, hlow, hhigh, rfl⟩
  · exact .inr hu.complete_eq

/-- Settles O27: CMD waits while BUSY = 1; on arrival and from the held accesses alike the write is an issue, and the word it
puts in flight runs next. -/
theorem cmdWriteIssues : Obligations.CmdWriteIssues := by
  have hlegal : LegalOffset 0x08 := ⟨rfl, by decide⟩
  refine fun s w => ⟨fun later hbusy h => ?_, fun later hfree h => ?_, fun later hfree hheld => ?_⟩
  · exact step_heldAt (.inr ⟨w, rfl⟩) h hlegal (r := .cmd) rfl hbusy rfl
  · have hstep : step s = .next ((s.setArrivals later).issue w) := step_writeAt h hlegal (r := .cmd) rfl (.inl hfree)
    refine ⟨fun hfault => ?_, fun hfault => ?_⟩
    · exact hstep.trans (congrArg _ (State.issue_of_fault (s := s.setArrivals later) w hfault))
    · rw [State.issue_of_noFault (s := s.setArrivals later) w hfault] at hstep
      exact ⟨_, hstep, rfl, step_runs_inflight rfl⟩
  · have hstep := step_of_held hfree hheld
    refine ⟨fun hfault => ?_, fun hfault => ?_⟩
    · exact hstep.trans (congrArg _ (State.drain_writeCmd_of_fault (s := s.setHeld later) hfree hfault))
    · rw [State.drain_writeCmd_of_noFault (s := s.setHeld later) hfault] at hstep
      exact ⟨_, hstep, ⟨rfl, oneDone_input s.bus.arrivals⟩, step_runs_inflight rfl⟩

/-- Settles O32: a STATUS write of bits 1 and 2 and an issue leave no flag, a CTRL write of 0 masks both causes. -/
theorem irqIsLevelOfFlags : Obligations.IrqIsLevelOfFlags := by
  refine ⟨fun s => ?_, fun s w hdone hfault => ?_, fun s => ?_, fun s w hfault => ?_⟩
  · simp [State.irq]
  · exact State.irq_of_no_flag (by simp [hdone]) (by simp [hfault])
  · exact State.irq_of_masked rfl rfl
  · exact State.irq_of_no_flag (by rw [State.issue_of_noFault w hfault]) (by rw [State.issue_fault, hfault])

end Sys2Proof.Spec
end

section
/-! PROOFS. The decoder and the encoder as inverses of each other (R300, R304, R313), and the rows of the opcode table as the
words that break neither R303 nor R304 (30_encoding.md section 5). -/

namespace Sys2Proof

open Sys2Proof.Machine Sys2Proof.Laws.EncodedFields

/-! ### Words and their fields -/

/-- R300: a word is made up of its OP field and its other fields. -/
theorem encodeFields_opcodeField_fieldsOf (w : Word) : encodeFields (opcodeField w) (fieldsOf w) = w := by
  have join (a b c : ℕ) : w.extractLsb' (a + b) c ++ w.extractLsb' a b = w.extractLsb' a (c + b) :=
    BitVec.extractLsb'_append_extractLsb'_eq_extractLsb' rfl
  unfold encodeFields opcodeField fieldsOf
  rw [join 32 16 16, join 16 16 32, join 10 6 48, join 8 2 54, join 0 8 56]
  exact BitVec.extractLsb'_eq_self

/-- R300: OP and the other fields tell one word from another. -/
theorem word_ext_iff {w w' : Word} : w = w' ↔ opcodeField w = opcodeField w' ∧ fieldsOf w = fieldsOf w' := by
  refine ⟨fun h => by rw [h]; exact ⟨rfl, rfl⟩, fun ⟨hop, hfields⟩ => ?_⟩
  rw [← encodeFields_opcodeField_fieldsOf w, hop, hfields, encodeFields_opcodeField_fieldsOf]

@[simp] theorem opcodeField_encodeFields (op : BitVec 8) (f : Fields) : opcodeField (encodeFields op f) = op := by
  rw [opcodeField, encodeFields]
  exact BitVec.extractLsb'_append_eq_right

/-- R302: the decoder keeps every field beside OP. -/
theorem fieldsOf_of_decode {w : Word} {i : Instr} (h : decode w = .ok i) : fieldsOf w = i.fields := by
  unfold decode at h
  split at h
  case h_15 => cases h
  all_goals
    cases h
    rfl

theorem encode_of_decode {w : Word} {i : Instr} (h : decode w = .ok i) : encode i = w := by
  rw [encode, ← opcodeField_of_decode h, ← fieldsOf_of_decode h, encodeFields_opcodeField_fieldsOf]

/-- R304: the words that are no commands. -/
theorem decode_error_iff {w : Word} : (∃ e, decode w = .error e) ↔ 0x0E ≤ (opcodeField w).toNat := by
  refine ⟨fun ⟨e, he⟩ => ?_, fun h => ⟨_, decode_of_illegal_opcode h⟩⟩
  unfold decode at he
  split at he
  case h_15 =>
    simp only [imp_false] at *
    omega
  all_goals cases he

theorem opcode_lt (i : Instr) : i.opcode.toNat < 0x0E := by
  cases i <;> simp [Instr.opcode]

/-! ### Masked words -/

/-- Field by field, the bits that two words share. -/
def Fields.and (f g : Fields) : Fields :=
  ⟨f.ch &&& g.ch, f.rsv0 &&& g.rsv0, f.src &&& g.src, f.dst &&& g.dst, f.rsv1 &&& g.rsv1⟩

theorem fieldsOf_and (w w' : Word) : fieldsOf (w &&& w') = (fieldsOf w).and (fieldsOf w') := by
  simp only [fieldsOf, Fields.and, BitVec.extractLsb'_and]

theorem opcodeField_and (w w' : Word) : opcodeField (w &&& w') = opcodeField w &&& opcodeField w' :=
  BitVec.extractLsb'_and

/-- A mask of all the bits of a field, or of none. -/
def fieldMask (all : Bool) (n : ℕ) : BitVec n := bif all then BitVec.allOnes n else 0

theorem and_fieldMask_eq_zero_iff {all : Bool} {n : ℕ} {x : BitVec n} : x &&& fieldMask all n = 0 ↔ (all = true → x = 0) := by
  cases all <;> simp [fieldMask]

/-- The fields that must be 0 in a command with footprint fp (R303). -/
def reservedMask (fp : Footprint) : Fields :=
  ⟨fieldMask (!fp.usesCh) 2, fieldMask true 6, fieldMask (fp.srcLen == 0) 16, fieldMask (fp.dstLen == 0) 16, fieldMask true 16⟩

/-- R303: a command has no other field than those it uses. -/
theorem and_reservedMask_eq_bareFields_iff (fp : Footprint) (f : Fields) :
    f.and (reservedMask fp) = bareFields ↔ ¬ReservedFieldNonzero fp f := by
  simp only [Fields.and, reservedMask, bareFields, Fields.mk.injEq, and_fieldMask_eq_zero_iff, Bool.not_eq_true', beq_iff_eq]
  tauto

/-- The match and the mask of the opcode table for a command: OP, and the fields that it does not use. -/
def tableRowOf (i : Instr) : Word × Word :=
  (encodeFields i.opcode bareFields, encodeFields (BitVec.allOnes 8) (reservedMask (footprintOf i)))

/-- 30_encoding.md section 5: a word matches the row of a command when it has its OP field and keeps R303. -/
theorem matches_tableRowOf_iff (w : Word) (i : Instr) :
    w &&& (tableRowOf i).2 = (tableRowOf i).1 ↔
      opcodeField w = i.opcode ∧ ¬ReservedFieldNonzero (footprintOf i) (fieldsOf w) := by
  have hop : opcodeField (w &&& (tableRowOf i).2) = opcodeField w := by
    rw [opcodeField_and, tableRowOf, opcodeField_encodeFields, BitVec.and_allOnes]
  have hfields : fieldsOf (w &&& (tableRowOf i).2) = (fieldsOf w).and (reservedMask (footprintOf i)) := by
    rw [fieldsOf_and, tableRowOf, fieldsOf_encodeFields]
  rw [word_ext_iff, hop, hfields, tableRowOf, opcodeField_encodeFields, fieldsOf_encodeFields,
    and_reservedMask_eq_bareFields_iff]

end Sys2Proof

namespace Sys2Proof.Spec

open Sys2Proof.Machine

/-! ### The opcode table -/

/-- The rows of the opcode table are those of the 14 commands, in the order of their opcodes. -/
theorem tableRows_eq_map : tableRows =
    [Instr.nop, .ccfwd, .ccinv, .dctf, .dcti, .qdiv, .qmul, .zzscan, .zzunscan, .rlpack, .rlunpack, .aenc, .adec,
      .prdrst].map fun mk => tableRowOf (mk bareFields) := rfl

theorem getElem?_tableRows (i : Instr) : tableRows[i.opcode.toNat]? = some (tableRowOf i) := by
  rw [tableRows_eq_map]
  cases i <;> rfl

/-- 30_encoding.md section 5: a word matches a row when it is a command that keeps R303. -/
theorem matches_row_iff (w : Word) :
    (∃ row ∈ tableRows, w &&& row.2 = row.1) ↔
      ∃ i, decode w = .ok i ∧ ¬ReservedFieldNonzero (footprintOf i) i.fields := by
  constructor
  · rintro ⟨row, hrow, hmatch⟩
    rw [tableRows_eq_map] at hrow
    obtain ⟨mk, -, rfl⟩ := List.mem_map.mp hrow
    have hop := ((matches_tableRowOf_iff w _).mp hmatch).1
    cases hdecode : decode w with
    | error e =>
      have hillegal := decode_error_iff.mp ⟨e, hdecode⟩
      rw [hop] at hillegal
      exact absurd (opcode_lt _) (not_lt.mpr hillegal)
    | ok i =>
      have hsame : tableRowOf (mk bareFields) = tableRowOf i := by
        rw [← Option.some_inj, ← getElem?_tableRows, ← getElem?_tableRows, ← hop, opcodeField_of_decode hdecode]
      rw [hsame, matches_tableRowOf_iff, fieldsOf_of_decode hdecode] at hmatch
      exact ⟨i, rfl, hmatch.2⟩
  · rintro ⟨i, hdecode, hkeeps⟩
    refine ⟨tableRowOf i, List.mem_of_getElem? (getElem?_tableRows i), ?_⟩
    rw [matches_tableRowOf_iff, fieldsOf_of_decode hdecode]
    exact ⟨opcodeField_of_decode hdecode, hkeeps⟩

/-! ### Which commands raise RESERVED_FIELD -/

/-- R303: only a field that breaks R303 fails the check for reserved fields. -/
theorem reservedFieldNonzero_of_commandCheck {words : ℕ} {fp : Footprint} {f : Fields} {x : Word}
    (h : commandCheck words fp f = some (.reservedField, x)) : ReservedFieldNonzero fp f := by
  by_contra hkeeps
  rw [commandCheck, if_neg hkeeps] at h
  split_ifs at h <;> cases h

/-- R601: the record tells one fault from another. -/
theorem raise_inj {s : State} {c c' : CoreFault} {x x' : Word} (h : s.raise c x = s.raise c' x') : c = c' := by
  have hcode : c.code = c'.code := congrArg State.fcode h
  revert hcode
  cases c <;> cases c' <;> decide

/-- R611: a command that stores its results leaves the fault record as it was. -/
theorem Stores.fault_eq {i : Instr} {s t : State} {ws : List Word} (h : Stores i s t ws) : t.fault = s.fault := by
  obtain ⟨-, ⟨-, rfl⟩ | ⟨-, c, w, -, rfl⟩⟩ := h <;> simp

/-- R304, R313: a command never raises ILLEGAL_OPCODE; R303: it raises RESERVED_FIELD only where a field breaks R303. -/
theorem reservedFieldNonzero_of_exec_raise {i : Instr} {s : State} {c : CoreFault} {x : Word} (hfault : s.fault = false)
    (hc : c = .illegalOpcode ∨ c = .reservedField) (h : exec i s = .next (s.raise c x)) :
    ReservedFieldNonzero (footprintOf i) i.fields := by
  have hcompletes {t : State} (ht : s.raise c x = t) (hkeeps : t.fault = s.fault) : False := by
    rw [← ht, State.raise_fault, hfault] at hkeeps
    cases hkeeps
  rcases exec_cases h with ⟨c', x', hcheck, ht⟩ | ⟨-, ⟨c', x', hdata, ht⟩ | ⟨-, ws, hstore⟩ | ⟨-, -, ht⟩ | ⟨-, -, ht⟩⟩
  · obtain rfl := raise_inj ht
    rcases hc with rfl | rfl
    · rcases commandCheck_some hcheck with ⟨h, -⟩ | ⟨h, -⟩ | ⟨h, -⟩ <;> cases h
    · exact reservedFieldNonzero_of_commandCheck hcheck
  · obtain rfl := raise_inj ht
    rcases hc with rfl | rfl <;> simp at hdata
  · exact (hcompletes rfl (Stores.fault_eq hstore)).elim
  · exact (hcompletes ht rfl).elim
  · exact (hcompletes ht (by simp)).elim

/-- Settles O1: OP selects the command, and every field is read back from the word. -/
theorem decodeOfEncodeIsSame : Obligations.DecodeOfEncodeIsSame := decode_encode

/-- Settles O2: a decoded command keeps OP and every field of the word; the opcode map has a row for OP below 0x0E. -/
theorem encodeOfDecodeIsSame : Obligations.EncodeOfDecodeIsSame :=
  ⟨fun _ _ => encode_of_decode, fun _ => decode_error_iff⟩

/-- Settles O4: each printed word is the encoded word of its line. -/
theorem sampleWordsDecode : Obligations.SampleWordsDecode :=
  ⟨decode_encode (.nop ⟨0, 0, 0, 0, 0⟩), decode_encode (.ccfwd ⟨0, 0, 0, 1000, 0⟩),
    decode_encode (.ccinv ⟨0, 0, 1024, 1024, 0⟩), decode_encode (.dctf ⟨0, 0, 1000, 256, 0⟩),
    decode_encode (.dcti ⟨0, 0, 256, 2000, 0⟩), decode_encode (.qdiv ⟨0, 0, 256, 256, 0⟩),
    decode_encode (.zzunscan ⟨0, 0, 256, 256, 0⟩), decode_encode (.rlpack ⟨1, 0, 256, 256, 0⟩),
    decode_encode (.rlunpack ⟨2, 0, 256, 256, 0⟩), decode_encode (.aenc ⟨0, 0, 256, 545, 0⟩),
    decode_encode (.adec ⟨0, 0, 578, 256, 0⟩), decode_encode (.prdrst ⟨0, 0, 0, 0, 0⟩)⟩

/-- Settles O5: a word that matches no row does not decode, and raises ILLEGAL_OPCODE, or breaks R303, and raises
RESERVED_FIELD; a command that keeps R303 raises neither. -/
theorem tableRowsAreTheUnreservedWords : Obligations.TableRowsAreTheUnreservedWords := by
  intro s hbusy hfault halone
  obtain ⟨hruns, hillegal⟩ := step_runs_inflight hbusy halone
  rw [matches_row_iff]
  constructor
  · rintro ⟨i, hdecode, hkeeps⟩
    rw [hruns i hdecode]
    exact ⟨fun h => hkeeps (reservedFieldNonzero_of_exec_raise hfault (.inl rfl) h),
      fun h => hkeeps (reservedFieldNonzero_of_exec_raise hfault (.inr rfl) h)⟩
  · rintro ⟨hnotIllegal, hnotReserved⟩
    cases hdecode : decode s.inflight with
    | error e => exact absurd (hillegal e hdecode) hnotIllegal
    | ok i =>
      rw [hruns i hdecode] at hnotReserved
      exact ⟨i, rfl, fun hr => hnotReserved (exec_of_check (commandCheck_of_reservedFieldNonzero hr))⟩

end Sys2Proof.Spec
end

section
/-! PROOFS. The frame of every command: where it stores (R232), which predictors it touches (10_state.md section 2), and where a
read of an unwritten word stops it (R141, R311). -/

namespace Sys2Proof.Machine

open Sys2Proof.Spec

/-! ### Stores -/

/-- R302, R310, R610, R611: a command that ends leaves DMEM alone, or stores words in its destination footprint, which lies in
DMEM. -/
theorem exec_mem_cases {i : Instr} {s t : State} (h : exec i s = .next t) :
    t.mem = s.mem ∨ ∃ ws, t.mem = s.mem.writeWords i.fields.dst.toNat ws ∧ ws.length ≤ (footprintOf i).dstLen ∧
      i.fields.dst.toNat + (footprintOf i).dstLen ≤ params.dmemWords := by
  rcases exec_cases h with
    ⟨c, x, -, rfl⟩ | ⟨hcheck, ⟨c, x, -, rfl⟩ | ⟨hpos, ws, hlen, hstore⟩ | ⟨-, -, rfl⟩ | ⟨-, -, rfl⟩⟩
  · exact .inl rfl
  · exact .inl rfl
  · obtain ⟨-, -, -, -, -, -, -, hdst⟩ := commandCheck_none hcheck
    refine .inr ⟨ws, ?_, hlen, hdst hpos⟩
    rcases hstore with ⟨-, rfl⟩ | ⟨-, c, w, -, rfl⟩ <;> simp
  · exact .inl rfl
  · exact .inl (by simp)

/-! ### Predictors -/

/-- R302: the packer and the unpacker are the commands that use CH. -/
theorem usesCh_iff (i : Instr) : (footprintOf i).usesCh = true ↔ (∃ f, i = .rlpack f) ∨ ∃ f, i = .rlunpack f := by
  cases i <;> simp [footprintOf]

/-- R104: the channel that CH names has the number in CH. -/
theorem toNat_of_channelOf {ch : BitVec 2} {c : Channel} (h : channelOf ch = some c) : ch.toNat = c.val := by
  revert ch c
  decide

/-- The same answer, with f applied to the next state. -/
def mapNext (f : State → State) : Result → Result
  | .next t => .next (f t)
  | .fault r => .fault r
  | .refused r => .refused r

section
variable (s : State) (d : Channel) (v : Word)

theorem State.raise_setPred (c : CoreFault) (x : Word) : (s.setPred d v).raise c x = (s.raise c x).setPred d v := by
  fin_cases d <;> rfl

theorem State.complete_setPred : (s.setPred d v).complete = s.complete.setPred d v := by
  fin_cases d <;> rfl

theorem State.store_setPred (dst : ℕ) (ws : List Word) : (s.setPred d v).store dst ws = (s.store dst ws).setPred d v := by
  fin_cases d <;> rfl

variable {s d v}

/-- R310: the check phase reads no predictor. -/
theorem checked_setPred {p : Params} {fp : Footprint} {f : Fields} {body body' : Result}
    (h : body' = mapNext (·.setPred d v) body) :
    checked p fp f (s.setPred d v) body' = mapNext (·.setPred d v) (checked p fp f s body) := by
  cases hcheck : commandCheck p.dmemWords fp f with
  | none => rw [checked_of_none hcheck, checked_of_none hcheck, h]
  | some e => rw [checked_of_some hcheck, checked_of_some hcheck, State.raise_setPred, mapNext]

/-- R311: the read phase reads no predictor. -/
theorem withWords_setPred {a count : ℕ} {body body' : List Word → Result}
    (h : ∀ ws, body' ws = mapNext (·.setPred d v) (body ws)) :
    withWords (s.setPred d v) a count body' = mapNext (·.setPred d v) (withWords s a count body) := by
  unfold withWords
  rw [State.setPred_mem]
  split
  · exact h _
  · rfl

/-- R311: reading a stream reads no predictor. -/
theorem withStream_setPred {a least : ℕ} {body body' : Word → List Word → Result}
    (h : ∀ n ws, body' n ws = mapNext (·.setPred d v) (body n ws)) :
    withStream (s.setPred d v) a least body' = mapNext (·.setPred d v) (withStream s a least body) := by
  refine withWords_setPred fun head => ?_
  unfold withSymbols
  split
  · rw [State.raise_setPred, mapNext]
  · exact withWords_setPred (h _)

/-- R611: storing results and completing touches no predictor. -/
theorem store_complete_setPred (dst : ℕ) (ws : List Word) :
    (.next ((s.setPred d v).store dst ws).complete : Result) =
      mapNext (·.setPred d v) (.next (s.store dst ws).complete) := by
  rw [State.store_setPred, State.complete_setPred, mapNext]

theorem wholeCommand_setPred {p : Params} {len : ℕ} {f : Fields} {g : List Word → List Word} :
    wholeCommand p len f (s.setPred d v) g = mapNext (·.setPred d v) (wholeCommand p len f s g) :=
  checked_setPred (withWords_setPred fun ws => store_complete_setPred f.dst.toNat (g ws))

/-- 10_state.md section 2: but for RLPACK, RLUNPACK and PRDRST, a predictor set before a command is the predictor set after it. -/
theorem exec_setPred {i : Instr} (hpack : ∀ f, i ≠ .rlpack f) (hunpack : ∀ f, i ≠ .rlunpack f) (hreset : ∀ f, i ≠ .prdrst f) :
    exec i (s.setPred d v) = mapNext (·.setPred d v) (exec i s) := by
  cases i with
  | nop f => exact checked_setPred (by rw [State.complete_setPred, mapNext])
  | rlpack f => exact absurd rfl (hpack f)
  | rlunpack f => exact absurd rfl (hunpack f)
  | prdrst f => exact absurd rfl (hreset f)
  | aenc f => exact checked_setPred (withStream_setPred fun n ws => store_complete_setPred ..)
  | adec f =>
    refine checked_setPred (withWords_setPred fun ws => ?_)
    split
    · rw [State.raise_setPred, mapNext]
    · exact store_complete_setPred ..
  | _ => exact wholeCommand_setPred

end

/-! ### Unwritten words -/

/-- The answer is a stop at an unwritten word of the words lo .. hi − 1 (R141; log 2, log 16). -/
def StopsIn (s : State) (lo hi : ℕ) (r : Result) : Prop :=
  ∃ a, r = .fault (.unwrittenDmem a) ∧ lo ≤ a ∧ a < hi ∧ s.mem.readWord a = none

section
variable {m : Memory} (hsorted : m.Pairwise fun c d => c.1 < d.1)
include hsorted

/-- In a memory with rising keys the cells of a range are those of its two parts, one after the other. -/
theorem Memory.between_split {lo mid hi : ℕ} (hlo : lo ≤ mid) (hhi : mid ≤ hi) :
    m.between lo hi = m.between lo mid ++ m.between mid hi := by
  induction m with
  | nil => rfl
  | cons c m ih =>
    obtain ⟨hfirst, hrest⟩ := List.pairwise_cons.mp hsorted
    by_cases hc : c.1 < mid
    · have hsplit := ih hrest
      have hin : c.1 < hi := by omega
      simp only [Memory.between] at hsplit ⊢
      simp only [List.filter_cons, hsplit, hc, hin, not_le.mpr hc, decide_true, decide_false, Bool.and_true]
      split <;> rfl
    · have hkeys : ∀ e ∈ c :: m, mid ≤ e.1 := fun e he => by
        rcases List.mem_cons.mp he with rfl | he
        · omega
        · exact (not_lt.mp hc).trans (hfirst e he).le
      have hnone : Memory.between (c :: m) lo mid = [] := by
        rw [Memory.between, List.filter_eq_nil_iff]
        intro e he
        have := hkeys e he
        simp; omega
      rw [hnone, List.nil_append]
      refine List.filter_congr fun e he => ?_
      have := hkeys e he
      simp [this, hlo.trans this]

omit hsorted in
/-- R141: words are read when all their cells are there. -/
theorem Memory.readWords_ne_none_iff {a count : ℕ} : m.readWords a count ≠ none ↔
    (m.between (8 * a) (8 * (a + count))).map Prod.fst = List.range' (8 * a) (8 * count) := by
  rw [Memory.readWords]
  split <;> simp_all

/-- R141: words and the word after them are read together if they are read apart. -/
theorem Memory.readWords_succ_ne_none {a count : ℕ} (hwords : m.readWords a count ≠ none)
    (hword : m.readWords (a + count) 1 ≠ none) : m.readWords a (count + 1) ≠ none := by
  rw [Memory.readWords_ne_none_iff] at hwords hword ⊢
  have hend : 8 * (a + count) = 8 * a + 8 * count := by ring
  rw [Memory.between_split hsorted (mid := 8 * (a + count)) (by omega) (by omega), List.map_append, hwords, ← add_assoc a,
    hword, hend, List.range'_append_1, mul_add]

/-- R141: a read that stops has an unwritten word. -/
theorem Memory.exists_unwritten {a count : ℕ} (h : m.readWords a count = none) :
    ∃ k < count, m.readWords (a + k) 1 = none := by
  by_contra hall
  push Not at hall
  induction count with
  | zero => simp at h
  | succ count ih =>
    have hwords : m.readWords a count ≠ none := fun hnone => ih hnone fun k hk => hall k (by omega)
    exact Memory.readWords_succ_ne_none hsorted hwords (hall count (by omega)) h

/-- R141, log 16: the word that a stopped read names is an unwritten one. -/
theorem Memory.firstUnwritten_spec {a count : ℕ} (h : m.readWords a count = none) :
    a ≤ m.firstUnwritten a count ∧ m.firstUnwritten a count < a + count ∧ m.readWord (m.firstUnwritten a count) = none := by
  obtain ⟨k, hk, hnone⟩ := Memory.exists_unwritten hsorted h
  unfold Memory.firstUnwritten
  split
  · next j hj =>
    have hfound := List.find?_some hj
    have hmem := List.mem_range.mp (List.mem_of_find?_eq_some hj)
    rw [Option.isNone_iff_eq_none] at hfound
    exact ⟨by omega, by omega, by rw [Memory.readWord, hfound]; rfl⟩
  · next hnot =>
    have hread := List.find?_eq_none.mp hnot k (List.mem_range.mpr hk)
    simp [hnone] at hread

end

section
variable {s : State} (hsorted : s.mem.Pairwise fun c d => c.1 < d.1)
include hsorted

theorem withWords_stopsIn {a count : ℕ} {body : List Word → Result} (h : s.mem.readWords a count = none) :
    StopsIn s a (a + count) (withWords s a count body) :=
  ⟨_, withWords_of_none h, Memory.firstUnwritten_spec hsorted h⟩

/-- R311: a stream whose count word is not written is not read. -/
theorem withStream_stopsIn_count {a least : ℕ} {body : Word → List Word → Result} (h : s.mem.readWord a = none) :
    StopsIn s a (a + 1) (withStream s a least body) := by
  refine withWords_stopsIn hsorted ?_
  cases hread : s.mem.readWords a 1 with
  | none => rfl
  | some ws =>
    obtain ⟨w, rfl⟩ := List.length_eq_one_iff.mp (Memory.readWords_length hread)
    simp [Memory.readWord, hread] at h

/-- R311: once the count is in bounds, its symbols are read. -/
theorem withStream_stopsIn_symbols {a least : ℕ} {body : Word → List Word → Result} {n : Word}
    (hcount : s.mem.readWord a = some n) (hlow : least ≤ n.toNat) (hhigh : n.toNat ≤ 129)
    (h : s.mem.readWords (a + 1) n.toNat = none) : StopsIn s (a + 1) (a + 1 + n.toNat) (withStream s a least body) := by
  rw [withStream, withWords_of_some (Memory.readWords_one hcount)]
  change StopsIn s _ _ (withSymbols s (a + 1) least n (body n))
  rw [withSymbols, if_neg (by unfold maxSymbols; omega)]
  exact withWords_stopsIn hsorted h

end

/-- R311: a legal command with operands that are no stream is its read of the whole source footprint. -/
theorem exec_eq_withWords {i : Instr} (s : State) (hunpack : ∀ f, i ≠ .rlunpack f) (haenc : ∀ f, i ≠ .aenc f)
    (hcheck : commandCheck params.dmemWords (footprintOf i) i.fields = none) (hsrc : (footprintOf i).srcLen ≠ 0) :
    ∃ body, exec i s = withWords s i.fields.src.toNat (footprintOf i).srcLen body := by
  cases i with
  | nop f => exact absurd rfl hsrc
  | prdrst f => exact absurd rfl hsrc
  | rlunpack f => exact absurd rfl (hunpack f)
  | aenc f => exact absurd rfl (haenc f)
  | rlpack f =>
    obtain ⟨-, -, -, -, -, hch, -⟩ := commandCheck_none hcheck
    obtain ⟨c, hc⟩ := channelOf_isSome (hch rfl)
    exact ⟨_, (checked_of_none hcheck).trans (withChannel_of_some hc)⟩
  | _ => exact ⟨_, checked_of_none hcheck⟩

/-- R485, R503: a legal RLUNPACK or AENC is its read of a stream from SRC. -/
theorem exec_eq_withStream {i : Instr} (s : State) (hi : ∃ f, i = .rlunpack f ∨ i = .aenc f)
    (hcheck : commandCheck params.dmemWords (footprintOf i) i.fields = none) :
    ∃ least body, least ≤ 1 ∧ exec i s = withStream s i.fields.src.toNat least body := by
  obtain ⟨f, rfl | rfl⟩ := hi
  · obtain ⟨-, -, -, -, -, hch, -⟩ := commandCheck_none hcheck
    obtain ⟨c, hc⟩ := channelOf_isSome (hch rfl)
    exact ⟨1, _, le_rfl, (checked_of_none hcheck).trans (withChannel_of_some hc)⟩
  · exact ⟨0, _, zero_le_one, checked_of_none hcheck⟩

end Sys2Proof.Machine

namespace Sys2Proof.Spec

open Sys2Proof.Machine

/-- Settles O23: a store changes only the bytes of the words stored, and these lie in the destination footprint. -/
theorem storesStayInDestination : Obligations.StoresStayInDestination := by
  intro i s t h key hkey
  rw [opcodeRow_eq_footprintOf] at hkey
  rcases exec_mem_cases h with hmem | ⟨ws, hmem, hlen, -⟩
  · rw [hmem]
  · rw [hmem]
    exact Memory.readByte_writeWords_outside s.mem _ ws key (by dsimp only at hkey; omega)

/-- Settles O24: only a store with a channel and PRDRST set predictors; in every other command the predictors go through
unread. -/
theorem predictorsOnlyByPackers : Obligations.PredictorsOnlyByPackers := by
  refine ⟨fun i s t c h hchanged => ?_, fun i s t c w hpack hunpack hreset h => ?_⟩
  · rcases exec_cases h with
      ⟨k, x, -, rfl⟩ | ⟨-, ⟨k, x, -, rfl⟩ | ⟨-, ws, -, hstore⟩ | ⟨f, -, rfl⟩ | ⟨f, rfl, -⟩⟩
    · exact absurd (State.pred_raise ..) hchanged
    · exact absurd (State.pred_raise ..) hchanged
    · rcases hstore with ⟨-, rfl⟩ | ⟨huses, d, w, hd, rfl⟩
      · simp at hchanged
      · have hdc : c = d := by
          by_contra hne
          simp [State.pred_setPred, hne] at hchanged
        subst hdc
        rcases (usesCh_iff i).mp huses with ⟨f, rfl⟩ | ⟨f, rfl⟩
        · exact .inl ⟨f, rfl, toNat_of_channelOf hd⟩
        · exact .inr (.inl ⟨f, rfl, toNat_of_channelOf hd⟩)
    · exact absurd (State.pred_complete ..) hchanged
    · exact .inr (.inr ⟨f, rfl⟩)
  · rw [exec_setPred hpack hunpack hreset, h, mapNext]

/-- Settles O25: each read phase stops at an unwritten word of what it reads, and a legal command gets to its read phases. -/
theorem unwrittenReadStops : Obligations.UnwrittenReadStops := by
  rintro i s ⟨hsorted, -⟩ hlegal
  have hcheck := (wellFormed_iff dmemWords i).mp hlegal
  rw [opcodeRow_eq_footprintOf]
  refine ⟨fun hunpack haenc hnone => ?_, fun hi hnone => ?_, fun n hi hcount hlow hhigh hnone => ?_⟩
  · have hsrc : (footprintOf i).srcLen ≠ 0 := fun hzero => by simp [hzero] at hnone
    obtain ⟨body, hexec⟩ := exec_eq_withWords s hunpack haenc hcheck hsrc
    rw [hexec]
    exact withWords_stopsIn hsorted hnone
  · obtain ⟨least, body, -, hexec⟩ := exec_eq_withStream s hi hcheck
    rw [hexec]
    exact withStream_stopsIn_count hsorted hnone
  · obtain ⟨least, body, hleast, hexec⟩ := exec_eq_withStream s hi hcheck
    rw [hexec]
    exact withStream_stopsIn_symbols hsorted hcount (hleast.trans hlow) hhigh hnone

end Sys2Proof.Spec
end

section
/-! PROOFS. The steps of the core and its host port: which accesses wait (R230), what STATUS reads as (R122), what the reset
input leaves (R140, R701), and that a command in flight ends (R720). -/

namespace Sys2Proof.Machine

open Sys2Proof.Spec

/-! ### Which accesses wait -/

/-- R230: the offsets whose accesses wait are those of the registers that wait. -/
theorem stalls_regAt_iff {offset : ℕ} (hlegal : LegalOffset offset) :
    (regAt dmemWords offset).stalls = true ↔ WaitingOffset offset := by
  obtain ⟨halign, hbound⟩ := hlegal
  unfold regAt WaitingOffset windowBase
  by_cases hwindow : 0x10000 ≤ offset
  · rw [if_pos hwindow]
    split_ifs with hword
    · exact iff_of_true rfl (by omega)
    · exact iff_of_false (by simp [HostReg.stalls]) (by omega)
  · rw [if_neg hwindow]
    split
    case h_10 =>
      simp only [imp_false] at *
      exact iff_of_false (by simp [HostReg.stalls]) (by omega)
    all_goals simp [HostReg.stalls]

/-- R230, log 8: a held access takes effect as any other; the counts of what is still to come may differ. -/
theorem State.sameButCounts_drain (s : State) (a : HostAccess) : SameButCounts (s.perform params a) (s.drain params a) := by
  rcases s.drain_cases params a with ⟨-, hdrain⟩ | ⟨-, hdrain⟩
  · rw [hdrain]
    exact ⟨rfl, oneDone_input _⟩
  · rw [hdrain]
    exact ⟨rfl, rfl⟩

/-- R713, I7: a legal access that arrives while the reset input is asserted is refused. -/
theorem step_of_legal_during_reset {s : State} {a : HostAccess} {later : List Arrival}
    (harriving : Arriving s (.access a) later) (hlegal : a.refusal params = none) (hreset : s.bus.inReset = true) :
    step s = .refused .accessDuringReset := by
  rw [step_of_arriving harriving, State.receive, State.accept, hlegal]
  exact if_pos hreset

/-! ### STATUS as a word -/

/-- R122: the layout of STATUS. -/
theorem State.statusWord_layout (s : State) :
    s.statusWord.getLsbD 0 = s.busy ∧ s.statusWord.getLsbD 1 = s.done ∧ s.statusWord.getLsbD 2 = s.fault ∧
      s.statusWord.getLsbD 3 = s.lost ∧ s.statusWord.extractLsb' 4 4 = 0 ∧ s.statusWord.extractLsb' 8 8 = s.fcode ∧
      s.statusWord.extractLsb' 16 48 = 0 := by
  unfold State.statusWord flagBit
  refine ⟨?_, ?_, ?_, ?_, ?_, ?_, ?_⟩
  iterate 4
    · simp only [BitVec.getLsbD_append]
      simp
  all_goals
    simp (disch := decide) only [BitVec.extractLsb'_append_eq_of_le]
    simp only [Nat.reduceSub, BitVec.extractLsb'_append_eq_right, BitVec.extractLsb'_eq_self]

/-! ### Reset -/

/-- R701, I5: abandoning held accesses hands the host one word for each read among them. -/
theorem State.foldl_abandon_replies (l : List HostAccess) (s : State) :
    ∃ drawn : List Word, drawn.length = readCount l ∧ (l.foldl State.abandon s).bus.replies = s.bus.replies ++ drawn := by
  induction l generalizing s with
  | nil => exact ⟨[], rfl, (List.append_nil _).symm⟩
  | cons a l ih =>
    obtain ⟨drawn, hlen, hreplies⟩ := ih (s.abandon a)
    rw [List.foldl_cons, hreplies]
    cases a with
    | read address size => exact ⟨Config.freeWord s.bus.draws :: drawn, congrArg (· + 1) hlen, by simp [State.abandon]⟩
    | write address size data => exact ⟨drawn, hlen, rfl⟩

/-- R140, R141: right after reset no word of DMEM holds a value. -/
theorem readWord_reset (a : ℕ) : State.reset.mem.readWord a = none := by
  simp [State.reset, Memory.readWord, Memory.readWords, Memory.between, List.range'_succ]

/-! ### Accesses that take effect -/

theorem lt_of_regAt_eq_dmem {words offset a : ℕ} (h : regAt words offset = .dmem a) : a < words := by
  unfold regAt at h
  split_ifs at h with hwindow hword
  · cases h
    exact hword
  · split at h <;> cases h

/-- Everything that an access to a register can do when it takes effect (R120 to R129, R141, R650). -/
inductive AccessEffect (words : ℕ) (s : State) : HostReg → State → Prop
  | reply (r : HostReg) (w : Word) : AccessEffect words s r (s.reply w)
  | replyFree (r : HostReg) : AccessEffect words s r s.replyFree
  | ignore (r : HostReg) : AccessEffect words s r s
  | issue (w : Word) : AccessEffect words s .cmd (s.issue w)
  | writeStatus (w : Word) : AccessEffect words s .status (s.writeStatus w)
  | writeCtrl (w : Word) : AccessEffect words s .ctrl (s.writeCtrl w)
  | setPred (c : Channel) (w : Word) : AccessEffect words s (.pred c) (s.setPred c w)
  | store (a : ℕ) (w : Word) (h : a < words) : AccessEffect words s (.dmem a) (s.store a [w])

theorem State.perform_effect (p : Params) (s : State) (a : HostAccess) :
    AccessEffect p.dmemWords s (a.reg p) (s.perform p a) := by
  cases a with
  | read address size =>
    rw [State.perform, State.hostRead]
    split
    · exact .reply _ _
    · exact .replyFree _
  | write address size w =>
    rw [State.perform]
    cases hreg : HostAccess.reg p (.write address size w) with
    | cmd => exact .issue w
    | status => exact .writeStatus w
    | ctrl => exact .writeCtrl w
    | pred c => exact .setPred c w
    | dmem a => exact .store a w (lt_of_regAt_eq_dmem hreg)
    | _ => exact .ignore _

section
variable {words : ℕ} {s t : State} {r : HostReg} (h : AccessEffect words s r t)
include h

theorem AccessEffect.arrivals_eq : t.bus.arrivals = s.bus.arrivals := by cases h <;> simp

theorem AccessEffect.held_eq : t.bus.held = s.bus.held := by cases h <;> simp

theorem AccessEffect.inReset_eq : t.bus.inReset = s.bus.inReset := by cases h <;> simp

end

/-! ### A command in flight ends -/

/-- R610, R611: a command that ends has left the core free, and it does not touch the host port. -/
theorem State.runInflight_free {s t : State} (h : s.runInflight exec = .next t) : t.busy = false ∧ t.bus = s.bus := by
  rcases State.runInflight_cases h with ⟨i, -, hexec⟩ | ⟨e, -, rfl⟩
  · rcases exec_raises_or_completes hexec with ⟨c, x, rfl⟩ | ⟨u, hu, rfl⟩
    · exact ⟨rfl, rfl⟩
    · exact ⟨rfl, (congrArg State.bus hu.complete_eq :)⟩
  · exact ⟨rfl, rfl⟩

/-- A step that leaves a command in flight has taken in the next arrival (log 8). -/
theorem arrivals_of_step_busy {s t : State} (hbusy : s.busy = true) (h : step s = .next t) (hstill : t.busy = true) :
    ∃ a, s.bus.arrivals = a :: t.bus.arrivals := by
  rcases State.advance_cases h with
    ⟨-, input, later, harr, hreceive⟩ | ⟨-, -, hrun⟩ | ⟨hfree, -⟩ | ⟨hfree, -⟩ | ⟨hfree, -⟩
  · refine ⟨⟨0, input⟩, harr.trans (congrArg _ ?_)⟩
    rcases State.receive_cases hreceive with ⟨a, -, haccept⟩ | ⟨-, rfl⟩ | ⟨-, rfl⟩
    · obtain ⟨-, -, ⟨-, -, rfl⟩ | ⟨-, rfl⟩⟩ := State.accept_cases haccept
      · rfl
      · exact (State.perform_effect params (s.setArrivals later) a).arrivals_eq.symm
    · obtain ⟨replies, draws, hreset⟩ := (s.setArrivals later).assertReset_spec
      rw [hreset] at hstill
      cases hstill
    · rfl
  · rw [(State.runInflight_free hrun).1] at hstill
    cases hstill
  all_goals
    rw [hbusy] at hfree
    cases hfree

/-- The first step of a run decides how it goes on. -/
theorem run_succ_of_next {M : Host.Core} {s u : M.State} (h : M.step s = .next u) (k : ℕ) : M.run (k + 1) s = M.run k u := by
  rw [Host.Core.run, h]

theorem run_one (M : Host.Core) (s : M.State) : M.run 1 s = M.step s := by
  rw [Host.Core.run]
  cases M.step s <;> rfl

end Sys2Proof.Machine

namespace Sys2Proof.Spec

open Sys2Proof.Machine

/-- Settles O26: a command that nothing overlaps is decoded and executed, with nothing around it. -/
theorem stepRunsDecodedCommand : Obligations.StepRunsDecodedCommand :=
  fun _ i hbusy halone hdecode => (step_runs_inflight hbusy halone).1 i hdecode

/-- Settles O28: the register that the offset names waits exactly at the waiting offsets; the reads named never wait. -/
theorem stallRule : Obligations.StallRule := by
  intro s a offset later hsize haddr hlegal
  refine ⟨fun hbusy h hwaits => ?_, fun hbusy h hpasses => ?_, fun hbusy w ha h hread => ?_, fun rest hfree hheld => ?_⟩
  · have hstalls := (stalls_regAt_iff hlegal).mpr hwaits
    rw [step_access h hsize haddr hlegal rfl, if_pos (by rw [hbusy, hstalls]; rfl)]
    rfl
  · have hgo := Bool.eq_false_iff.mpr (mt (stalls_regAt_iff hlegal).mp hpasses)
    rw [step_access h hsize haddr hlegal rfl, if_neg (no_wait (.inr hgo))]
  · subst ha
    rcases hread with ⟨rfl, rfl⟩ | ⟨rfl, rfl⟩ | ⟨rfl, rfl⟩
    · exact step_readAt_replied h hlegal (r := .status) rfl (.inr rfl) rfl
    · exact step_readAt_replied h hlegal (r := .fcmd) rfl (.inr rfl) rfl
    · exact step_readAt_replied h hlegal (r := .finfo) rfl (.inr rfl) rfl
  · exact ⟨_, step_of_held hfree hheld, State.sameButCounts_drain ..⟩

/-- Settles O29: STATUS never waits, and the word read has the layout of `statusWord_layout`. -/
theorem statusReadLayout : Obligations.StatusReadLayout := by
  intro s later h
  obtain ⟨t, hstep, hreplied⟩ := step_readAt_replied h ⟨rfl, by decide⟩ (r := .status) rfl (.inr rfl) rfl
  exact ⟨t, s.statusWord, hstep, hreplied, s.statusWord_layout⟩

/-- Settles O38: the port has no other reason to refuse a legal access. -/
theorem accessDuringResetRefused : Obligations.AccessDuringResetRefused :=
  fun _ _ _ _ hreset harriving hsize haddr hlegal =>
    step_of_legal_during_reset harriving (HostAccess.refusal_of_legal hsize haddr hlegal) hreset

/-- Settles O39: the state is that right after reset but for the host port, where each held read has drawn a word. -/
theorem resetInputResets : Obligations.ResetInputResets := by
  intro s later h
  obtain ⟨replies, draws, hreset⟩ := (s.setArrivals later).assertReset_spec
  obtain ⟨drawn, hlen, hreplies⟩ := State.foldl_abandon_replies s.bus.held
    { State.reset with bus := { s.bus with arrivals := later, held := [], inReset := true } }
  have hdrawn : (s.setArrivals later).assertReset.bus.replies = s.bus.replies ++ drawn := hreplies
  refine ⟨_, step_of_arriving h, ?_⟩
  rw [hreset] at hdrawn ⊢
  exact ⟨rfl, rfl, rfl, rfl, rfl, rfl, rfl, rfl, rfl, rfl, rfl, rfl, rfl, readWord_reset, rfl, rfl, rfl, drawn, hlen, hdrawn⟩

/-- Settles O40: the registers of the reset state are 0, and its memory is empty. -/
theorem resetState : Obligations.ResetState :=
  ⟨rfl, rfl, rfl, rfl, rfl, rfl, rfl, rfl, readWord_reset⟩

/-- Settles O43: with nothing in flight, held or arriving there is no event at the core. -/
theorem idleCoreStays : Obligations.IdleCoreStays := by
  intro s hfree hheld harr
  unfold step State.advance
  simp [hfree, hheld, harr]

/-- Settles O44, by induction on what is still to arrive: a step leaves BUSY at 1 only if it takes in an arrival. -/
theorem busyEnds : Obligations.BusyEnds := by
  intro s
  induction harr : s.bus.arrivals generalizing s with
  | nil =>
    refine fun hbusy => ⟨1, le_rfl, fun t hrun => ?_⟩
    by_contra hstill
    obtain ⟨a, ha⟩ := arrivals_of_step_busy hbusy ((run_one core s).symm.trans hrun) (by simpa using hstill)
    rw [harr] at ha
    cases ha
  | cons a later ih =>
    intro hbusy
    by_cases hgo : ∃ u, step s = .next u ∧ u.busy = true
    · obtain ⟨u, hstep, hstill⟩ := hgo
      obtain ⟨b, hb⟩ := arrivals_of_step_busy hbusy hstep hstill
      rw [harr] at hb
      obtain ⟨k, hk, hends⟩ := ih u (List.cons.inj hb).2.symm hstill
      exact ⟨k + 1, by simpa using hk, fun t hrun => hends t ((run_succ_of_next (M := core) hstep k).symm.trans hrun)⟩
    · refine ⟨1, by omega, fun t hrun => ?_⟩
      by_contra hstill
      exact hgo ⟨t, (run_one core s).symm.trans hrun, by simpa using hstill⟩

end Sys2Proof.Spec
end

section
/-! PROOFS. The invariant of the core: canonical memory, legal control state, legal host port (R141, R230, R601, R650, R700). It
holds right after reset, and every event at the core keeps it. -/

namespace Sys2Proof.Machine

open Sys2Proof.Spec

/-! ### What the invariant says -/

theorem State.controlOk_iff (s : State) : s.controlOk = true ↔
    (s.fault = true ↔ s.fcode ≠ 0) ∧ s.fcode.toNat ≤ 9 ∧ (s.fault = false → s.fcmd = 0 ∧ s.finfo = 0) ∧
      (s.busy = true → s.done = false ∧ s.fault = false) ∧ ¬(s.done = true ∧ s.fault = true) := by
  unfold State.controlOk
  cases s.fault <;> cases s.busy <;> cases s.done <;> simp <;> tauto

theorem State.portOk_iff (p : Params) (s : State) : s.portOk p = true ↔
    (∀ a ∈ s.bus.held, a.refusal p = none ∧ (a.reg p).stalls = true) ∧
      (s.bus.inReset = true → s.busy = false ∧ s.bus.held = []) := by
  unfold State.portOk
  cases s.bus.inReset <;> simp

/-! ### Control state -/

section
variable {s : State} (h : s.controlOk = true)
include h

/-- R650: an issue at a free core. -/
theorem State.controlOk_issue (w : Word) (hfree : s.busy = false) : (s.issue w).controlOk = true := by
  rw [State.controlOk_iff] at h ⊢
  cases hfault : s.fault with
  | true =>
    rw [State.issue_of_fault w hfault]
    exact h
  | false =>
    rw [State.issue_of_noFault w hfault]
    simp_all

/-- R123: a write to STATUS clears DONE, the whole fault record, or LOST. -/
theorem State.controlOk_writeStatus (w : Word) : (s.writeStatus w).controlOk = true := by
  rw [State.controlOk_iff] at h ⊢
  obtain ⟨hcode, hmax, hrecord, hbusy, hboth⟩ := h
  cases hclear : w.getLsbD 2 with
  | true =>
    simp only [State.writeStatus_fault, State.writeStatus_fcode, State.writeStatus_fcmd, State.writeStatus_finfo,
      State.writeStatus_busy, State.writeStatus_done, hclear]
    exact ⟨by simp, by simp, by simp, fun hb => by simp [hbusy hb], by simp⟩
  | false =>
    simp only [State.writeStatus_fault, State.writeStatus_fcode, State.writeStatus_fcmd, State.writeStatus_finfo,
      State.writeStatus_busy, State.writeStatus_done, hclear]
    exact ⟨hcode, hmax, hrecord, fun hb => by simp [hbusy hb], by simp_all⟩

end

/-- R610: the record of a fault after DONE was cleared. -/
theorem State.controlOk_raise {s : State} (c : CoreFault) (x : Word) (hdone : s.done = false) : (s.raise c x).controlOk = true := by
  obtain ⟨hlow, hhigh⟩ := c.code_mem_range
  have hcode : c.code ≠ 0 := fun hzero => by simp [hzero] at hlow
  rw [State.controlOk_iff]
  exact ⟨iff_of_true rfl hcode, hhigh, nofun, nofun, by simp [hdone]⟩

/-- R230: an access keeps the control state legal, if it does not issue a command while another one is in flight. -/
theorem AccessEffect.controlOk {words : ℕ} {s t : State} {r : HostReg} (heffect : AccessEffect words s r t)
    (hgo : s.busy = false ∨ r.stalls = false) (h : s.controlOk = true) : t.controlOk = true := by
  cases heffect with
  | issue w => exact State.controlOk_issue h w (hgo.resolve_right (by simp [HostReg.stalls]))
  | writeStatus w => exact State.controlOk_writeStatus h w
  | setPred c w => simpa [State.controlOk] using h
  | _ => exact h

/-- R610, R611, R650: a command in flight ends with the control state legal. -/
theorem State.controlOk_runInflight {s t : State} (h : s.controlOk = true) (hbusy : s.busy = true)
    (hrun : s.runInflight exec = .next t) : t.controlOk = true := by
  obtain ⟨hcode, hmax, hrecord, hinflight, -⟩ := (State.controlOk_iff s).mp h
  obtain ⟨hdone, hfault⟩ := hinflight hbusy
  rcases State.runInflight_cases hrun with ⟨i, -, hexec⟩ | ⟨e, -, rfl⟩
  · rcases exec_raises_or_completes hexec with ⟨c, x, rfl⟩ | ⟨u, hu, rfl⟩
    · exact State.controlOk_raise c x hdone
    · rw [hu.complete_eq, State.controlOk_iff]
      exact ⟨hcode, hmax, hrecord, nofun, by simp [hfault]⟩
  · exact State.controlOk_raise _ _ hdone

/-! ### Memory -/

/-- R232, R310: a command that ends leaves DMEM in canonical form. -/
theorem State.wfIn_runInflight {s t : State} (h : s.mem.wfIn params.dmemWords) (hrun : s.runInflight exec = .next t) :
    t.mem.wfIn params.dmemWords := by
  rcases State.runInflight_cases hrun with ⟨i, -, hexec⟩ | ⟨e, -, rfl⟩
  · rcases exec_mem_cases hexec with hmem | ⟨ws, hmem, hlen, hinside⟩
    · rwa [hmem]
    · rw [hmem]
      exact Memory.wfIn_writeWords h (by omega)
  · exact h

/-- R128: an access leaves DMEM in canonical form. -/
theorem AccessEffect.wfIn {words : ℕ} {s t : State} {r : HostReg} (heffect : AccessEffect words s r t) (h : s.mem.wfIn words) :
    t.mem.wfIn words := by
  cases heffect with
  | issue w => rwa [State.issue_mem]
  | writeStatus w => rwa [State.writeStatus_mem]
  | setPred c w => rwa [State.setPred_mem]
  | store a w ha => exact Memory.wfIn_writeWords h ha
  | _ => exact h

/-! ### The events at the core -/

theorem inv_reset : State.reset.Inv params := ⟨Memory.wfIn_nil _, rfl, rfl⟩

section
variable {s : State} (h : s.Inv params)
include h

/-- What is still to arrive is free (R231). -/
theorem State.Inv.setArrivals (l : List Arrival) : (s.setArrivals l).Inv params := h

/-- R230: a legal access that waits may be held while a command is in flight. -/
theorem State.Inv.hold {a : HostAccess} (hlegal : a.refusal params = none) (hwaits : (a.reg params).stalls = true)
    (hreset : s.bus.inReset = false) : (s.hold a).Inv params := by
  obtain ⟨hmem, hcontrol, hport⟩ := h
  refine ⟨hmem, hcontrol, ?_⟩
  rw [State.portOk_iff] at hport ⊢
  refine ⟨fun b hb => ?_, by simp [hreset]⟩
  rcases List.mem_append.mp hb with hb | hb
  · exact hport.1 b hb
  · obtain rfl := List.mem_singleton.mp hb
    exact ⟨hlegal, hwaits⟩

/-- R120 to R129, R650: outside reset an access takes effect within the invariant, one that waits at a free core only. -/
theorem State.Inv.perform (a : HostAccess) (hgo : s.busy = false ∨ (a.reg params).stalls = false)
    (hreset : s.bus.inReset = false) : (s.perform params a).Inv params := by
  obtain ⟨hmem, hcontrol, hport⟩ := h
  have heffect := State.perform_effect params s a
  refine ⟨heffect.wfIn hmem, heffect.controlOk hgo hcontrol, ?_⟩
  rw [State.portOk_iff] at hport ⊢
  rw [heffect.held_eq, heffect.inReset_eq]
  exact ⟨hport.1, by simp [hreset]⟩

/-- R230: at a free core the oldest held access takes effect, which is no longer held then. -/
theorem State.Inv.drain {a : HostAccess} {later : List HostAccess} (hfree : s.busy = false) (hheld : s.bus.held = a :: later) :
    ((s.setHeld later).drain params a).Inv params := by
  obtain ⟨hmem, hcontrol, hport⟩ := h
  obtain ⟨hwaiting, hnone⟩ := (State.portOk_iff params s).mp hport
  have hreset : s.bus.inReset = false := by
    by_contra hin
    obtain ⟨-, hempty⟩ := hnone (by simpa using hin)
    simp [hheld] at hempty
  have hrest : (s.setHeld later).Inv params := by
    refine ⟨hmem, hcontrol, (State.portOk_iff params _).mpr ⟨fun b hb => hwaiting b ?_, by simp [hreset]⟩⟩
    rw [hheld]
    exact List.mem_cons_of_mem a hb
  have hperform := hrest.perform a (.inl hfree) hreset
  rcases (s.setHeld later).drain_cases params a with ⟨-, hdrain⟩ | ⟨-, hdrain⟩
  · rw [hdrain]
    exact hperform.setArrivals _
  · rwa [hdrain]

/-- R221, R230, R700, R713: what arrives from outside is received within the invariant. -/
theorem State.Inv.receive {t : State} {input : HostInput} (hreceive : s.receive params input = .next t) : t.Inv params := by
  rcases State.receive_cases hreceive with ⟨a, -, haccept⟩ | ⟨-, rfl⟩ | ⟨-, rfl⟩
  · obtain ⟨hlegal, hreset, ⟨-, hwaits, rfl⟩ | ⟨hgo, rfl⟩⟩ := State.accept_cases haccept
    · exact h.hold hlegal hwaits hreset
    · exact h.perform a hgo hreset
  · obtain ⟨replies, draws, hreset⟩ := s.assertReset_spec
    rw [hreset]
    exact ⟨inv_reset.1, rfl, rfl⟩
  · obtain ⟨hmem, hcontrol, hport⟩ := h
    refine ⟨hmem, hcontrol, ?_⟩
    rw [State.portOk_iff] at hport ⊢
    exact ⟨hport.1, nofun⟩

/-- R610, R611: the command in flight ends within the invariant. -/
theorem State.Inv.runInflight {t : State} (hbusy : s.busy = true) (hrun : s.runInflight exec = .next t) : t.Inv params := by
  obtain ⟨hmem, hcontrol, hport⟩ := h
  obtain ⟨hfree, hbus⟩ := State.runInflight_free hrun
  refine ⟨State.wfIn_runInflight hmem hrun, State.controlOk_runInflight hcontrol hbusy hrun, ?_⟩
  rw [State.portOk_iff] at hport ⊢
  rw [hbus]
  exact ⟨hport.1, fun hin => ⟨hfree, (hport.2 hin).2⟩⟩

end

end Sys2Proof.Machine

namespace Sys2Proof.Spec

open Sys2Proof.Machine

/-- Settles O41: the memory is empty, and nothing is in flight, recorded or held. -/
theorem invariantAtReset : Obligations.InvariantAtReset := inv_reset

/-- Settles O42: a step is an arrival, the end of the command in flight, a held access, or nothing, and each keeps the
invariant. -/
theorem invariantKept : Obligations.InvariantKept := by
  intro s t h hstep
  rcases State.advance_cases hstep with
    ⟨-, input, later, -, hreceive⟩ | ⟨hbusy, -, hrun⟩ | ⟨hfree, a, later, hheld, rfl⟩ |
      ⟨-, -, n, input, later, -, hreceive⟩ | ⟨-, -, -, rfl⟩
  · exact (h.setArrivals later).receive hreceive
  · exact h.runInflight hbusy hrun
  · exact h.drain hfree hheld
  · exact (h.setArrivals later).receive hreceive
  · exact h

end Sys2Proof.Spec
end

section
/-! PROOFS. What is left of the coder (45_arith_coder.md): streams that clip alike (R503, R510), the codeword inside its interval
(R504), and the whole entropy path (R487, R509), at the default model arguments (R9; log 5). -/

namespace Sys2Proof.Spec

open Sys2Proof.Machine

/-! ### The default model arguments -/

theorem legal_params : params.legal = true := by decide

theorem exec_eq_execAt (i : Instr) (s : State) : exec i s = execAt params i s := by
  cases i <;> rfl

/-! ### Clipped symbols -/

/-- R503: clipping once is enough. -/
theorem symbolIndex_saturate (s : ℤ) : symbolIndex (saturate (-32) 31 s) = symbolIndex s := by
  obtain ⟨hlo, hhi⟩ := saturate_mem (by decide : (-32 : ℤ) ≤ 31) s
  have hclipped := (symbolIndex_spec (saturate (-32) 31 s)).2
  rw [saturate_of_mem hlo hhi] at hclipped
  have hnumber := (symbolIndex_spec s).2
  omega

/-- R503: the encoder reads no more of the symbols than what they clip to. -/
theorem interval_eq_foldl_saturate (cum : List ℕ) (symbols : List ℤ) :
    interval cum symbols = (symbols.map (saturate (-32) 31)).foldl (narrow cum) (0, 1) := by
  have hnarrow (lw : ℕ × ℕ) (s : ℤ) : narrow cum lw (saturate (-32) 31 s) = narrow cum lw s := by
    rw [narrow, symbolIndex_saturate, narrow]
  simp only [interval, List.foldl_map, hnarrow]

/-- R510: symbols that clip alike have one codeword. -/
theorem encodeSymbols_congr {cum : List ℕ} {symbols symbols' : List ℤ}
    (h : symbols.map (saturate (-32) 31) = symbols'.map (saturate (-32) 31)) :
    encodeSymbols cum symbols = encodeSymbols cum symbols' := by
  have hlen : symbols.length = symbols'.length := by simpa using congrArg List.length h
  rw [encodeSymbols, encodeSymbols, interval_eq_foldl_saturate, interval_eq_foldl_saturate, h, hlen]

/-! ### The stream of a sequence -/

/-- Symbol 2·k + 1 after the DC delta is the value of pair k. -/
theorem getElem?_pairSymbols_value (pairs : List (ℕ × Word)) (k : ℕ) :
    (pairSymbols pairs)[2 * k + 1]? = pairs[k]?.map Prod.snd := by
  induction pairs generalizing k with
  | nil => rfl
  | cons rv pairs ih =>
    rw [pairSymbols_cons]
    cases k with
    | zero => rfl
    | succ k => exact ih k

section
variable {delta : Word} {pairs : List (ℕ × Word)}

/-- R481: no pair of a packed sequence looks like the terminator. -/
theorem terminatedSymbols_value_ne_zero (hvalues : ∀ rv ∈ pairs, rv.2 ≠ 0) {k : ℕ} (hk : k < pairs.length) :
    (terminatedSymbols delta pairs).getD (2 * k + 2) 1 ≠ 0 := by
  have hvalue : (terminatedSymbols delta pairs)[2 * k + 2]? = some pairs[k].2 := by
    rw [terminatedSymbols, List.getElem?_append_left (by simp [pairSymbols_length]; omega), List.singleton_append,
      List.getElem?_cons_succ, getElem?_pairSymbols_value, List.getElem?_eq_getElem hk, Option.map_some]
  rw [List.getD_eq_getElem?_getD, hvalue, Option.getD_some]
  exact hvalues _ (List.getElem_mem hk)

/-- The terminator lies behind the DC delta and the pairs. -/
theorem terminatedSymbols_terminator {j : ℕ} (hj : j < 2) :
    (terminatedSymbols delta pairs).getD (1 + 2 * pairs.length + j) 1 = 0 := by
  have hprefix : ([delta] ++ pairSymbols pairs).length = 1 + 2 * pairs.length := by simp [pairSymbols_length, add_comm]
  rw [terminatedSymbols, List.getD_append_right _ _ _ _ (by omega), hprefix, Nat.add_sub_cancel_left]
  interval_cases j <;> rfl

/-- R482, R509: a packed stream none of whose symbols has to be clipped is one that the coder returns. -/
theorem roundTripStream_terminatedSymbols (hdomain : SymbolsInDomain ([delta] ++ pairSymbols pairs))
    (hpairs : pairs.length ≤ 63) (hvalues : ∀ rv ∈ pairs, rv.2 ≠ 0) : RoundTripStream (terminatedSymbols delta pairs) := by
  have hlen := terminatedSymbols_length delta pairs
  refine ⟨?_, by omega, by omega, by omega, ?_, ?_, ?_⟩
  · intro w hw
    rcases List.mem_append.mp hw with hw | hw
    · exact hdomain w hw
    · have hzero : w = 0 := by simpa using hw
      subst hzero
      decide
  · rw [hlen, show 3 + 2 * pairs.length - 2 = 1 + 2 * pairs.length + 0 by omega]
    exact terminatedSymbols_terminator (by decide)
  · rw [hlen, show 3 + 2 * pairs.length - 1 = 1 + 2 * pairs.length + 1 by omega]
    exact terminatedSymbols_terminator (by decide)
  · rintro j hodd hj ⟨-, hvalue⟩
    rw [hlen] at hj
    rw [show j + 1 = 2 * (j / 2) + 2 by omega] at hvalue
    exact terminatedSymbols_value_ne_zero hvalues (by omega) hvalue

end

/-- Settles O48: the packed stream passes through the coder unchanged, and the unpacker accepts its pairs. -/
theorem entropyPathLossless : Obligations.EntropyPathLossless := by
  intro fp fe fd fu s c ws hp he hd hu hsrcE hsrcD hsrcU hch huch hread hdomain
  have hws := Memory.readWords_length hread
  have hpairs := acPairs_tail_length_le hws
  have hcount := streamCount_toNat hpairs
  rw [runValuePairs_eq hws] at hdomain
  have hpack := exec_rlpack_of_legal hp hch hread
  set t := packerEnd s fp.dst.toNat (packedStream (ws.getD 0 0 - s.pred c) (acPairs 0 ws.tail)) c (ws.getD 0 0)
  have hmem : t.mem = s.mem.writeWords fe.src.toNat (packedStream (ws.getD 0 0 - s.pred c) (acPairs 0 ws.tail)) := by
    rw [packerEnd_mem, hsrcE]
  obtain ⟨hreadCount, hreadSymbols⟩ := hmem ▸ reads_of_packedStream s.mem fe.src.toNat (ws.getD 0 0 - s.pred c) _
  rw [← hcount] at hreadSymbols
  obtain ⟨t2, t3, haenc, hadec, hreadCount3, hreadSymbols3⟩ :=
    coderRoundTrip params fe fd t _ _ legal_params he hd hsrcD hreadCount hreadSymbols
      (roundTripStream_terminatedSymbols hdomain hpairs acPairs_value_ne_zero)
  have hmem3 : (t3.setPred c (s.pred c)).mem = t3.mem := State.setPred_mem ..
  rw [← hmem3, ← hsrcU] at hreadCount3 hreadSymbols3
  have hunpack := exec_rlunpack_of_terminator (ignored := []) hu (huch ▸ hch) hreadCount3 (by omega) (by omega)
    (acceptedPairs_acPairs hws) hreadSymbols3
  rw [State.pred_setPred_same, BitVec.sub_add_cancel, unpackedWords_acPairs hws] at hunpack
  exact ⟨t, t2, t3, _, hpack, haenc, hadec, hunpack, readWords_packerEnd hws, packerEnd_pred⟩

/-- Settles O50: AENC stores the codeword of its symbols, and that is one for both streams. -/
theorem clippedSymbolsEncodeAlike : Obligations.ClippedSymbolsEncodeAlike := by
  intro p f s s' n ws ws' hp hlegal hn hcount hcount' hread hread' hclip
  have hlt : encodeSymbols p.cum (ws.map s64) < 2 ^ 2112 :=
    (cumLegal_of_legal hp).encodeSymbols_lt (by rwa [List.length_map, Memory.readWords_length hread])
  have hsame : encodeSymbols p.cum (ws'.map s64) = encodeSymbols p.cum (ws.map s64) :=
    encodeSymbols_congr (by rw [List.map_map, List.map_map]; exact hclip.symm)
  have hexec' := aencAt_of_legal hlegal hcount' hn hread'
  rw [hsame] at hexec'
  exact ⟨_, _, _, aencAt_of_legal hlegal hcount hn hread, hexec', holdsCodeword_store s _ hlt, holdsCodeword_store s' _ hlt⟩

/-- Settles O51: the codeword is the midpoint of an interval that has a width and lies in [0, 1]. -/
theorem codewordInsideInterval : Obligations.CodewordInsideInterval := by
  intro p symbols hp hn
  have hc := cumLegal_of_legal hp
  have hmem := hc.encodeSymbols_mem hn
  rw [Nat.cast_pow, Nat.cast_ofNat] at hmem
  exact ⟨hc.encodeSymbols_lt hn, hmem⟩

/-- Settles O60: each command at the default arguments is the command at any, and so is the step that runs it. -/
theorem execIsTheDefaultConfiguration : Obligations.ExecIsTheDefaultConfiguration := by
  have hexec : exec = execAt params := funext fun i => funext (exec_eq_execAt i)
  exact ⟨legal_params, exec_eq_execAt, fun s => by rw [step, stepAt, hexec]⟩

end Sys2Proof.Spec
end

section
/-! PROOFS. QMUL of QDIV (R444): what is left of a coefficient after its level has been rounded and clamped, for every legal
QTAB. -/

namespace Sys2Proof.Machine

open Sys2Proof.Spec

/-- R440, R10: a legal QTAB has 64 steps, each 1 .. 255. -/
theorem qtab_of_legal {p : Params} (h : p.legal = true) :
    p.qtab.length = 64 ∧ ∀ k : Fin 64, 1 ≤ p.qtab.getD k.val 0 ∧ p.qtab.getD k.val 0 ≤ 255 := by
  simp only [Params.legal, Params.qtabLegal, Bool.and_eq_true, beq_iff_eq, List.all_eq_true, decide_eq_true_eq] at h
  obtain ⟨⟨⟨-, hlen, hstep⟩, -⟩, -⟩ := h
  refine ⟨hlen, fun k => ?_⟩
  rw [List.getD_eq_getElem _ _ (by omega)]
  exact hstep _ (List.getElem_mem _)

/-- R14, R440: a legal quantiser whose source words are written stores its results, whatever the configuration. -/
theorem wholeCommand_zipWith_of_legal {p : Params} (word : ℕ → Word → Word) (hq : p.qtab.length = 64) {f : Fields} {s : State}
    {ws : List Word} (hlegal : f.plainLegal p.dmemWords 64 64 = true) (hread : s.mem.readWords f.src.toNat 64 = some ws) :
    wholeCommand p 64 f s (List.zipWith word p.qtab) = .next (s.store f.dst.toNat (perStep word p.qtab ws)).complete := by
  rw [wholeCommand_zipWith word hq]
  exact wholeCommand_of_legal ((wellFormed_iff p.dmemWords (.qdiv f)).mp hlegal) hread

/-- R441, R443: QMUL neither saturates nor wraps the product of a level and its step. -/
theorem toInt_qmulWord_level {step : ℕ} (hstep : step ≤ 255) (l : ℤ) :
    (qmulWord step (BitVec.ofInt 64 (saturate (-128) 127 l))).toInt = saturate (-128) 127 l * step * 2 ^ 32 := by
  obtain ⟨hlo, hhi⟩ := saturate_mem (by decide : (-128 : ℤ) ≤ 127) l
  have hlevel : (BitVec.ofInt 64 (saturate (-128) 127 l)).toInt = saturate (-128) 127 l := s64_u64 (by omega) (by omega)
  have hlow : -128 * 255 ≤ saturate (-128) 127 l * step := by nlinarith
  have hhigh : saturate (-128) 127 l * step ≤ 127 * 255 := by nlinarith
  rw [qmulWord_eq, hlevel, saturate_of_mem (by omega) (by omega)]
  exact s64_u64 (by omega) (by omega)

/-- R444: the clamped rounding of r is within a half of r where the clamp does not act, and at least a half off where it does. -/
theorem abs_level_sub {r : ℚ} {l : ℤ} (h : IsRne r l) :
    (-128 ≤ l ∧ l ≤ 127 → |(saturate (-128) 127 l : ℚ) - r| ≤ 1 / 2) ∧
      (l < -128 ∨ 127 < l → 1 / 2 ≤ |(saturate (-128) 127 l : ℚ) - r|) := by
  obtain ⟨hnear, -⟩ := h
  refine ⟨fun ⟨hlo, hhi⟩ => ?_, ?_⟩
  · rwa [saturate_of_mem hlo hhi, abs_sub_comm]
  · obtain ⟨hbelow, habove⟩ := abs_le.mp hnear
    rintro (hl | hl)
    · have hclamp : saturate (-128) 127 l = -128 := by unfold saturate; omega
      have hl' : (l : ℚ) ≤ -129 := by exact_mod_cast Int.le_sub_one_of_lt hl
      rw [hclamp]
      exact le_abs.mpr (.inl (by push_cast; linarith))
    · have hclamp : saturate (-128) 127 l = 127 := by unfold saturate; omega
      have hl' : (128 : ℚ) ≤ l := by exact_mod_cast hl
      rw [hclamp]
      exact le_abs.mpr (.inr (by push_cast; linarith))

/-- R444, one word: the error in real value is the step times the error of the level. -/
theorem qmul_qdiv_error {step : ℕ} (hpos : 1 ≤ step) (hmax : step ≤ 255) (w : Word) {l : ℤ}
    (hl : IsRne ((w.toInt : ℚ) / (step * 2 ^ 32)) l) :
    |((qmulWord step (qdivWord step w)).toInt : ℚ) / 2 ^ 32 - (w.toInt : ℚ) / 2 ^ 32| =
      (step : ℚ) * |(saturate (-128) 127 l : ℚ) - (w.toInt : ℚ) / (step * 2 ^ 32)| := by
  obtain ⟨v, hv, hword⟩ := qdivWord_isRne hpos w
  obtain rfl := hv.unique hl
  have hstep : (0 : ℚ) < step := by exact_mod_cast hpos
  have herror : (saturate (-128) 127 v * step * 2 ^ 32 : ℚ) / 2 ^ 32 - (w.toInt : ℚ) / 2 ^ 32 =
      step * ((saturate (-128) 127 v : ℚ) - (w.toInt : ℚ) / (step * 2 ^ 32)) := by
    field_simp
  rw [hword, toInt_qmulWord_level hmax, Int.cast_mul, Int.cast_mul, Int.cast_natCast, Int.cast_pow, Int.cast_ofNat, herror,
    abs_mul, abs_of_pos hstep]

end Sys2Proof.Machine

namespace Sys2Proof.Spec

open Sys2Proof.Machine

/-- Settles O54: QMUL reads the levels that QDIV stored, and the error of a level is at most a half or at least a half as the
clamp does not act or acts. -/
theorem quantizerHalfStep : Obligations.QuantizerHalfStep := by
  intro p f g s ws hp hf hg hsrc hread
  obtain ⟨hlen, hsteps⟩ := qtab_of_legal hp
  set levels := perStep qdivWord p.qtab ws
  have hlevels : (s.store f.dst.toNat levels).complete.mem.readWords g.src.toNat 64 = some levels :=
    hsrc ▸ readWords_store_complete s f.dst.toNat List.length_ofFn
  refine ⟨_, _, wholeCommand_zipWith_of_legal qdivWord hlen hf hread, wholeCommand_zipWith_of_legal qmulWord hlen hg hlevels,
    fun k => ⟨_, readWord_store_complete _ _ (getElem?_perStep qmulWord p.qtab levels k), fun l hl => ?_⟩⟩
  obtain ⟨hpos, hmax⟩ := hsteps k
  have hlevel : levels.getD k.val 0 = qdivWord (p.qtab.getD k.val 0) (ws.getD k.val 0) := by
    rw [List.getD_eq_getElem?_getD, getElem?_perStep, Option.getD_some]
  obtain ⟨hinside, houtside⟩ := abs_level_sub hl
  have hstep : (0 : ℚ) ≤ (p.qtab.getD k.val 0 : ℚ) := Nat.cast_nonneg _
  dsimp only
  rw [hlevel, intAt, qmul_qdiv_error hpos hmax _ hl, div_eq_mul_one_div (p.qtab.getD k.val 0 : ℚ)]
  exact ⟨fun h => mul_le_mul_of_nonneg_left (hinside h) hstep, fun h => mul_le_mul_of_nonneg_left (houtside h) hstep⟩

end Sys2Proof.Spec
end

section
/-! PROOFS. What 41_transform.md section 2 says of all results of DCTF and DCTI: none wraps, and DCTF of a uniform plane has its
DC output only. -/

namespace Sys2Proof.Machine

open Sys2Proof.Spec Matrix

/-! ### The size of the results -/

/-- R420: the largest entry of KD. -/
theorem abs_kdMatrix_le_max : ∀ u x, |kdMatrix u x| ≤ 539192410077 := by decide

/-- R421, R423: saturation bounds an operand. -/
theorem abs_operandMatrix_le {lo hi : ℤ} (h : lo ≤ hi) (hlohi : -lo = hi + 1) (ws : List Word) (x y : Fin 8) :
    |operandMatrix lo hi ws x y| ≤ -lo := by
  obtain ⟨hlow, hhigh⟩ := saturate_mem h (intAt ws (8 * x.val + y.val))
  rw [operandMatrix, of_apply]
  exact abs_le.mpr (by omega)

theorem abs_dctfMatrix_lt (ws : List Word) (u v : Fin 8) : |dctfMatrix ws u v| < 2 ^ 51 := by
  have hexact := abs_le.mp (abs_mul_mul_transpose_apply_le abs_kdMatrix_le_max abs_kdMatrix_le_max
    (abs_operandMatrix_le (by decide : (-32768 : ℤ) ≤ 32767) rfl ws) u v)
  have hround := abs_le.mp (abs_transform_sub_rounded_le kdMatrix (operandMatrix (-32768) 32767 ws) (shift := 48)
    (half := 2 ^ 47) rfl u v)
  rw [Matrix.sub_apply, Matrix.smul_apply, smul_eq_mul, ← dctfMatrix] at hround
  exact abs_lt.mpr (by omega)

theorem abs_dctiMatrix_lt (ws : List Word) (x y : Fin 8) : |dctiMatrix ws x y| < 2 ^ 56 := by
  have hkd (x u : Fin 8) : |kdMatrixᵀ x u| ≤ 539192410077 := abs_kdMatrix_le_max u x
  have hexact := abs_le.mp (abs_mul_mul_transpose_apply_le hkd hkd
    (abs_operandMatrix_le (by decide : (-2 ^ 52 : ℤ) ≤ 2 ^ 52 - 1) rfl ws) x y)
  have hround := abs_le.mp (abs_transform_sub_rounded_le kdMatrixᵀ (operandMatrix (-2 ^ 52) (2 ^ 52 - 1) ws) (shift := 80)
    (half := 2 ^ 79) rfl x y)
  rw [Matrix.sub_apply, Matrix.smul_apply, smul_eq_mul, ← dctiMatrix] at hround
  exact abs_lt.mpr (by omega)

/-- A result far below 2^63 is stored unwrapped, so its bound is the bound of the word. -/
theorem abs_toInt_u64_lt {v b : ℤ} (h : |v| < b) (hb : b ≤ 2 ^ 63) : |(u64 v).toInt| < b := by
  obtain ⟨hlow, hhigh⟩ := abs_lt.mp h
  have hword : (u64 v).toInt = v := s64_u64 (by omega) (by omega)
  rwa [hword]

/-! ### A uniform plane -/

theorem operandMatrix_replicate (lo hi : ℤ) (w : Word) (x y : Fin 8) :
    operandMatrix lo hi (List.replicate 64 w) x y = saturate lo hi w.toInt := by
  have hin : 8 * x.val + y.val < 64 := by omega
  rw [operandMatrix, of_apply, intAt, List.getD_eq_getElem?_getD, List.getElem?_replicate_of_lt hin, Option.getD_some]

/-- R420: every row of KD but the first sums to 0. -/
theorem sum_kdMatrix_row : ∀ u, ∑ x, kdMatrix u x = if u = 0 then 8 * kdEntry 0 0 else 0 := by decide

/-- R421: the exact outputs of a uniform plane of value c. -/
theorem kd_mul_uniform_mul_kd {M : Matrix (Fin 8) (Fin 8) ℤ} {c : ℤ} (hM : ∀ x y, M x y = c) (u v : Fin 8) :
    (kdMatrix * M * kdMatrixᵀ) u v = if u = 0 ∧ v = 0 then c * 64 * kdEntry 0 0 ^ 2 else 0 := by
  have hrows : (kdMatrix * M * kdMatrixᵀ) u v = (∑ x, kdMatrix u x) * (∑ y, kdMatrix v y) * c := by
    rw [mul_mul_transpose_apply, Finset.sum_mul_sum, Finset.sum_mul]
    simp only [hM, Finset.sum_mul]
  rw [hrows, sum_kdMatrix_row, sum_kdMatrix_row]
  by_cases hu : u = 0 <;> by_cases hv : v = 0 <;> simp [hu, hv]
  ring

theorem dctfMatrix_replicate_ac (w : Word) {u v : Fin 8} (h : ¬(u = 0 ∧ v = 0)) :
    dctfMatrix (List.replicate 64 w) u v = 0 := by
  rw [dctfMatrix, roundedTransform, of_apply, kd_mul_uniform_mul_kd (operandMatrix_replicate _ _ w), if_neg h]
  decide

theorem dctfMatrix_replicate_dc (w : Word) :
    IsRne ((saturate (-32768) 32767 w.toInt * 64 * kdEntry 0 0 ^ 2 : ℤ) / 2 ^ 48) (dctfMatrix (List.replicate 64 w) 0 0) := by
  have h := roundedTransform_isRne kdMatrix (operandMatrix (-32768) 32767 (List.replicate 64 w)) 48 0 0
  rwa [kd_mul_uniform_mul_kd (operandMatrix_replicate _ _ w), if_pos ⟨rfl, rfl⟩] at h

end Sys2Proof.Machine

namespace Sys2Proof.Spec

open Sys2Proof.Machine

/-- Settles O56: the sums of products are bounded by the largest entry of KD and the saturation of the operands. -/
theorem transformOutputsFit : Obligations.TransformOutputsFit := by
  refine fun f s t hlegal => ⟨fun hnext k => ?_, fun hnext k => ?_⟩
  · obtain ⟨ws, -, rfl⟩ := isPlaneCommand_dctf.next_of_legal hlegal hnext
    obtain ⟨u, v, hk⟩ := exists_row_column k
    exact ⟨_, hk ▸ readWord_store_complete s _ (getElem?_dctfWords ws u v),
      abs_toInt_u64_lt (abs_dctfMatrix_lt ws u v) (by decide)⟩
  · obtain ⟨ws, -, rfl⟩ := isPlaneCommand_dcti.next_of_legal hlegal hnext
    obtain ⟨x, y, hk⟩ := exists_row_column k
    exact ⟨_, hk ▸ readWord_store_complete s _ (getElem?_dctiWords ws x y),
      abs_toInt_u64_lt (abs_dctiMatrix_lt ws x y) (by decide)⟩

/-- Settles O57: but for the first, the rows of KD sum to 0, so a uniform plane has its DC output only. -/
theorem dctfOfUniformPlane : Obligations.DctfOfUniformPlane := by
  intro f s w hlegal hread
  refine ⟨_, isPlaneCommand_dctf.exec_of_legal hlegal hread, fun k hpos hk => ?_, _, dctfMatrix_replicate_dc w, ?_⟩
  · obtain ⟨u, v, huv⟩ := exists_row_column ⟨k, hk⟩
    have hac : ¬(u = 0 ∧ v = 0) := by
      rintro ⟨rfl, rfl⟩
      simp at huv
      omega
    have hword := readWord_store_complete s f.dst.toNat (getElem?_dctfWords (List.replicate 64 w) u v)
    rw [← huv, dctfMatrix_replicate_ac w hac] at hword
    exact hword
  · exact readWord_store_complete s f.dst.toNat (getElem?_dctfWords (List.replicate 64 w) 0 0)

end Sys2Proof.Spec
end
